-- ==== Sys2Proof/Word.lean ====
section
/-! DEFINITION. The two word types of the shrink codec engine (spec 00_scope R7): a host register is 32 bits, a stream or RAM
byte is 8 bits, and every value is unsigned. -/

namespace Sys2Proof

/-- A 32-bit host register or command word (10_state R30, 30_encoding R120). -/
abbrev Word := BitVec 32

/-- A byte of a port stream or of an internal RAM (20_memory R81). -/
abbrev Byte := BitVec 8

end Sys2Proof
end

