-- ==== Sys2Proof/Config.lean ====
section
/-! DEFINITION. What an implementation fixes, and the one free value of the model.

The implementation parameters EI_MAX, HASH_ORDER_MAX and REG_BASE are arguments of the model (00_scope R6, I1, I7): they
stand in `Machine.State.build`, so that every statement holds for every build; only their values in `State.reset` are
given here. -/

namespace Sys2Proof.Config

/-- EI_MAX of the default build (00_scope R6: "15 unless the builder states less"). -/
def defaultEiMax : Nat := 15

/-- HASH_ORDER_MAX of the default build (00_scope R6: "16 unless the builder states less"). -/
def defaultHashOrderMax : Nat := 16

/-- REG_BASE, the platform's address of the register window, of the reset state (20_memory R97 leaves it open;
DESIGN CHOICE, log 2). -/
def defaultRegBase : Nat := 0

/-- FREE VALUE: the unspecified contents of an internal RAM byte that nothing has written (10_state R44, 41_lzss R221,
70_reset R400; 93_implementation_defined I2, I3). The arguments are the RAM's number, the model's epoch counter and the
address, so the byte keeps one value until the RAM is made unspecified again (log 3). -/
opaque unspecifiedByte : Nat → Nat → Nat → Byte

end Sys2Proof.Config
end

