-- ==== Sys2Proof/Syntax.lean ====
section
/-! DEFINITION. The instructions: one constructor for each row of spec/opcode_table.json. The first fourteen are command
words, written by the host to CMD (30_encoding Part A); the rest are the wire units a decode operation reads from its
input port (30_encoding Part B), which the engine executes one by one. -/

namespace Sys2Proof

inductive Instr where
  /-- CMD 0x0, 42_rle R251. -/
  | rleEnc
  /-- CMD 0x8, 42_rle R260. -/
  | rleDec
  /-- CMD 0x1, 41_lzss R200. -/
  | lzssEnc
  /-- CMD 0x9, 41_lzss R220. -/
  | lzssDec
  /-- CMD 0x2, 43_elias_gamma R291. -/
  | egEnc
  /-- CMD 0xA, 43_elias_gamma R300. -/
  | egDec
  /-- CMD 0x3, 44_mtf R321. -/
  | mtfEnc
  /-- CMD 0xB, 44_mtf R330. -/
  | mtfDec
  /-- CMD 0x4, 45_lzp R341. -/
  | lzpEnc
  /-- CMD 0xC, 45_lzp R350. -/
  | lzpDec
  /-- CMD words 0x5 and 0xD (30_encoding R122). -/
  | reservedCodec5 (dir : Bool)
  /-- CMD words 0x6 and 0xE (30_encoding R122). -/
  | reservedCodec6 (dir : Bool)
  /-- CMD words 0x7 and 0xF (30_encoding R122). -/
  | reservedCodec7 (dir : Bool)
  /-- A CMD word with a bit of [31:4] set: those 28 bits, DIR and CODEC (30_encoding R122). -/
  | reservedHighbits (high : BitVec 28) (dir : Bool) (codec : BitVec 3)
  /-- LZSS unit `1`, then the byte (30_encoding R125). -/
  | lzssLiteral (v : Byte)
  /-- LZSS unit `0`, then EI bits of position and EJ bits of biased length (30_encoding R125, R126); the field widths are
  those of the registers `dpos` and `dlen` (10_state R40). -/
  | lzssReference (pos : BitVec 15) (len : BitVec 8)
  /-- RLE command byte above RL; its payload of c - RL bytes follows in the stream (30_encoding R128). -/
  | rleLiteralBlock (c : Byte)
  /-- RLE command byte at most RL and the repeated byte (30_encoding R128). -/
  | rleRunBlock (c : Byte) (b : Byte)
  /-- Elias-Gamma code `0` (30_encoding R129; so for the next fifteen). -/
  | egSymbol0
  | egSymbol1
  | egSymbol2
  | egSymbol3
  | egSymbol4
  | egSymbol5
  | egSymbol6
  | egSymbol7
  | egSymbol8
  | egSymbol9
  | egSymbol10
  | egSymbol11
  | egSymbol12
  | egSymbol13
  | egSymbol14
  | egSymbol15
  /-- The code of the gamma value 17 (30_encoding R129). -/
  | egTerminal
  /-- `11110` and a suffix 0010 to 1111: gamma values 18 to 31 (30_encoding R130). -/
  | egInvalidValue (suffix : BitVec 4)
  /-- Five one bits (30_encoding R130). -/
  | egInvalidPrefix
  /-- MTF rank byte (30_encoding R131). -/
  | mtfRank (r : Byte)
  /-- LZP mask byte; its literal bytes follow in the stream (30_encoding R132). -/
  | lzpBlock (m : Byte)
deriving DecidableEq, Repr

end Sys2Proof
end

