-- ==== Sys2Proof/WellFormed.lean ====
section
/-! DEFINITION. Which instructions have an encoding: the field bounds that the wire formats put on them (30_encoding
R122, R126, R128, R130), under the parameters that shape the formats. -/

namespace Sys2Proof

/-- The parameters the wire formats depend on (30_encoding R125, R128): LZSS field widths and the RLE threshold. -/
structure Wire where
  ei : Nat
  ej : Nat
  rl : Nat
deriving DecidableEq, Repr

/-- The parameters of the opcode table's patterns: EI = 11, EJ = 4 (30_encoding R125) and RL = 128 (00_scope R6). -/
def Wire.default : Wire := ⟨11, 4, 128⟩

/-- Which grammar reads an instruction: the CMD word, or the unit format of one CODEC (30_encoding R134). -/
inductive Family where
  | command
  | lzss
  | rle
  | eg
  | mtf
  | lzp
deriving DecidableEq, Repr

/-- The grammar an instruction belongs to. -/
def Instr.family : Instr → Family
  | .rleEnc | .rleDec | .lzssEnc | .lzssDec | .egEnc | .egDec | .mtfEnc | .mtfDec | .lzpEnc | .lzpDec => .command
  | .reservedCodec5 _ | .reservedCodec6 _ | .reservedCodec7 _ | .reservedHighbits _ _ _ => .command
  | .lzssLiteral _ | .lzssReference _ _ => .lzss
  | .rleLiteralBlock _ | .rleRunBlock _ _ => .rle
  | .egSymbol0 | .egSymbol1 | .egSymbol2 | .egSymbol3 | .egSymbol4 | .egSymbol5 | .egSymbol6 | .egSymbol7 => .eg
  | .egSymbol8 | .egSymbol9 | .egSymbol10 | .egSymbol11 | .egSymbol12 | .egSymbol13 | .egSymbol14 | .egSymbol15 => .eg
  | .egTerminal | .egInvalidValue _ | .egInvalidPrefix => .eg
  | .mtfRank _ => .mtf
  | .lzpBlock _ => .lzp

/-- The field bounds of an instruction under the parameters `w`. -/
def Instr.wf (w : Wire) : Instr → Bool
  | .reservedHighbits high _ _ => high ≠ 0#28
  | .lzssReference pos len => pos.toNat < 2 ^ w.ei && len.toNat < 2 ^ w.ej
  | .rleLiteralBlock c => w.rl < c.toNat
  | .rleRunBlock c _ => c.toNat ≤ w.rl
  | .egInvalidValue suffix => 2 ≤ suffix.toNat
  | .rleEnc | .rleDec | .lzssEnc | .lzssDec | .egEnc | .egDec | .mtfEnc | .mtfDec | .lzpEnc | .lzpDec => true
  | .reservedCodec5 _ | .reservedCodec6 _ | .reservedCodec7 _ => true
  | .lzssLiteral _ => true
  | .egSymbol0 | .egSymbol1 | .egSymbol2 | .egSymbol3 | .egSymbol4 | .egSymbol5 | .egSymbol6 | .egSymbol7 => true
  | .egSymbol8 | .egSymbol9 | .egSymbol10 | .egSymbol11 | .egSymbol12 | .egSymbol13 | .egSymbol14 | .egSymbol15 => true
  | .egTerminal | .egInvalidPrefix => true
  | .mtfRank _ => true
  | .lzpBlock _ => true

end Sys2Proof
end

