-- ==== Sys2Proof/Decode.lean ====
section
/-! DEFINITION. From bits to instructions and back. A bit string stands in transmission order, the first bit first
(00_scope R7). `decode` is total on any bits and rejects by name; the encoder after it is written from the same tables
(30_encoding R120 to R132). -/

namespace Sys2Proof

/-- The `n` low bits of `v`, most significant first: the order in which a field is sent (20_memory R82 (b),
40_stream_bitpacker R181). -/
def bitsOf : Nat → Nat → List Bool
  | 0, _ => []
  | n + 1, v => v.testBit n :: bitsOf n v

/-- The value of a bit string whose first bit is the most significant (40_stream_bitpacker R184: `x <- (x << 1) | b`),
appended to the value `x` read before. -/
def ofBits : Nat → List Bool → Nat
  | x, [] => x
  | x, b :: l => ofBits (2 * x + b.toNat) l

/-- `n` bits from the front of `l` as a number, and the rest; none when `l` is shorter. -/
def takeBits : Nat → Nat → List Bool → Option (Nat × List Bool)
  | 0, x, l => some (x, l)
  | _ + 1, _, [] => none
  | n + 1, x, b :: l => takeBits n (2 * x + b.toNat) l

/-- Why a bit string is not an instruction. -/
inductive DecodeError where
  /-- The string is empty: the input ended between two units. -/
  | noBits
  /-- The string ends inside a unit. -/
  | cut
deriving DecidableEq, Repr

/-- CODEC field of a command word, bits [2:0] (30_encoding R120). -/
def commandCodec (w : Word) : BitVec 3 := w.extractLsb' 0 3

/-- DIR field of a command word, bit [3] (30_encoding R120). -/
def commandDir (w : Word) : Bool := w.getLsbD 3

/-- The reserved field of a command word, bits [31:4] (30_encoding R120). -/
def commandHigh (w : Word) : BitVec 28 := w.extractLsb' 4 28

/-- The opcode map (30_encoding R121, R122): every 32-bit word is one of the ten commands or a reserved word. -/
def decodeCommand (w : Word) : Instr :=
  if commandHigh w ≠ 0#28 then .reservedHighbits (commandHigh w) (commandDir w) (commandCodec w)
  else
    match (commandCodec w).toNat, commandDir w with
    | 0, false => .rleEnc
    | 0, true => .rleDec
    | 1, false => .lzssEnc
    | 1, true => .lzssDec
    | 2, false => .egEnc
    | 2, true => .egDec
    | 3, false => .mtfEnc
    | 3, true => .mtfDec
    | 4, false => .lzpEnc
    | 4, true => .lzpDec
    | 5, d => .reservedCodec5 d
    | 6, d => .reservedCodec6 d
    | _, d => .reservedCodec7 d

/-- The LZSS unit at the front of a bit string (30_encoding R125, R127). -/
def decodeLzss (w : Wire) : List Bool → Option (Instr × List Bool)
  | [] => none
  | true :: l => (takeBits 8 0 l).map fun (v, rest) => (.lzssLiteral (BitVec.ofNat 8 v), rest)
  | false :: l =>
    match takeBits w.ei 0 l with
    | none => none
    | some (pos, l) =>
      (takeBits w.ej 0 l).map fun (len, rest) => (.lzssReference (BitVec.ofNat 15 pos) (BitVec.ofNat 8 len), rest)

/-- The RLE block head at the front of a bit string (30_encoding R128): the comparison with RL decides. -/
def decodeRle (w : Wire) (l : List Bool) : Option (Instr × List Bool) :=
  match takeBits 8 0 l with
  | none => none
  | some (c, l) =>
    if w.rl < c then some (.rleLiteralBlock (BitVec.ofNat 8 c), l)
    else (takeBits 8 0 l).map fun (b, rest) => (.rleRunBlock (BitVec.ofNat 8 c) (BitVec.ofNat 8 b), rest)

/-- The instruction of a gamma value (43_elias_gamma R301 to R304; 30_encoding R129, R130). -/
def gammaInstr : Nat → Instr
  | 1 => .egSymbol0
  | 2 => .egSymbol1
  | 3 => .egSymbol2
  | 4 => .egSymbol3
  | 5 => .egSymbol4
  | 6 => .egSymbol5
  | 7 => .egSymbol6
  | 8 => .egSymbol7
  | 9 => .egSymbol8
  | 10 => .egSymbol9
  | 11 => .egSymbol10
  | 12 => .egSymbol11
  | 13 => .egSymbol12
  | 14 => .egSymbol13
  | 15 => .egSymbol14
  | 16 => .egSymbol15
  | 17 => .egTerminal
  | v => .egInvalidValue (BitVec.ofNat 4 (v - 16))

/-- The Elias-Gamma code at the front of a bit string, `g` one bits of its prefix having been read (43_elias_gamma R300,
R301): a fifth one bit is an invalid prefix; after the zero, `g` suffix bits follow. -/
def decodeEg : Nat → List Bool → Option (Instr × List Bool)
  | _, [] => none
  | g, true :: l => if g = 4 then some (.egInvalidPrefix, l) else decodeEg (g + 1) l
  | g, false :: l => (takeBits g 0 l).map fun (suffix, rest) => (gammaInstr (2 ^ g + suffix), rest)

/-- The first instruction of a bit string under a grammar, if the string holds all of it. -/
def decodeFirst (f : Family) (w : Wire) (l : List Bool) : Option (Instr × List Bool) :=
  match f with
  | .command => (takeBits 32 0 l).map fun (v, rest) => (decodeCommand (BitVec.ofNat 32 v), rest)
  | .lzss => decodeLzss w l
  | .rle => decodeRle w l
  | .eg => decodeEg 0 l
  | .mtf => (takeBits 8 0 l).map fun (v, rest) => (.mtfRank (BitVec.ofNat 8 v), rest)
  | .lzp => (takeBits 8 0 l).map fun (v, rest) => (.lzpBlock (BitVec.ofNat 8 v), rest)

/-- THE DECODER: total; the only strings it rejects are the empty one and one that ends inside a unit. Reserved and
invalid bit patterns are instructions of their own, since the spec gives them an effect (30_encoding R122, R130). -/
def decode (f : Family) (w : Wire) (l : List Bool) : Except DecodeError (Instr × List Bool) :=
  match decodeFirst f w l with
  | some r => .ok r
  | none => .error (if l = [] then .noBits else .cut)

/-- The bits of a byte stream in transmission order (20_memory R82 (b)). -/
def streamBits : List Byte → List Bool
  | [] => []
  | b :: l => bitsOf 8 b.toNat ++ streamBits l

/-- The decoder on bytes. -/
def decodeBytes (f : Family) (w : Wire) (l : List Byte) : Except DecodeError (Instr × List Bool) :=
  decode f w (streamBits l)

/-! ## The encoder -/

/-- The fields of a command word put together (30_encoding R120). -/
def commandFields (high : BitVec 28) (dir : Bool) (codec : BitVec 3) : Word :=
  BitVec.ofNat 32 (high.toNat * 16 + dir.toNat * 8 + codec.toNat)

/-- The CMD value of a command or reserved word (30_encoding R121, R122); 0 for a wire unit, which has none. -/
def commandWord : Instr → Word
  | .rleEnc => 0x0#32
  | .rleDec => 0x8#32
  | .lzssEnc => 0x1#32
  | .lzssDec => 0x9#32
  | .egEnc => 0x2#32
  | .egDec => 0xA#32
  | .mtfEnc => 0x3#32
  | .mtfDec => 0xB#32
  | .lzpEnc => 0x4#32
  | .lzpDec => 0xC#32
  | .reservedCodec5 d => if d then 0xD#32 else 0x5#32
  | .reservedCodec6 d => if d then 0xE#32 else 0x6#32
  | .reservedCodec7 d => if d then 0xF#32 else 0x7#32
  | .reservedHighbits high d c => commandFields high d c
  | .lzssLiteral _ | .lzssReference _ _ | .rleLiteralBlock _ | .rleRunBlock _ _ => 0#32
  | .egSymbol0 | .egSymbol1 | .egSymbol2 | .egSymbol3 | .egSymbol4 | .egSymbol5 | .egSymbol6 | .egSymbol7 => 0#32
  | .egSymbol8 | .egSymbol9 | .egSymbol10 | .egSymbol11 | .egSymbol12 | .egSymbol13 | .egSymbol14 | .egSymbol15 => 0#32
  | .egTerminal | .egInvalidValue _ | .egInvalidPrefix | .mtfRank _ | .lzpBlock _ => 0#32

/-- The code table of 30_encoding R129 by symbol; 16 is the terminal. -/
def gammaTable : Nat → List Bool
  | 0 => [false]
  | 1 => [true, false, false]
  | 2 => [true, false, true]
  | 3 => [true, true, false, false, false]
  | 4 => [true, true, false, false, true]
  | 5 => [true, true, false, true, false]
  | 6 => [true, true, false, true, true]
  | 7 => [true, true, true, false, false, false, false]
  | 8 => [true, true, true, false, false, false, true]
  | 9 => [true, true, true, false, false, true, false]
  | 10 => [true, true, true, false, false, true, true]
  | 11 => [true, true, true, false, true, false, false]
  | 12 => [true, true, true, false, true, false, true]
  | 13 => [true, true, true, false, true, true, false]
  | 14 => [true, true, true, false, true, true, true]
  | 15 => [true, true, true, true, false, false, false, false, false]
  | _ => [true, true, true, true, false, false, false, false, true]

/-- THE ENCODER: the bits of an instruction in transmission order, from the tables of 30_encoding. -/
def encode (w : Wire) : Instr → List Bool
  | .lzssLiteral v => true :: bitsOf 8 v.toNat
  | .lzssReference pos len => false :: (bitsOf w.ei pos.toNat ++ bitsOf w.ej len.toNat)
  | .rleLiteralBlock c => bitsOf 8 c.toNat
  | .rleRunBlock c b => bitsOf 8 c.toNat ++ bitsOf 8 b.toNat
  | .egSymbol0 => gammaTable 0
  | .egSymbol1 => gammaTable 1
  | .egSymbol2 => gammaTable 2
  | .egSymbol3 => gammaTable 3
  | .egSymbol4 => gammaTable 4
  | .egSymbol5 => gammaTable 5
  | .egSymbol6 => gammaTable 6
  | .egSymbol7 => gammaTable 7
  | .egSymbol8 => gammaTable 8
  | .egSymbol9 => gammaTable 9
  | .egSymbol10 => gammaTable 10
  | .egSymbol11 => gammaTable 11
  | .egSymbol12 => gammaTable 12
  | .egSymbol13 => gammaTable 13
  | .egSymbol14 => gammaTable 14
  | .egSymbol15 => gammaTable 15
  | .egTerminal => gammaTable 16
  | .egInvalidValue suffix => [true, true, true, true, false] ++ bitsOf 4 suffix.toNat
  | .egInvalidPrefix => [true, true, true, true, true]
  | .mtfRank r => bitsOf 8 r.toNat
  | .lzpBlock m => bitsOf 8 m.toNat
  | .rleEnc => bitsOf 32 (commandWord .rleEnc).toNat
  | .rleDec => bitsOf 32 (commandWord .rleDec).toNat
  | .lzssEnc => bitsOf 32 (commandWord .lzssEnc).toNat
  | .lzssDec => bitsOf 32 (commandWord .lzssDec).toNat
  | .egEnc => bitsOf 32 (commandWord .egEnc).toNat
  | .egDec => bitsOf 32 (commandWord .egDec).toNat
  | .mtfEnc => bitsOf 32 (commandWord .mtfEnc).toNat
  | .mtfDec => bitsOf 32 (commandWord .mtfDec).toNat
  | .lzpEnc => bitsOf 32 (commandWord .lzpEnc).toNat
  | .lzpDec => bitsOf 32 (commandWord .lzpDec).toNat
  | .reservedCodec5 d => bitsOf 32 (commandWord (.reservedCodec5 d)).toNat
  | .reservedCodec6 d => bitsOf 32 (commandWord (.reservedCodec6 d)).toNat
  | .reservedCodec7 d => bitsOf 32 (commandWord (.reservedCodec7 d)).toNat
  | .reservedHighbits high d c => bitsOf 32 (commandWord (.reservedHighbits high d c)).toNat

/-- The gamma code of a value by its definition, as the encoder's `PutGamma` sends it (43_elias_gamma R290): floor(log2 v)
one bits, a zero, then that many low bits of `v`. -/
def gammaBits (v : Nat) : List Bool :=
  List.replicate v.log2 true ++ false :: bitsOf v.log2 v

/-! ## The opcode table's numbering -/

/-- Whether the last `n` bits of `w` are exactly one Elias-Gamma code. -/
def wholeGamma (n w : Nat) : Bool :=
  match decodeFirst .eg Wire.default (bitsOf n w) with
  | some (_, []) => true
  | _ => false

/-- The grammar that a word of the opcode table is read in, and how many bits it has there; `nbits` may be its own length or
that length in whole bytes (log 21). A 32-bit word is a command. A number whose binary digits are a gamma code is that code:
but for `0`, every code begins with a one. A 9-bit number that begins with a one is an LZSS literal, another 16-bit word is an
LZSS unit under the table's default parameters; an 8-bit word is an MTF rank, the one byte-aligned format in which every byte
is a whole unit whatever the parameters. -/
def tableGrammar (nbits w : Nat) : Option (Family × Nat) :=
  if nbits = 32 then some (.command, 32)
  else if 16 < nbits then none
  else if wholeGamma (w.log2 + 1) w = true ∧ nbits ≤ (w.log2 + 8) / 8 * 8 ∧ (w ≠ 0 ∨ nbits = 1) then some (.eg, w.log2 + 1)
  else if nbits = 8 then some (.mtf, 8)
  else if w / 256 = 1 then some (.lzss, 9)
  else if nbits = 16 then some (.lzss, 16)
  else none

/-- The instruction this decoder reads from a table word. -/
def decodeTableWord (nbits w : Nat) : Option Instr :=
  match tableGrammar nbits w with
  | none => none
  | some (f, n) =>
    match decode f Wire.default (bitsOf n w) with
    | .ok (i, _) => some i
    | .error _ => none

end Sys2Proof
end

