-- ==== Sys2Proof/Machine/State.lean ====
section
/-! DEFINITION. The machine's state as plain data, and the state after reset (70_reset R400).

Three groups: what the host sees (the eight registers of 10_state R30), what the engine holds (the control state R50, the
latched parameters R41, the working registers R40 and the five internal RAMs R44), and the host's side of the machine (its
pending actions and the buffer-mode adapter, 20_memory R92, R98). -/

namespace Sys2Proof.Machine

/-- The five CODECs (00_scope R2). -/
inductive Codec where
  | rle
  | lzss
  | eliasGamma
  | mtf
  | lzp
deriving DecidableEq, Repr

/-- The ten operations: a CODEC and a direction (40_stream_bitpacker R164). -/
inductive Op where
  | rleEnc
  | rleDec
  | lzssEnc
  | lzssDec
  | egEnc
  | egDec
  | mtfEnc
  | mtfDec
  | lzpEnc
  | lzpDec
deriving DecidableEq, Repr

/-- The result codes that an operation can end with (60_exceptions R370); codes 5 to 15 are never produced. -/
inductive Result where
  | ok
  | ioFailure
  | bufferTooSmall
  | invalidParameters
  | corruptStream
deriving DecidableEq, Repr

/-- STATUS by its fields (10_state R32). Host writes to it are ignored and its reserved bits read 0, so the fields are all
it holds. -/
structure Status where
  busy : Bool
  done : Bool
  eoi : Bool
  result : Result
  codec : BitVec 3
  dir : Bool
deriving DecidableEq, Repr

/-- The implementation parameters, fixed when the block is built (00_scope R6, 10_state R37) and, for `regBase`, when it
is placed in the host's address map (20_memory R97). No step changes them. -/
structure Build where
  eiMax : Nat
  hashOrderMax : Nat
  regBase : Nat
deriving DecidableEq, Repr

/-- The latched parameters (10_state R41). -/
structure Params where
  ei : Nat
  ej : Nat
  p : Nat
  fill : Byte
  rl : Nat
  rover : Nat
  hashOrder : Nat
  blockLength : Nat
deriving DecidableEq, Repr

/-- The internal RAMs (10_state R44). -/
inductive Space where
  | win
  | lzpt
  | mtft
  | rleb
  | litb
deriving DecidableEq, Repr

/-- The contents of one RAM: address and byte, addresses strictly rising, no entry equal to what an unlisted address reads
as (`Ram.wf` in Machine/Ops.lean). -/
abbrev Ram := List Host.Cell

/-- The five decoders, whose input is read unit by unit. -/
inductive Decoder where
  | lzss
  | rle
  | eg
  | mtf
  | lzp
deriving DecidableEq, Repr

/-- Where RLE.ENC goes on after a `FlushLit()` (42_rle R251). -/
inductive FlushReturn where
  /-- To the pull after `Append(b)` of the first branch. -/
  | afterAppend
  /-- To `repeat k times : Append(prev)`, so many of them still to come. -/
  | afterRepeat (left : Nat)
  /-- To the run block. -/
  | toRun
  /-- To `finish`. -/
  | atEnd
deriving DecidableEq, Repr

/-- The points of the ten operations' pseudocode (10_state R50). Each belongs to one operation (`Point.op`). -/
inductive Point where
  /-- A decoder is between two units or inside one, and reads on. -/
  | fetch (d : Decoder)
  /-- A decoder's pull for unit bits has been answered; the answer is in `rv`. -/
  | fetched (d : Decoder)
  /-- A whole unit has been read; its effect comes next. -/
  | unit (d : Decoder)
  /-- RLE.ENC: the loop test on `rv`. -/
  | rleTop
  /-- RLE.ENC: the answer to the pull of the counting loop is in `rv`. -/
  | rleCount
  /-- RLE.ENC, inside `FlushLit()`: literal `t` is the next to push. -/
  | rleLits (t : Nat) (ret : FlushReturn)
  /-- RLE.ENC: the run command byte has been pushed. -/
  | rleRunCmd
  /-- RLE.ENC: the run's byte has been pushed. -/
  | rleRunByte
  /-- RLE.DEC, literal block: the payload byte is in `rv`, `left` are to come with it. -/
  | rleLitByte (left : Nat)
  /-- RLE.DEC, literal block: a payload byte has been pushed, `left` are still to come. -/
  | rleLitDone (left : Nat)
  /-- RLE.DEC, run block: a copy of `v` has been pushed, `left` are still to come. -/
  | rleRunDone (left : Nat) (v : Byte)
  /-- LZSS.ENC: the answer to a pull of the window fill (or, `again`, of the refill after a slide) is in `rv`. -/
  | lzssFill (again : Bool)
  /-- LZSS.ENC: the main loop's test. -/
  | lzssMain
  /-- LZSS.ENC: a byte of a unit has been pushed; these bits of the unit are still to put. -/
  | lzssPut (bits : List Bool)
  /-- LZSS.ENC: the final flush's byte has been pushed. -/
  | lzssFlushed
  /-- LZSS.DEC: the literal `v` has been pushed. -/
  | lzssLitDone (v : Byte)
  /-- LZSS.DEC: byte `v` of copy step `k` has been pushed. -/
  | lzssCopied (k : Nat) (v : Byte)
  /-- EG.ENC: the loop's start. -/
  | egMain
  /-- EG.ENC: the answer to the pull of `GetBits(4)` is in `rv`; `left` bits still to read, `x` read so far. -/
  | egSym (left : Nat) (x : Nat)
  /-- EG.ENC: a byte of a code has been pushed; these bits are still to put; `last` for the terminal code. -/
  | egPut (bits : List Bool) (last : Bool)
  /-- EG.ENC: the final flush's byte has been pushed. -/
  | egFlushed
  /-- EG.DEC: a byte has been pushed; these bits of the symbol are still to put. -/
  | egOut (bits : List Bool)
  /-- EG.DEC: the final flush's byte has been pushed. -/
  | egOutFlushed
  /-- MTF.ENC: the answer to the pull is in `rv`. -/
  | mtfByte
  /-- MTF.ENC: the rank of `b` has been pushed. -/
  | mtfRanked (b : Byte)
  /-- MTF.DEC: `b` has been pushed. -/
  | mtfOut (b : Byte)
  /-- LZP.ENC: the answer to the pull is in `rv`. -/
  | lzpByte
  /-- LZP.ENC: the mask or a literal has been pushed; literal `t` is the next. -/
  | lzpLits (t : Nat)
  /-- LZP.DEC: the literal for bit `bi` is in `rv`. -/
  | lzpLiteral
  /-- LZP.DEC: byte `b` of bit `bi` has been pushed. -/
  | lzpOut (b : Byte)
deriving DecidableEq, Repr

/-- The control state (10_state R50). -/
inductive Seq where
  | idle
  | run (p : Point)
  | waitPull (p : Point)
  | waitPush (p : Point) (v : Byte)
deriving DecidableEq, Repr

/-- The working registers (10_state R40) and the pseudocode's own variables. A register that the spec gives no reset value
holds zero at reset (log 1). -/
structure Work where
  /-- Output accumulator (10_state R42). -/
  obits : Byte
  omask : Byte
  /-- Input accumulator (10_state R42). -/
  ibits : Byte
  imask : Byte
  /-- The last pull's result, none for End: the pseudocode's `rv`. -/
  rv : Option Byte
  /-- LZSS.ENC cursor, oldest dictionary start, end of buffered data. -/
  r : Nat
  s : Nat
  bufferend : Nat
  /-- LZSS.ENC match position, length and cap. -/
  mpos : Nat
  mlen : Nat
  f1 : Nat
  /-- LZSS.DEC write cursor, position and biased length. -/
  wr : Nat
  dpos : Nat
  dlen : Nat
  /-- RLE.ENC previous byte, none for NONE. -/
  prev : Option Byte
  /-- RLE.ENC literal count, run count, and the pseudocode's `full`. -/
  j : Nat
  k : Nat
  full : Bool
  /-- RLE.DEC command byte and repeat count. -/
  c : Byte
  n : Nat
  /-- EG.DEC unary count and gamma value. -/
  gcount : Nat
  gval : Nat
  /-- MTF rank. -/
  rank : Byte
  /-- LZP context hash, mask byte, literal count, block index. -/
  hash : Nat
  lmask : Byte
  nlit : Nat
  bi : Nat
  /-- The bits of the unit being read: the position inside `GetBits` and between two reads of one unit, which the
  pseudocode holds in its point (log 7). -/
  unit : List Bool
deriving DecidableEq, Repr

/-- The host-visible registers (10_state R30). -/
inductive Reg where
  | cmd
  | status
  | lzssCfg
  | rleCfg
  | lzpCfg
  | readCount
  | writeCount
  | caps
deriving DecidableEq, Repr

/-- The widths of a host access; only aligned words have a meaning (20_memory R90). -/
inductive AccessWidth where
  | byte
  | half
  | word
deriving DecidableEq, Repr

/-- The answers to a pull (20_memory R84). -/
inductive PullAnswer where
  | byte (v : Byte)
  | endOfInput
  | error
deriving DecidableEq, Repr

/-- The answers to a push (20_memory R85). -/
inductive PushAnswer where
  | ok
  | full
  | error
deriving DecidableEq, Repr

/-- What can happen next on the outside of the engine, and the places where the engine itself moves: one entry of the
interleaving of 20_memory R92. -/
inductive HostAction where
  /-- A register write (20_memory R90; 30_encoding R135 `wr`). -/
  | write (addr : Nat) (width : AccessWidth) (v : Word)
  /-- A register read (20_memory R90; 30_encoding R135 `rd`). -/
  | read (addr : Nat) (width : AccessWidth)
  /-- The host answers the input port. -/
  | answerPull (a : PullAnswer)
  /-- The host answers the output port. -/
  | answerPush (a : PushAnswer)
  /-- The adapter answers the outstanding request (20_memory R98). -/
  | adapterAnswers
  /-- The engine makes its next atomic step (40_stream_bitpacker R165). -/
  | engineSteps
  /-- 30_encoding R135 `wait`: read STATUS until DONE is 1. -/
  | waitDone
  /-- 30_encoding R135 `in <bytes>`: the adapter answers pulls from these bytes. -/
  | connectInput (bytes : List Byte)
  /-- 30_encoding R135 `out cap <C>`: the adapter answers pushes into an array of capacity `cap`. -/
  | connectOutput (cap : Nat)
  /-- 30_encoding R136 `roundtrip`, `in <the encoded bytes>`: the adapter answers pulls from what the transform before has put
  into the output array. -/
  | connectEncoded
  /-- 30_encoding R136 `roundtrip`: the host compares the output of the transform before with these bytes. -/
  | compareOutput (bytes : List Byte)
  /-- Hardware reset (70_reset R400, R402). -/
  | hardwareReset
deriving DecidableEq, Repr

/-- The two ports, for the record of a request that reset withdrew. -/
inductive PortKind where
  | pull
  | push
deriving DecidableEq, Repr

/-- The output array of the buffer-mode adapter (20_memory R98): its capacity, the bytes accepted so far, and the bytes
stored, by index. -/
structure OutArray where
  cap : Nat
  accepted : Nat
  cells : List Host.Cell
deriving DecidableEq, Repr

/-- The host's side. -/
structure HostSide where
  /-- What happens next, oldest first. -/
  script : List HostAction
  /-- The adapter's unread input, when it is connected. -/
  input : Option (List Byte)
  /-- The adapter's output array, when it is connected. -/
  output : Option OutArray
  /-- Every byte the output port has accepted, oldest first (20_memory R83). -/
  delivered : List Byte
  /-- The values the host has read, by offset, oldest first. -/
  reads : List (Nat × Word)
  /-- The requests that resets have withdrawn, the last one first, each until its late answer comes (70_reset R402). -/
  withdrawn : List PortKind
  /-- What the host's comparisons have found, oldest first (30_encoding R136 `roundtrip`). -/
  compared : List Bool
deriving DecidableEq, Repr

structure State where
  build : Build
  status : Status
  lzssCfg : Word
  rleCfg : Word
  lzpCfg : Word
  readCount : Word
  writeCount : Word
  seq : Seq
  params : Params
  opCodec : BitVec 3
  opDir : Bool
  eoi : Bool
  work : Work
  win : Ram
  lzpt : Ram
  mtft : Ram
  rleb : Ram
  litb : Ram
  /-- The model's own: the argument of the free value `Config.unspecifiedByte` (log 3). -/
  epoch : Nat
  host : HostSide
deriving DecidableEq, Repr

/-- Why the engine stops as no hardware rule does. -/
inductive Fault where
  /-- Raised by an engine step that forms an internal RAM address outside the part its operation uses (20_memory R81, I11:
  "no rule forms one"). Safe: a stop where the hardware goes on in no run. -/
  | ramAddress (space : Space)
deriving DecidableEq, Repr

/-- What the model does not accept. -/
inductive Refusal where
  /-- Raised by an arm of exec that has no meaning. Safe: a stop. -/
  | notModelled (mnemonic : String)
  /-- Raised by a wire unit outside the decode operation that reads it: no rule gives it an effect there. Safe: a stop. -/
  | unitOutsideItsDecoder
  /-- Raised by a host access that is not an aligned 32-bit word (20_memory R90, I5: refuse). Safe: a stop. -/
  | registerAccessShape
  /-- Raised by a port answer with no outstanding request, or of the wrong port's kind (I4: refuse). Safe: a stop. -/
  | answerWithoutRequest
deriving DecidableEq, Repr

/-- The default build. -/
def Build.default : Build := ⟨Config.defaultEiMax, Config.defaultHashOrderMax, Config.defaultRegBase⟩

/-- The parameters latched at reset: zero (log 1; 10_state R39: read only after they are latched). -/
def Params.zero : Params :=
  { ei := 0, ej := 0, p := 0, fill := 0, rl := 0, rover := 0, hashOrder := 0, blockLength := 0 }

/-- The working registers at reset: zero (log 1; 70_reset R400: unspecified). -/
def Work.zero : Work :=
  { obits := 0, omask := 0, ibits := 0, imask := 0, rv := none, r := 0, s := 0, bufferend := 0, mpos := 0, mlen := 0, f1 := 0,
    wr := 0, dpos := 0, dlen := 0, prev := none, j := 0, k := 0, full := false, c := 0, n := 0, gcount := 0, gval := 0,
    rank := 0, hash := 0, lmask := 0, nlit := 0, bi := 0, unit := [] }

/-- STATUS after reset: 0x0000_0000. -/
def Status.zero : Status := ⟨false, false, false, .ok, 0#3, false⟩

/-- The host's side before anything has happened: no action pending, no adapter, nothing delivered or read. -/
def HostSide.empty : HostSide := ⟨[], none, none, [], [], [], []⟩

/-- The machine right after hardware reset (70_reset R400) with the default build. -/
def State.reset : State :=
  { build := Build.default
    status := Status.zero
    lzssCfg := 0x0020024B#32
    rleCfg := 0x00000180#32
    lzpCfg := 0x00000810#32
    readCount := 0#32
    writeCount := 0#32
    seq := .idle
    params := Params.zero
    opCodec := 0#3
    opDir := false
    eoi := false
    work := Work.zero
    win := []
    lzpt := []
    mtft := []
    rleb := []
    litb := []
    epoch := 0
    host := HostSide.empty }

end Sys2Proof.Machine
end

