-- ==== Sys2Proof/Machine/Flags.lean ====
section
/-! DEFINITION. The flags: the STATUS register's bits (10_state R32, R38) and the word a host reads from it. The engine has
no arithmetic flags. -/

namespace Sys2Proof.Machine

/-- The numbers of the result codes (60_exceptions R370). -/
def Result.code : Result → BitVec 4
  | .ok => 0#4
  | .ioFailure => 1#4
  | .bufferTooSmall => 2#4
  | .invalidParameters => 3#4
  | .corruptStream => 4#4

/-- STATUS as a word: BUSY [0], DONE [1], EOI [2], RESULT [7:4], CODEC [10:8], DIR [11], the rest 0 (10_state R32). -/
def Status.toWord (st : Status) : Word :=
  BitVec.ofNat 32 (st.busy.toNat + 2 * st.done.toNat + 4 * st.eoi.toNat + 16 * st.result.code.toNat
    + 256 * st.codec.toNat + 2048 * st.dir.toNat)

/-- The flags at acceptance of the command word `w` (40_stream_bitpacker R160). -/
def Status.accepted (w : Word) : Status := ⟨true, false, false, .ok, commandCodec w, commandDir w⟩

/-- The flags at an operation's end with result `res` (60_exceptions R373, R374): EOI, CODEC and DIR keep their values. -/
def Status.ended (res : Result) (st : Status) : Status :=
  { st with result := res, done := true, busy := false }

/-- The flags when the input port answers End (20_memory R86). -/
def Status.sawEnd (st : Status) : Status := { st with eoi := true }

end Sys2Proof.Machine
end

