-- ==== Sys2Proof/Machine/Operands.lean ====
section
/-! DEFINITION. The operands of a command: the configuration registers' fields (10_state R33 to R35), the checks on them
(40_stream_bitpacker R162, R163) and the copy the operation keeps (10_state R41). -/

namespace Sys2Proof.Machine

/-- EI, bits [3:0] of LZSS_CFG. -/
def lzssEi (w : Word) : Nat := (w.extractLsb' 0 4).toNat

/-- EJ, bits [7:4] of LZSS_CFG. -/
def lzssEj (w : Word) : Nat := (w.extractLsb' 4 4).toNat

/-- P, bits [15:8] of LZSS_CFG. -/
def lzssP (w : Word) : Nat := (w.extractLsb' 8 8).toNat

/-- FILL, bits [23:16] of LZSS_CFG. -/
def lzssFill (w : Word) : Byte := w.extractLsb' 16 8

/-- RL, bits [7:0] of RLE_CFG. -/
def rleRl (w : Word) : Nat := (w.extractLsb' 0 8).toNat

/-- ROVER, bits [15:8] of RLE_CFG. -/
def rleRover (w : Word) : Nat := (w.extractLsb' 8 8).toNat

/-- HASH_ORDER, bits [4:0] of LZP_CFG. -/
def lzpHashOrder (w : Word) : Nat := (w.extractLsb' 0 5).toNat

/-- BLOCK_LENGTH, bits [11:8] of LZP_CFG. -/
def lzpBlockLength (w : Word) : Nat := (w.extractLsb' 8 4).toNat

/-- The bits of LZSS_CFG that store: [23:0] (10_state R33). -/
def lzssCfgMask : Word := 0x00FFFFFF#32

/-- The bits of RLE_CFG that store: [15:0] (10_state R34). -/
def rleCfgMask : Word := 0x0000FFFF#32

/-- The bits of LZP_CFG that store: [4:0] and [11:8] (10_state R35). -/
def lzpCfgMask : Word := 0x00000F1F#32

/-- N = 2^EI (00_scope R6). -/
def Params.windowSize (q : Params) : Nat := 2 ^ q.ei

/-- F = 2^EJ + (P - 1) (00_scope R6). -/
def Params.lookahead (q : Params) : Nat := 2 ^ q.ej + (q.p - 1)

/-- The parameters that shape the wire formats of a running operation. -/
def Params.wire (q : Params) : Wire := ⟨q.ei, q.ej, q.rl⟩

/-- Legal(c) of 40_stream_bitpacker R162, read from the configuration registers. -/
def legal (c : Codec) (s : State) : Bool :=
  match c with
  | .rle => 2 ≤ rleRl s.rleCfg && rleRl s.rleCfg ≤ 128
  | .lzss =>
    6 ≤ lzssEi s.lzssCfg && lzssEi s.lzssCfg ≤ 15 && 1 ≤ lzssEj s.lzssCfg && lzssEj s.lzssCfg ≤ lzssEi s.lzssCfg
      && lzssEi s.lzssCfg + lzssEj s.lzssCfg ≤ 16 && 2 ≤ lzssP s.lzssCfg
      && 2 ^ lzssEj s.lzssCfg + lzssP s.lzssCfg - 1 ≤ 2 ^ lzssEi s.lzssCfg
  | .eliasGamma => true
  | .mtf => true
  | .lzp => lzpHashOrder s.lzpCfg ≤ 16 && 1 ≤ lzpBlockLength s.lzpCfg && lzpBlockLength s.lzpCfg ≤ 8

/-- Fits(c) of 40_stream_bitpacker R163. -/
def fits (c : Codec) (s : State) : Bool :=
  match c with
  | .lzss => lzssEi s.lzssCfg ≤ s.build.eiMax
  | .lzp => lzpHashOrder s.lzpCfg ≤ s.build.hashOrderMax
  | .rle => true
  | .eliasGamma => true
  | .mtf => true

/-- The copy taken at acceptance of the fields the CODEC uses (10_state R41); the others keep what they held. -/
def latch (c : Codec) (s : State) : State :=
  match c with
  | .lzss =>
    { s with params := { s.params with ei := lzssEi s.lzssCfg, ej := lzssEj s.lzssCfg, p := lzssP s.lzssCfg, fill := lzssFill s.lzssCfg } }
  | .rle => { s with params := { s.params with rl := rleRl s.rleCfg, rover := rleRover s.rleCfg } }
  | .lzp =>
    { s with params := { s.params with hashOrder := lzpHashOrder s.lzpCfg, blockLength := lzpBlockLength s.lzpCfg } }
  | .eliasGamma => s
  | .mtf => s

end Sys2Proof.Machine
end

