-- ==== Sys2Proof/Machine/Ops.lean ====
section
/-! DEFINITION. The named operations over RAMs, registers and ports: RAM reads and writes (00_scope R8, 20_memory R81), the
two ports (20_memory R84 to R88), acceptance (40_stream_bitpacker R160, R161), the end of an operation (60_exceptions R373,
R374), register access (20_memory R90), the adapter (R98) and hardware reset (70_reset R400, R402). -/

namespace Sys2Proof.Machine

/-- An engine or host step's outcome. -/
abbrev Out := Host.Outcome State Fault Refusal

/-- Go on from a next state; a fault or refusal stands. -/
def Out.andThen (o : Out) (k : State → Out) : Out :=
  match o with
  | .next s => k s
  | .fault r => .fault r
  | .refused r => .refused r

/-! ## Internal RAMs -/

/-- The byte listed at an address. -/
def Ram.find (a : Nat) : Ram → Option Byte
  | [] => none
  | (x, v) :: m => if x = a then some v else Ram.find a m

/-- List `v` at `a`, keeping the addresses rising. -/
def Ram.insert (a : Nat) (v : Byte) : Ram → Ram
  | [] => [(a, v)]
  | (x, w) :: m =>
    if a < x then (a, v) :: (x, w) :: m
    else if a = x then (a, v) :: m
    else (x, w) :: Ram.insert a v m

/-- Unlist `a`. -/
def Ram.erase (a : Nat) : Ram → Ram
  | [] => []
  | (x, w) :: m => if x = a then m else (x, w) :: Ram.erase a m

/-- What an address that is not listed reads as. LZPT: zero, the value each LZP operation clears it to (45_lzp R340).
MTFT: the address itself, the identity each MTF operation sets (44_mtf R320). The others: no value; a read of one gives the
free value (10_state R44: unspecified; log 3, 4). -/
def unlisted (sp : Space) (a : Nat) : Option Byte :=
  match sp with
  | .win => none
  | .lzpt => some 0#8
  | .mtft => some (BitVec.ofNat 8 a)
  | .rleb => none
  | .litb => none

/-- The canonical form: addresses strictly rising, no entry equal to what an unlisted address reads as. -/
abbrev Ram.wf (sp : Space) (m : Ram) : Prop :=
  List.Pairwise (fun x y : Host.Cell => x.1 < y.1) m ∧ ∀ c ∈ m, unlisted sp c.1 ≠ some c.2

/-- A one-byte write that keeps the canonical form. -/
def Ram.store (sp : Space) (a : Nat) (v : Byte) (m : Ram) : Ram :=
  if unlisted sp a = some v then Ram.erase a m else Ram.insert a v m

/-- `count` cells from `a` on, all `v`. -/
def Ram.filled (v : Byte) : Nat → Nat → Ram
  | 0, _ => []
  | count + 1, a => (a, v) :: Ram.filled v count (a + 1)

/-- The slide of 41_lzss R204: `[n, 2n)` moved down by `n`; what stood at `n` and above stays, as the copy leaves it. -/
def Ram.slide (n : Nat) (m : Ram) : Ram :=
  (m.filter fun c => n ≤ c.1 && c.1 < 2 * n).map (fun c => (c.1 - n, c.2)) ++ m.filter fun c => n ≤ c.1

/-- The number of a RAM, for the free value. -/
def Space.number : Space → Nat
  | .win => 0
  | .lzpt => 1
  | .mtft => 2
  | .rleb => 3
  | .litb => 4

/-- The contents of a RAM. -/
def State.ram (s : State) : Space → Ram
  | .win => s.win
  | .lzpt => s.lzpt
  | .mtft => s.mtft
  | .rleb => s.rleb
  | .litb => s.litb

/-- The byte at an address of a RAM; the free value where nothing gives one. -/
def State.peek (s : State) (sp : Space) (a : Nat) : Byte :=
  match Ram.find a (s.ram sp) with
  | some v => v
  | none =>
    match unlisted sp a with
    | some v => v
    | none => Config.unspecifiedByte sp.number s.epoch a

/-- Write one byte of a RAM. -/
def State.poke (s : State) (sp : Space) (a : Nat) (v : Byte) : State :=
  match sp with
  | .win => { s with win := Ram.store .win a v s.win }
  | .lzpt => { s with lzpt := Ram.store .lzpt a v s.lzpt }
  | .mtft => { s with mtft := Ram.store .mtft a v s.mtft }
  | .rleb => { s with rleb := Ram.store .rleb a v s.rleb }
  | .litb => { s with litb := Ram.store .litb a v s.litb }

/-- The size of a RAM in bytes (10_state R44). -/
def ramSize (b : Build) (sp : Space) : Nat :=
  match sp with
  | .win => 2 * 2 ^ b.eiMax
  | .lzpt => 2 ^ b.hashOrderMax
  | .mtft => 256
  | .rleb => 128
  | .litb => 8

/-- The part of a RAM that an operation uses, as the number of its bytes (20_memory R81). -/
def usedPart (op : Op) (q : Params) (sp : Space) : Nat :=
  match op, sp with
  | .lzssEnc, .win => 2 * q.windowSize
  | .lzssDec, .win => q.windowSize
  | .lzpEnc, .lzpt => 2 ^ q.hashOrder
  | .lzpDec, .lzpt => 2 ^ q.hashOrder
  | .lzpEnc, .litb => q.blockLength
  | .mtfEnc, .mtft => 256
  | .mtfDec, .mtft => 256
  | .rleEnc, .rleb => q.rl - 1
  | _, _ => 0

/-- `MemRead(space, addr, 1)` (00_scope R8): the byte goes to `k`; an address outside the used part is a fault (I11). -/
def memRead (op : Op) (sp : Space) (a : Nat) (s : State) (k : Byte → Out) : Out :=
  if a < usedPart op s.params sp then k (s.peek sp a) else .fault (.ramAddress sp)

/-- `MemWrite(space, addr, 1, v)` (00_scope R8); an address outside the used part is a fault (I11). -/
def memWrite (op : Op) (sp : Space) (a : Nat) (v : Byte) (s : State) (k : State → Out) : Out :=
  if a < usedPart op s.params sp then k (s.poke sp a v) else .fault (.ramAddress sp)

/-! ## The control state and the ports -/

/-- Go on at a point (00_scope R8 `state <- S`). -/
def State.goto (p : Point) (s : State) : State := { s with seq := .run p }

/-- `Pull()` (20_memory R84, R88): a request, unless End has been answered, when it returns End at once. -/
def State.pull (p : Point) (s : State) : State :=
  if s.eoi then { s with work := { s.work with rv := none }, seq := .run p } else { s with seq := .waitPull p }

/-- `Push(v)` (20_memory R85). -/
def State.push (p : Point) (v : Byte) (s : State) : State := { s with seq := .waitPush p v }

/-! ## The end of an operation -/

/-- ENDING AN OPERATION with a result, in one step (60_exceptions R373, R374): RESULT, DONE and BUSY are written and the
engine is idle; the counters, EOI, RAMs and working registers keep their values. -/
def State.endWith (res : Result) (s : State) : State :=
  { s with status := s.status.ended res, seq := .idle }

/-- `finish` (60_exceptions R373). -/
def State.finish (s : State) : State := s.endWith .ok

/-- TAKING AN ERROR: `raise E` (60_exceptions R374). There is no handler and no return from it (R376). -/
def State.raise (e : Result) (s : State) : State := s.endWith e

/-! ## Port answers -/

/-- The effect of a pull answer at the waiting point `p` (20_memory R86). -/
def State.pullAnswered (p : Point) (a : PullAnswer) (s : State) : State :=
  match a with
  | .byte v => { s with readCount := s.readCount + 1#32, work := { s.work with rv := some v }, seq := .run p }
  | .endOfInput => { s with eoi := true, status := s.status.sawEnd, work := { s.work with rv := none }, seq := .run p }
  | .error => s.raise .ioFailure

/-- The effect of a push answer for the byte `v` at the waiting point `p` (20_memory R87). -/
def State.pushAnswered (p : Point) (v : Byte) (a : PushAnswer) (s : State) : State :=
  match a with
  | .ok =>
    { s with
      writeCount := s.writeCount + 1#32
      host := { s.host with delivered := s.host.delivered ++ [v] }
      seq := .run p }
  | .full => s.raise .bufferTooSmall
  | .error => s.raise .ioFailure

/-! ## Acceptance of a command -/

/-- The writes of 40_stream_bitpacker R160, before the checks. -/
def State.accept (w : Word) (s : State) : State :=
  { s with
    status := Status.accepted w
    readCount := 0#32
    writeCount := 0#32
    opCodec := commandCodec w
    opDir := commandDir w
    eoi := false
    work := { s.work with obits := 0x00#8, omask := 0x80#8, ibits := 0x00#8, imask := 0x00#8 } }

/-- A CMD write of one of the ten commands: ignored while BUSY (70_reset R410); else accepted (R160), checked in the order
of 40_stream_bitpacker R161, latched, and started with the operation's own first step `start` (R164). -/
def runCommand (w : Word) (c : Codec) (start : State → Out) (s : State) : Out :=
  if s.status.busy then .next s
  else if !legal c s then .next ((s.accept w).raise .invalidParameters)
  else if !fits c s then .next ((s.accept w).raise .bufferTooSmall)
  else start (latch c (s.accept w))

/-- A CMD write of a reserved word (30_encoding R122; 40_stream_bitpacker R161 check 1): accepted, and ended at once. -/
def refuseCommand (w : Word) (s : State) : Out :=
  if s.status.busy then .next s else .next ((s.accept w).raise .invalidParameters)

/-! ## Register access -/

/-- CAPS (10_state R37). -/
def Build.caps (b : Build) : Word := BitVec.ofNat 32 (b.eiMax % 16 + 256 * (b.hashOrderMax % 32))

/-- The register at an offset of the window (10_state R30). -/
def regAt : Nat → Option Reg
  | 0x00 => some .cmd
  | 0x04 => some .status
  | 0x08 => some .lzssCfg
  | 0x0C => some .rleCfg
  | 0x10 => some .lzpCfg
  | 0x14 => some .readCount
  | 0x18 => some .writeCount
  | 0x1C => some .caps
  | _ => none

/-- The offset of a register (10_state R30). -/
def Reg.offset : Reg → Nat
  | .cmd => 0x00
  | .status => 0x04
  | .lzssCfg => 0x08
  | .rleCfg => 0x0C
  | .lzpCfg => 0x10
  | .readCount => 0x14
  | .writeCount => 0x18
  | .caps => 0x1C

/-- The value a host read gives (10_state R30 to R37); reading has no side effect (20_memory R90). -/
def State.readReg (s : State) : Reg → Word
  | .cmd => 0#32
  | .status => s.status.toWord
  | .lzssCfg => s.lzssCfg
  | .rleCfg => s.rleCfg
  | .lzpCfg => s.lzpCfg
  | .readCount => s.readCount
  | .writeCount => s.writeCount
  | .caps => s.build.caps

/-- The effect of a host write to a register other than CMD: the stored bits of a configuration register, nothing for a
read-only one (10_state R32 to R37). -/
def State.writeReg (s : State) (r : Reg) (v : Word) : State :=
  match r with
  | .lzssCfg => { s with lzssCfg := v &&& lzssCfgMask }
  | .rleCfg => { s with rleCfg := v &&& rleCfgMask }
  | .lzpCfg => { s with lzpCfg := v &&& lzpCfgMask }
  | .cmd => s
  | .status => s
  | .readCount => s
  | .writeCount => s
  | .caps => s

/-- The offset of a host address inside the register window, if it lies there (20_memory R97). -/
def Build.offset (b : Build) (addr : Nat) : Option Nat :=
  if b.regBase ≤ addr ∧ addr < b.regBase + 32 then some (addr - b.regBase) else none

/-! ## The host's side -/

/-- The script without its first action. -/
def State.popped (s : State) : State := { s with host := { s.host with script := s.host.script.tail } }

/-- The adapter's answer to a pull: the next input byte, or End after the last (20_memory R98). -/
def adapterPull (bytes : List Byte) (p : Point) (s : State) : State :=
  match bytes with
  | [] => s.pullAnswered p .endOfInput
  | b :: rest => ({ s with host := { s.host with input := some rest } }).pullAnswered p (.byte b)

/-- The adapter's answer to a push: stored at `out[WRITE_COUNT]` while fewer than C bytes have been accepted, else Full
(20_memory R98). -/
def adapterPush (out : OutArray) (p : Point) (v : Byte) (s : State) : State :=
  if out.accepted < out.cap then
    ({ s with host := { s.host with
        output := some { out with accepted := out.accepted + 1, cells := Ram.insert s.writeCount.toNat v out.cells } } }).pushAnswered p v .ok
  else s.pushAnswered p v .full

/-- The adapter answers the outstanding request, if it is connected to that port; otherwise nothing happens (log 26). -/
def adapterStep (s : State) : State :=
  match s.seq with
  | .waitPull p =>
    match s.host.input with
    | some bytes => adapterPull bytes p s
    | none => s
  | .waitPush p v =>
    match s.host.output with
    | some out => adapterPush out p v s
    | none => s
  | .idle => s
  | .run _ => s

/-- The withdrawn requests after a reset (70_reset R402): the outstanding one, and those withdrawn before and not yet
answered. -/
def State.withdraws (s : State) : List PortKind :=
  match s.seq with
  | .waitPull _ => .pull :: s.host.withdrawn
  | .waitPush _ _ => .push :: s.host.withdrawn
  | .idle => s.host.withdrawn
  | .run _ => s.host.withdrawn

/-- Hardware reset (70_reset R400, R402): every register at its reset value; the build and the host's side stay, and the RAM
contents are unspecified afresh (log 3). -/
def State.hardwareReset (s : State) : State :=
  { State.reset with
    build := s.build
    epoch := s.epoch + 1
    host := { s.host with withdrawn := s.withdraws } }

/-- Resets have withdrawn a request of this port whose late answer may still come (70_reset R402). -/
def State.awaitsLate (k : PortKind) (s : State) : Bool := decide (k ∈ s.host.withdrawn)

/-- An answer to a port that has no outstanding request: it is ignored when it is the late answer to a request of that port
that a reset withdrew (70_reset R402); otherwise it is refused (I4: "refuse"). -/
def unrequestedAnswer (k : PortKind) (s : State) : Out :=
  if s.awaitsLate k then .next { s with host := { s.host with withdrawn := s.host.withdrawn.erase k } }
  else .refused .answerWithoutRequest

/-- A host's answer to the input port (20_memory R86). DESIGN CHOICE (log 26): a connected adapter does not see it, and its input
stays unread. -/
def hostAnswersPull (a : PullAnswer) (s : State) : Out :=
  match s.seq with
  | .waitPull p => .next (s.pullAnswered p a)
  | .waitPush _ _ => unrequestedAnswer .pull s
  | .idle => unrequestedAnswer .pull s
  | .run _ => unrequestedAnswer .pull s

/-- A host's answer to the output port (20_memory R87). DESIGN CHOICE (log 26): a connected adapter does not see it, and neither
its count of accepted bytes nor its array changes. -/
def hostAnswersPush (a : PushAnswer) (s : State) : Out :=
  match s.seq with
  | .waitPush p v => .next (s.pushAnswered p v a)
  | .waitPull _ => unrequestedAnswer .push s
  | .idle => unrequestedAnswer .push s
  | .run _ => unrequestedAnswer .push s

/-- A host read: the value is kept in the host's record; an access that is not an aligned word is refused (I5), and one
outside the window is not this block's (20_memory R97). -/
def hostReads (addr : Nat) (width : AccessWidth) (s : State) : Out :=
  match s.build.offset addr with
  | none => .next s
  | some off =>
    match width, regAt off with
    | .word, some r => .next { s with host := { s.host with reads := s.host.reads ++ [(off, s.readReg r)] } }
    | _, _ => .refused .registerAccessShape

end Sys2Proof.Machine
end

