-- ==== Sys2Proof/Machine/BitPacker.lean ====
section
/-! DEFINITION. The bit packer (40_stream_bitpacker R180 to R186): PutBit, PutBits and Flush on the output side, GetBit and
GetBits on the input side. A sequence of PutBit and PutBits calls is given as the list of its bits. -/

namespace Sys2Proof.Machine

/-- How a run of PutBit calls leaves the accumulator: `obits`, `omask`, and, when a byte is full and must be pushed, the bits
still to put after that push. -/
structure Packed where
  obits : Byte
  omask : Byte
  pending : Option (List Bool)
deriving DecidableEq, Repr

/-- PutBit for each bit in turn, up to the first push (40_stream_bitpacker R180). At the push `obits` is the full byte and
`omask` is 0. -/
def packBits : List Bool → Byte → Byte → Packed
  | [], obits, omask => ⟨obits, omask, none⟩
  | b :: rest, obits, omask =>
    let obits' := if b then obits ||| omask else obits
    let omask' := omask >>> 1
    if omask' = 0#8 then ⟨obits', omask', some rest⟩ else packBits rest obits' omask'

/-- Put `bits`; a full byte is pushed at the point `onPush` of the bits still to put, and when all are put the operation goes
on with `onDone`. -/
def putBits (bits : List Bool) (onPush : List Bool → Point) (onDone : State → Out) (s : State) : Out :=
  let r := packBits bits s.work.obits s.work.omask
  let s' := { s with work := { s.work with obits := r.obits, omask := r.omask } }
  match r.pending with
  | some rest => .next (s'.push (onPush rest) r.obits)
  | none => onDone s'

/-- The reset of the output accumulator after its byte has been accepted (40_stream_bitpacker R180, R182). -/
def State.emptyOut (s : State) : State :=
  { s with work := { s.work with obits := 0x00#8, omask := 0x80#8 } }

/-- `Flush()` at the end of an operation (40_stream_bitpacker R182): the partial byte is pushed at `onPush`; with nothing held
the operation finishes. -/
def flushThenFinish (onPush : Point) (s : State) : Out :=
  if s.work.omask ≠ 0x80#8 then .next (s.push onPush s.work.obits) else .next s.finish

/-- After the flushed byte has been accepted: the accumulator is emptied and the operation finishes. -/
def flushed (s : State) : Out := .next s.emptyOut.finish

/-- The refill of the input accumulator by a pulled byte (40_stream_bitpacker R183). -/
def State.refill (v : Byte) (s : State) : State :=
  { s with work := { s.work with ibits := v, imask := 0x80#8 } }

/-- The bit GetBit returns when the accumulator is not exhausted (40_stream_bitpacker R183). -/
def State.nextBit (s : State) : Bool := (s.work.ibits &&& s.work.imask) ≠ 0#8

/-- The accumulator after that bit. -/
def State.dropBit (s : State) : State := { s with work := { s.work with imask := s.work.imask >>> 1 } }

/-- `GetBits` with `n` bits still to read and the value `x` read so far (40_stream_bitpacker R184): an exhausted accumulator
asks for a byte at the point `onPull` of that place; the value goes to `onDone`. -/
def getBits (onPull : Nat → Nat → Point) (onDone : Nat → State → Out) : Nat → Nat → State → Out
  | 0, x, s => onDone x s
  | n + 1, x, s =>
    if s.work.imask = 0#8 then .next (s.pull (onPull (n + 1) x))
    else getBits onPull onDone n (2 * x + s.nextBit.toNat) s.dropBit

end Sys2Proof.Machine
end

