-- ==== Sys2Proof/Machine/Rle.lean ====
section
/-! DEFINITION. RLE encode and decode (42_rle): the commands `rle.enc` and `rle.dec`, the wire units `rle.literal_block` and
`rle.run_block`, and the operations' steps at each point. -/

namespace Sys2Proof.Machine

/-! ## Wire units and their decoder's fetch -/

/-- The working registers at the start of a unit: nothing of it has been read, and EG.DEC's unary count is 0
(43_elias_gamma R300: `gcount <- 0` before a code's first bit). -/
def Work.newUnit (d : Decoder) (w : Work) : Work :=
  { w with
    unit := []
    gcount := match d with
      | .eg => 0
      | .lzss => w.gcount
      | .rle => w.gcount
      | .mtf => w.gcount
      | .lzp => w.gcount }

/-- A decoder's next unit starts. -/
def State.nextUnit (d : Decoder) (s : State) : State :=
  { s with work := s.work.newUnit d, seq := .run (.fetch d) }

/-- A decoder asks for its first bits (40_stream_bitpacker R164: the operation's first step). -/
def State.firstPull (d : Decoder) (s : State) : State :=
  { s with work := s.work.newUnit d }.pull (.fetched d)

/-- A wire unit has an effect only where its decoder has just read it. -/
def onUnit (d : Decoder) (s : State) (k : Out) : Out :=
  if s.seq = .run (.unit d) then k else .refused .unitOutsideItsDecoder

/-! ## RLE.ENC -/

/-- The byte of literal block command `RL + j` (42_rle R252). -/
def rleLitCommand (s : State) : Byte := BitVec.ofNat 8 (s.params.rl + s.work.j)

/-- The run block command byte `k - 1 - ROVER` (42_rle R254). -/
def rleRunCommand (s : State) : Byte := BitVec.ofNat 8 (s.work.k - 1 - s.params.rover)

/-- `Append(b)` up to its test (42_rle R252): store at `RLEB[j]`, count. -/
def rleStore (b : Byte) (s : State) (k : State → Out) : Out :=
  memWrite .rleEnc .rleb s.work.j b s fun s => k { s with work := { s.work with j := s.work.j + 1 } }

/-- After the run's bytes are out or appended: a full count reads a fresh byte, otherwise the byte that ended the run, still
in `rv`, meets the loop test (42_rle R254, R255). -/
def rleAfterRun (s : State) : Out :=
  if s.work.full then .next (s.pull .rleTop) else .next (s.goto .rleTop)

/-- `repeat left times : Append(prev)` (42_rle R254); a buffer that becomes full is flushed on the way. -/
def rleRepeat (b : Byte) : Nat → State → Out
  | 0, s => rleAfterRun s
  | left + 1, s =>
    rleStore b s fun s =>
      if s.work.j = s.params.rl - 1 then .next (s.push (.rleLits 0 (.afterRepeat left)) (rleLitCommand s))
      else rleRepeat b left s

/-- The byte of the current run; `prev` holds one whenever a run is counted. -/
def rlePrevByte (s : State) : Byte := s.work.prev.getD 0#8

/-- Where a `FlushLit()` goes on (42_rle R251). -/
def rleReturn (ret : FlushReturn) (s : State) : Out :=
  match ret with
  | .afterAppend => .next (s.pull .rleTop)
  | .afterRepeat left => rleRepeat (rlePrevByte s) left s
  | .toRun => .next (s.push .rleRunCmd (rleRunCommand s))
  | .atEnd => .next s.finish

/-- `FlushLit()` (42_rle R252): nothing when the buffer is empty. -/
def rleFlush (ret : FlushReturn) (s : State) : Out :=
  if 0 < s.work.j then .next (s.push (.rleLits 0 ret) (rleLitCommand s)) else rleReturn ret s

/-- Inside `FlushLit()`, with literal `t` next (42_rle R252): after the last, `j <- 0`. -/
def rleLitsStep (t : Nat) (ret : FlushReturn) (s : State) : Out :=
  if t < s.work.j then memRead .rleEnc .rleb t s fun v => .next (s.push (.rleLits (t + 1) ret) v)
  else rleReturn ret { s with work := { s.work with j := 0 } }

/-- The end of a run count (42_rle R254): a run block when `k > ROVER`, else the bytes become literals. -/
def rleEmitRun (s : State) : Out :=
  if s.params.rover < s.work.k then rleFlush .toRun s else rleRepeat (rlePrevByte s) s.work.k s

/-- The head of the counting loop (42_rle R254): full at RL + ROVER, otherwise the next byte is pulled. -/
def rleCountHead (s : State) : Out :=
  if s.work.k = s.params.rl + s.params.rover then rleEmitRun { s with work := { s.work with full := true } }
  else .next (s.pull .rleCount)

/-- The answer to the counting loop's pull (42_rle R254): the same byte counts, anything else ends the run. -/
def rleCountStep (s : State) : Out :=
  match s.work.rv with
  | none => rleEmitRun s
  | some b =>
    if s.work.prev = some b then rleCountHead { s with work := { s.work with k := s.work.k + 1 } }
    else rleEmitRun s

/-- The loop test and its two branches (42_rle R251, R253, R256). -/
def rleTopStep (s : State) : Out :=
  match s.work.rv with
  | none => rleFlush .atEnd s
  | some b =>
    if s.work.prev ≠ some b then
      rleStore b { s with work := { s.work with prev := some b } } fun s =>
        if s.work.j = s.params.rl - 1 then .next (s.push (.rleLits 0 .afterAppend) (rleLitCommand s))
        else .next (s.pull .rleTop)
    else rleCountHead { s with work := { s.work with k := 1, full := false } }

/-- After the run command byte: the run's byte (42_rle R254). -/
def rleRunCmdStep (s : State) : Out := .next (s.push .rleRunByte (rlePrevByte s))

/-- The first step of RLE.ENC (42_rle R250). -/
def rleEncStart (s : State) : Out :=
  .next ({ s with work := { s.work with j := 0, prev := none } }.pull .rleTop)

/-- `rle.enc` (42_rle R251). -/
def execRleEnc (s : State) : Out := runCommand 0x0#32 .rle rleEncStart s

/-! ## RLE.DEC -/

/-- The first step of RLE.DEC: the pull of a command byte (42_rle R260). -/
def rleDecStart (s : State) : Out := .next (s.firstPull .rle)

/-- `rle.dec` (42_rle R260). -/
def execRleDec (s : State) : Out := runCommand 0x8#32 .rle rleDecStart s

/-- The head of a literal block's loop, `left` bytes still to copy (42_rle R261). -/
def rleLitHead (left : Nat) (s : State) : State :=
  if left = 0 then s.nextUnit .rle else s.pull (.rleLitByte left)

/-- `rle.literal_block` (42_rle R261): `c - RL` bytes are copied, each pushed as soon as it is pulled. -/
def execRleLiteralBlock (c : Byte) (s : State) : Out :=
  onUnit .rle s (.next (rleLitHead (c.toNat - s.params.rl) { s with work := { s.work with c := c } }))

/-- A literal block's payload byte (42_rle R261, R263): End here is a truncated stream. -/
def rleLitByteStep (left : Nat) (s : State) : Out :=
  match s.work.rv with
  | none => .next (s.raise .corruptStream)
  | some v => .next (s.push (.rleLitDone (left - 1)) v)

/-- The head of a run block's loop, `left` copies of `v` still to push (42_rle R262). -/
def rleRunHead (left : Nat) (v : Byte) (s : State) : State :=
  if left = 0 then s.nextUnit .rle else s.push (.rleRunDone (left - 1) v) v

/-- `rle.run_block` (42_rle R262): `c + 1 + ROVER` copies of the byte. -/
def execRleRunBlock (c : Byte) (b : Byte) (s : State) : Out :=
  onUnit .rle s
    (.next (rleRunHead (c.toNat + 1 + s.params.rover) b
      { s with work := { s.work with c := c, n := c.toNat + 1 + s.params.rover } }))

end Sys2Proof.Machine
end

