-- ==== Sys2Proof/Machine/EliasGamma.lean ====
section
/-! DEFINITION. Elias-Gamma encode and decode (43_elias_gamma): the commands `eg.enc` and `eg.dec`, the nineteen codes and
invalid codes as wire units, and the operations' steps at each point. -/

namespace Sys2Proof.Machine

/-- TERM (43_elias_gamma R290). -/
def gammaTerminal : Nat := 17

/-! ## EG.ENC -/

/-- Put the bits of a code; after the terminal's, flush and finish (43_elias_gamma R293, R294). -/
def egPutStep (bits : List Bool) (last : Bool) (s : State) : Out :=
  putBits bits (fun rest => .egPut rest last)
    (fun s => if last then flushThenFinish .egFlushed s else .next (s.goto .egMain)) s

/-- `sym <- GetBits(4)` from the place where it stands, and the code of the symbol (43_elias_gamma R291 to R293). -/
def egRead (left x : Nat) (s : State) : Out :=
  getBits Point.egSym (fun sym s => egPutStep (gammaBits (sym + 1)) false s) left x s

/-- The answer to the pull of `GetBits(4)`: a byte refills the accumulator, End brings the terminal code (43_elias_gamma
R292, R294). -/
def egSymStep (left x : Nat) (s : State) : Out :=
  match s.work.rv with
  | none => egPutStep (gammaBits gammaTerminal) true s
  | some v => egRead left x (s.refill v)

/-- The first step of EG.ENC (43_elias_gamma R290, R291). -/
def egEncStart (s : State) : Out := egRead 4 0 s

/-- `eg.enc` (43_elias_gamma R291). -/
def execEgEnc (s : State) : Out := runCommand 0x2#32 .eliasGamma egEncStart s

/-! ## EG.DEC -/

/-- The first step of EG.DEC (43_elias_gamma R290, R300). -/
def egDecStart (s : State) : Out := .next (s.firstPull .eg)

/-- `eg.dec` (43_elias_gamma R300). -/
def execEgDec (s : State) : Out := runCommand 0xA#32 .eliasGamma egDecStart s

/-- The registers of the code read: unary count and gamma value (43_elias_gamma R301). -/
def State.codeRead (v : Nat) (s : State) : State :=
  { s with work := { s.work with gcount := v.log2, gval := v } }

/-- Put bits of a symbol, then read the next code (43_elias_gamma R304). -/
def egOutStep (bits : List Bool) (s : State) : Out :=
  putBits bits Point.egOut (fun s => .next (s.nextUnit .eg)) s

/-- A symbol code: `PutBits(gval - 1, 4)` (43_elias_gamma R304). -/
def egSymbol (sym : Nat) (s : State) : Out :=
  onUnit .eg s (egOutStep (bitsOf 4 sym) (s.codeRead (sym + 1)))

def execEgSymbol0 (s : State) : Out := egSymbol 0 s
def execEgSymbol1 (s : State) : Out := egSymbol 1 s
def execEgSymbol2 (s : State) : Out := egSymbol 2 s
def execEgSymbol3 (s : State) : Out := egSymbol 3 s
def execEgSymbol4 (s : State) : Out := egSymbol 4 s
def execEgSymbol5 (s : State) : Out := egSymbol 5 s
def execEgSymbol6 (s : State) : Out := egSymbol 6 s
def execEgSymbol7 (s : State) : Out := egSymbol 7 s
def execEgSymbol8 (s : State) : Out := egSymbol 8 s
def execEgSymbol9 (s : State) : Out := egSymbol 9 s
def execEgSymbol10 (s : State) : Out := egSymbol 10 s
def execEgSymbol11 (s : State) : Out := egSymbol 11 s
def execEgSymbol12 (s : State) : Out := egSymbol 12 s
def execEgSymbol13 (s : State) : Out := egSymbol 13 s
def execEgSymbol14 (s : State) : Out := egSymbol 14 s
def execEgSymbol15 (s : State) : Out := egSymbol 15 s

/-- `eg.terminal` (43_elias_gamma R302): flush and finish; nothing more is read. -/
def execEgTerminal (s : State) : Out :=
  onUnit .eg s (flushThenFinish .egOutFlushed (s.codeRead gammaTerminal))

/-- `eg.invalid_value` (43_elias_gamma R303 (b)): gamma values 18 to 31. -/
def execEgInvalidValue (suffix : BitVec 4) (s : State) : Out :=
  onUnit .eg s (.next ((s.codeRead (16 + suffix.toNat)).raise .corruptStream))

/-- `eg.invalid_prefix` (43_elias_gamma R303 (a)): the fifth one bit. -/
def execEgInvalidPrefix (s : State) : Out :=
  onUnit .eg s (.next ({ s with work := { s.work with gcount := 5 } }.raise .corruptStream))

end Sys2Proof.Machine
end

