-- ==== Sys2Proof/Machine/Lzp.lean ====
section
/-! DEFINITION. LZP encode and decode (45_lzp): the commands `lzp.enc` and `lzp.dec`, the wire unit `lzp.block`, and the
operations' steps at each point. -/

namespace Sys2Proof.Machine

/-- `LZPT[i] <- 0` for every entry and `hash <- 0` (45_lzp R340): an unlisted address of LZPT reads as 0. -/
def State.clearPredictor (s : State) : State := { s with lzpt := [], work := { s.work with hash := 0 } }

/-- `NextHash(b)` (45_lzp R340). -/
def State.nextHash (b : Byte) (s : State) : State :=
  { s with work := { s.work with hash := ((s.work.hash <<< 4) ^^^ b.toNat) &&& (2 ^ s.params.hashOrder - 1) } }

/-! ## LZP.ENC -/

/-- A block is complete: the mask byte is pushed, or the operation ends when the block is empty (45_lzp R343, R344). -/
def lzpEmit (s : State) : State :=
  if s.work.bi = 0 then s.finish else s.push (.lzpLits 0) s.work.lmask

/-- The head of a block's loop (45_lzp R341). -/
def lzpBlockHead (s : State) : State :=
  if s.work.bi < s.params.blockLength then s.pull .lzpByte else lzpEmit s

/-- The start of a block (45_lzp R341). -/
def lzpNewBlock (s : State) : State :=
  lzpBlockHead { s with work := { s.work with lmask := 0x00#8, nlit := 0, bi := 0 } }

/-- A hit sets the byte's mask bit (45_lzp R342). -/
def State.lzpHit (s : State) : State :=
  { s with work := { s.work with lmask := s.work.lmask ||| (1#8 <<< s.work.bi) } }

/-- After a byte, hit or miss (45_lzp R340, R341). -/
def lzpNextByte (b : Byte) (s : State) : State :=
  let s := s.nextHash b
  lzpBlockHead { s with work := { s.work with bi := s.work.bi + 1 } }

/-- The answer to the pull (45_lzp R341, R342): the byte is compared with the prediction. -/
def lzpByteStep (s : State) : Out :=
  match s.work.rv with
  | none => .next (lzpEmit s)
  | some b =>
    memRead .lzpEnc .lzpt s.work.hash s fun predicted =>
      if predicted = b then .next (lzpNextByte b s.lzpHit)
      else
        memWrite .lzpEnc .lzpt s.work.hash b s fun s =>
          memWrite .lzpEnc .litb s.work.nlit b s fun s =>
            .next (lzpNextByte b { s with work := { s.work with nlit := s.work.nlit + 1 } })

/-- The literals after the mask; after the last, the next block, or the end once End has been seen (45_lzp R341, R343,
R344). -/
def lzpLitsStep (t : Nat) (s : State) : Out :=
  if t < s.work.nlit then memRead .lzpEnc .litb t s fun v => .next (s.push (.lzpLits (t + 1)) v)
  else if s.eoi then .next s.finish
  else .next (lzpNewBlock s)

/-- The first step of LZP.ENC (45_lzp R340, R341). -/
def lzpEncStart (s : State) : Out := .next (lzpNewBlock s.clearPredictor)

/-- `lzp.enc` (45_lzp R341). -/
def execLzpEnc (s : State) : Out := runCommand 0x4#32 .lzp lzpEncStart s

/-! ## LZP.DEC -/

/-- The first step of LZP.DEC (45_lzp R340, R350). -/
def lzpDecStart (s : State) : Out := .next (s.clearPredictor.firstPull .lzp)

/-- `lzp.dec` (45_lzp R350). -/
def execLzpDec (s : State) : Out := runCommand 0xC#32 .lzp lzpDecStart s

/-- Mask bit `bi` (45_lzp R351): set, the byte is predicted; clear, a literal is pulled; after BLOCK_LENGTH bits the next
mask byte is read. -/
def lzpBitHead (s : State) : Out :=
  if s.work.bi < s.params.blockLength then
    if s.work.lmask.getLsbD s.work.bi then
      memRead .lzpDec .lzpt s.work.hash s fun b => .next (s.push (.lzpOut b) b)
    else .next (s.pull .lzpLiteral)
  else .next (s.nextUnit .lzp)

/-- `lzp.block` (45_lzp R350, R351): the mask byte has been read; its bits are taken from bit 0 on. -/
def execLzpBlock (m : Byte) (s : State) : Out :=
  onUnit .lzp s (lzpBitHead { s with work := { s.work with lmask := m, bi := 0 } })

/-- A literal of the block (45_lzp R351, R352): End here ends the operation normally. -/
def lzpLiteralStep (s : State) : Out :=
  match s.work.rv with
  | none => .next s.finish
  | some b => memWrite .lzpDec .lzpt s.work.hash b s fun s => .next (s.push (.lzpOut b) b)

/-- After a byte has been accepted: the hash and the next bit (45_lzp R350). -/
def lzpOutStep (b : Byte) (s : State) : Out :=
  let s := s.nextHash b
  lzpBitHead { s with work := { s.work with bi := s.work.bi + 1 } }

end Sys2Proof.Machine
end

