-- ==== Sys2Proof/Machine/Lzss.lean ====
section
/-! DEFINITION. LZSS encode and decode (41_lzss): the commands `lzss.enc` and `lzss.dec`, the wire units `lzss.literal` and
`lzss.reference`, and the operations' steps at each point. -/

namespace Sys2Proof.Machine

/-- `WIN[i] <- FILL` for i in 0 .. N-F-1 (41_lzss R201, R221); every other byte of WIN is unspecified (log 3). -/
def State.fillWindow (s : State) : State :=
  { s with
    win := Ram.filled s.params.fill (s.params.windowSize - s.params.lookahead) 0
    epoch := s.epoch + 1 }

/-! ## LZSS.ENC -/

/-- The length of the common prefix of `WIN[i ..]` and `WIN[r ..]`, counted on from `j` and by at most `left` more bytes
(41_lzss R202: `while j < f1 and WIN[i + j] = WIN[r + j]`). -/
def extendMatch (win : Nat → Byte) (i r : Nat) : Nat → Nat → Nat
  | 0, j => j
  | left + 1, j => if win (i + j) = win (r + j) then extendMatch win i r left (j + 1) else j

/-- The match length at candidate `i` (41_lzss R202): 0 when the first byte differs, else up to the cap `f1`. -/
def matchLength (win : Nat → Byte) (i r f1 : Nat) : Nat :=
  if win i = win r then extendMatch win i r (f1 - 1) 1 else 0

/-- The scan of the candidates from `i` on, `left` of them, from the best match so far (41_lzss R202): left to right, a
strictly longer match replaces it, so the leftmost of the longest stays (90_conflicts C1). -/
def scanMatches (win : Nat → Byte) (r f1 : Nat) : Nat → Nat → Nat × Nat → Nat × Nat
  | 0, _, best => best
  | left + 1, i, best =>
    let len := matchLength win i r f1
    scanMatches win r f1 left (i + 1) (if best.2 < len then (i, len) else best)

/-- The match search (41_lzss R202): position and length of the best match for the cursor, `(0, 1)` when no candidate is
longer than one byte. -/
def bestMatch (win : Nat → Byte) (s r f1 : Nat) : Nat × Nat :=
  scanMatches win r f1 (r - s) s (0, 1)

/-- The bits of the unit at the cursor (41_lzss R203; 30_encoding R125, R126), with `mlen` as the advance needs it. -/
def lzssUnitBits (q : Params) (c : Byte) (mpos mlen : Nat) : List Bool :=
  if mlen ≤ q.p then true :: bitsOf 8 c.toNat
  else false :: (bitsOf q.ei (mpos &&& (q.windowSize - 1)) ++ bitsOf q.ej (mlen - q.p))

/-- The advance of the cursor by a unit (41_lzss R204). -/
def State.advanceCursor (s : State) : State :=
  { s with work := { s.work with r := s.work.r + s.work.mlen, s := s.work.s + s.work.mlen } }

/-- The slide of the window by N (41_lzss R204). -/
def State.slideWindow (s : State) : State :=
  { s with
    win := Ram.slide s.params.windowSize s.win
    work := { s.work with
      bufferend := s.work.bufferend - s.params.windowSize
      r := s.work.r - s.params.windowSize
      s := s.work.s - s.params.windowSize } }

/-- The head of a fill or refill loop (41_lzss R201, R204). -/
def lzssFillHead (again : Bool) (s : State) : State :=
  if s.work.bufferend < 2 * s.params.windowSize then s.pull (.lzssFill again) else s.goto .lzssMain

/-- Where a fill ends: the first sets the cursor and the oldest start (41_lzss R201), a refill goes on with the loop. -/
def lzssFillDone (again : Bool) (s : State) : State :=
  if again then s.goto .lzssMain
  else { s with work := { s.work with r := s.params.windowSize - s.params.lookahead, s := 0 } }.goto .lzssMain

/-- The answer to a pull of the fill (41_lzss R201): a byte is stored at `bufferend`, End stops the fill. -/
def lzssFillStep (again : Bool) (s : State) : Out :=
  match s.work.rv with
  | none => .next (lzssFillDone again s)
  | some v =>
    memWrite .lzssEnc .win s.work.bufferend v s fun s =>
      let s := { s with work := { s.work with bufferend := s.work.bufferend + 1 } }
      if s.work.bufferend < 2 * s.params.windowSize then .next (s.pull (.lzssFill again)) else .next (lzssFillDone again s)

/-- After a unit: advance, and slide and refill when the cursor has reached 2N - F (41_lzss R204). -/
def lzssAfterUnit (s : State) : Out :=
  let s := s.advanceCursor
  if 2 * s.params.windowSize - s.params.lookahead ≤ s.work.r then .next (lzssFillHead true s.slideWindow)
  else .next (s.goto .lzssMain)

/-- Put the bits of a unit, then go on after it. -/
def lzssPutStep (bits : List Bool) (s : State) : Out := putBits bits Point.lzssPut lzssAfterUnit s

/-- The main loop's test and one unit (41_lzss R202, R203, R205). Every WIN index that the search forms is below
`bufferend` (R202), which the guard bounds once for the whole search. -/
def lzssMainStep (s : State) : Out :=
  if s.work.r < s.work.bufferend then
    if s.work.bufferend ≤ usedPart .lzssEnc s.params .win then
      let f1 := min s.params.lookahead (s.work.bufferend - s.work.r)
      let c := s.peek .win s.work.r
      let best := bestMatch (s.peek .win) s.work.s s.work.r f1
      let mlen := if best.2 ≤ s.params.p then 1 else best.2
      let s' := { s with work := { s.work with f1 := f1, mpos := best.1, mlen := mlen } }
      lzssPutStep (lzssUnitBits s.params c best.1 best.2) s'
    else .fault (.ramAddress .win)
  else flushThenFinish .lzssFlushed s

/-- The first step of LZSS.ENC (41_lzss R201). -/
def lzssEncStart (s : State) : Out :=
  let s := s.fillWindow
  .next (lzssFillHead false
    { s with work := { s.work with bufferend := s.params.windowSize - s.params.lookahead } })

/-- `lzss.enc` (41_lzss R200). -/
def execLzssEnc (s : State) : Out := runCommand 0x1#32 .lzss lzssEncStart s

/-! ## LZSS.DEC -/

/-- The first step of LZSS.DEC (41_lzss R221): the dictionary and the write cursor, then the first bit's pull. -/
def lzssDecStart (s : State) : Out :=
  let s := s.fillWindow
  .next ({ s with work := { s.work with wr := s.params.windowSize - s.params.lookahead } }.firstPull .lzss)

/-- `lzss.dec` (41_lzss R220). -/
def execLzssDec (s : State) : Out := runCommand 0x9#32 .lzss lzssDecStart s

/-- `WIN[wr] <- v ; wr <- (wr + 1) & (N-1)` (41_lzss R222, R223). -/
def lzssAppend (v : Byte) (s : State) (k : State → Out) : Out :=
  memWrite .lzssDec .win s.work.wr v s fun s =>
    k { s with work := { s.work with wr := (s.work.wr + 1) &&& (s.params.windowSize - 1) } }

/-- `lzss.literal` (41_lzss R222): the byte is pushed; the dictionary write follows the push's acceptance. -/
def execLzssLiteral (v : Byte) (s : State) : Out := onUnit .lzss s (.next (s.push (.lzssLitDone v) v))

/-- After a literal has been accepted (41_lzss R222). -/
def lzssLitDoneStep (v : Byte) (s : State) : Out := lzssAppend v s fun s => .next (s.nextUnit .lzss)

/-- The head of the copy loop at step `k` (41_lzss R223): the source byte is read before the destination is written. -/
def lzssCopyHead (k : Nat) (s : State) : Out :=
  if k < s.work.dlen + s.params.p then
    memRead .lzssDec .win ((s.work.dpos + k) &&& (s.params.windowSize - 1)) s fun v => .next (s.push (.lzssCopied k v) v)
  else .next (s.nextUnit .lzss)

/-- `lzss.reference` (41_lzss R223): `len + P` bytes are copied from `pos` on. -/
def execLzssReference (pos : BitVec 15) (len : BitVec 8) (s : State) : Out :=
  onUnit .lzss s (lzssCopyHead 0 { s with work := { s.work with dpos := pos.toNat, dlen := len.toNat } })

/-- After copy step `k` has been accepted (41_lzss R223). -/
def lzssCopiedStep (k : Nat) (v : Byte) (s : State) : Out := lzssAppend v s fun s => lzssCopyHead (k + 1) s

end Sys2Proof.Machine
end

