-- ==== Sys2Proof/Machine/Mtf.lean ====
section
/-! DEFINITION. Move-To-Front encode and decode (44_mtf): the commands `mtf.enc` and `mtf.dec`, the wire unit `mtf.rank`, and
the operations' steps at each point. -/

namespace Sys2Proof.Machine

/-- `MTFT[i] <- i` for i in 0 .. 255 (44_mtf R320): an unlisted address of MTFT reads as itself. -/
def State.identityTable (s : State) : State := { s with mtft := [] }

/-- `for t in i down to 1 : MTFT[t] <- MTFT[t - 1]` (44_mtf R320). -/
def shiftRanks : Nat → State → State
  | 0, s => s
  | t + 1, s => shiftRanks t (s.poke .mtft (t + 1) (s.peek .mtft t))

/-- `Promote(i, b)` (44_mtf R320). -/
def promote (i : Nat) (b : Byte) (s : State) : State := (shiftRanks i s).poke .mtft 0 b

/-- The scan for the rank of `b` from `i` on (44_mtf R322); past the last entry it gives the table's size, which no
permutation reaches. -/
def findRank (table : Nat → Byte) (b : Byte) : Nat → Nat → Nat
  | 0, i => i
  | left + 1, i => if table i = b then i else findRank table b left (i + 1)

/-- The rank of `b` in MTFT (44_mtf R322). -/
def State.rankOf (s : State) (b : Byte) : Nat := findRank (s.peek .mtft) b 256 0

/-! ## MTF.ENC -/

/-- The first step of MTF.ENC (44_mtf R321). -/
def mtfEncStart (s : State) : Out := .next (s.identityTable.pull .mtfByte)

/-- `mtf.enc` (44_mtf R321). -/
def execMtfEnc (s : State) : Out := runCommand 0x3#32 .mtf mtfEncStart s

/-- The answer to the pull (44_mtf R321, R322): the byte's rank is pushed. -/
def mtfByteStep (s : State) : Out :=
  match s.work.rv with
  | none => .next s.finish
  | some b =>
    memRead .mtfEnc .mtft (s.rankOf b) s fun _ =>
      .next ({ s with work := { s.work with rank := BitVec.ofNat 8 (s.rankOf b) } }.push (.mtfRanked b) (BitVec.ofNat 8 (s.rankOf b)))

/-- After the rank has been accepted: the promotion, and the next byte (44_mtf R321). -/
def mtfRankedStep (b : Byte) (s : State) : Out := .next ((promote s.work.rank.toNat b s).pull .mtfByte)

/-! ## MTF.DEC -/

/-- The first step of MTF.DEC (44_mtf R330). -/
def mtfDecStart (s : State) : Out := .next (s.identityTable.firstPull .mtf)

/-- `mtf.dec` (44_mtf R330). -/
def execMtfDec (s : State) : Out := runCommand 0xB#32 .mtf mtfDecStart s

/-- `mtf.rank` (44_mtf R330): the byte at that rank is pushed. -/
def execMtfRank (r : Byte) (s : State) : Out :=
  onUnit .mtf s
    (memRead .mtfDec .mtft r.toNat s fun b => .next ({ s with work := { s.work with rank := r } }.push (.mtfOut b) b))

/-- After the byte has been accepted: the same promotion (44_mtf R330, R331). -/
def mtfOutStep (b : Byte) (s : State) : Out := .next ((promote s.work.rank.toNat b s).nextUnit .mtf)

end Sys2Proof.Machine
end

