-- ==== Sys2Proof/Machine/Reserved.lean ====
section
/-! DEFINITION. The reserved command words (30_encoding R122): each is accepted and ends at once with InvalidParameters
(40_stream_bitpacker R161 check 1), with no port transaction. -/

namespace Sys2Proof.Machine

/-- CMD words 0x5 and 0xD. -/
def execReservedCodec5 (dir : Bool) (s : State) : Out := refuseCommand (commandFields 0#28 dir 5#3) s

/-- CMD words 0x6 and 0xE. -/
def execReservedCodec6 (dir : Bool) (s : State) : Out := refuseCommand (commandFields 0#28 dir 6#3) s

/-- CMD words 0x7 and 0xF. -/
def execReservedCodec7 (dir : Bool) (s : State) : Out := refuseCommand (commandFields 0#28 dir 7#3) s

/-- CMD words with a bit of [31:4] set. -/
def execReservedHighbits (high : BitVec 28) (dir : Bool) (codec : BitVec 3) (s : State) : Out :=
  refuseCommand (commandFields high dir codec) s

end Sys2Proof.Machine
end

