-- ==== Sys2Proof/Machine/Dispatch.lean ====
section
/-! DEFINITION. The one match over instructions: each arm is one call of its meaning. -/

namespace Sys2Proof.Machine

def exec (i : Instr) (s : State) : Host.Outcome State Fault Refusal :=
  match i with
  | .rleEnc => Sys2Proof.Machine.execRleEnc s
  | .rleDec => Sys2Proof.Machine.execRleDec s
  | .lzssEnc => Sys2Proof.Machine.execLzssEnc s
  | .lzssDec => Sys2Proof.Machine.execLzssDec s
  | .egEnc => Sys2Proof.Machine.execEgEnc s
  | .egDec => Sys2Proof.Machine.execEgDec s
  | .mtfEnc => Sys2Proof.Machine.execMtfEnc s
  | .mtfDec => Sys2Proof.Machine.execMtfDec s
  | .lzpEnc => Sys2Proof.Machine.execLzpEnc s
  | .lzpDec => Sys2Proof.Machine.execLzpDec s
  | .reservedCodec5 dir => Sys2Proof.Machine.execReservedCodec5 dir s
  | .reservedCodec6 dir => Sys2Proof.Machine.execReservedCodec6 dir s
  | .reservedCodec7 dir => Sys2Proof.Machine.execReservedCodec7 dir s
  | .reservedHighbits high dir codec => Sys2Proof.Machine.execReservedHighbits high dir codec s
  | .lzssLiteral v => Sys2Proof.Machine.execLzssLiteral v s
  | .lzssReference pos len => Sys2Proof.Machine.execLzssReference pos len s
  | .rleLiteralBlock c => Sys2Proof.Machine.execRleLiteralBlock c s
  | .rleRunBlock c b => Sys2Proof.Machine.execRleRunBlock c b s
  | .egSymbol0 => Sys2Proof.Machine.execEgSymbol0 s
  | .egSymbol1 => Sys2Proof.Machine.execEgSymbol1 s
  | .egSymbol2 => Sys2Proof.Machine.execEgSymbol2 s
  | .egSymbol3 => Sys2Proof.Machine.execEgSymbol3 s
  | .egSymbol4 => Sys2Proof.Machine.execEgSymbol4 s
  | .egSymbol5 => Sys2Proof.Machine.execEgSymbol5 s
  | .egSymbol6 => Sys2Proof.Machine.execEgSymbol6 s
  | .egSymbol7 => Sys2Proof.Machine.execEgSymbol7 s
  | .egSymbol8 => Sys2Proof.Machine.execEgSymbol8 s
  | .egSymbol9 => Sys2Proof.Machine.execEgSymbol9 s
  | .egSymbol10 => Sys2Proof.Machine.execEgSymbol10 s
  | .egSymbol11 => Sys2Proof.Machine.execEgSymbol11 s
  | .egSymbol12 => Sys2Proof.Machine.execEgSymbol12 s
  | .egSymbol13 => Sys2Proof.Machine.execEgSymbol13 s
  | .egSymbol14 => Sys2Proof.Machine.execEgSymbol14 s
  | .egSymbol15 => Sys2Proof.Machine.execEgSymbol15 s
  | .egTerminal => Sys2Proof.Machine.execEgTerminal s
  | .egInvalidValue suffix => Sys2Proof.Machine.execEgInvalidValue suffix s
  | .egInvalidPrefix => Sys2Proof.Machine.execEgInvalidPrefix s
  | .mtfRank r => Sys2Proof.Machine.execMtfRank r s
  | .lzpBlock m => Sys2Proof.Machine.execLzpBlock m s

end Sys2Proof.Machine
end

