-- ==== Sys2Proof/Machine/Sequencer.lean ====
section
/-! DEFINITION. The engine's sequencer (10_state R50; 40_stream_bitpacker R165): how a decoder fetches a wire unit from its
input and executes it, what each point of the pseudocode does next, and the atomic step. -/

namespace Sys2Proof.Machine

/-- The grammar a decoder reads. -/
def Decoder.family : Decoder → Family
  | .lzss => .lzss
  | .rle => .rle
  | .eg => .eg
  | .mtf => .mtf
  | .lzp => .lzp

/-- Whether a decoder reads bits through the input accumulator, or whole bytes (40_stream_bitpacker R186). -/
def Decoder.readsBits : Decoder → Bool
  | .lzss => true
  | .eg => true
  | .rle => false
  | .mtf => false
  | .lzp => false

/-- The registers the pseudocode has written when part of a unit has been read: EG.DEC's unary count (43_elias_gamma R300),
LZSS.DEC's position once all its bits are there, in a reference only (41_lzss R220), RLE.DEC's command byte (42_rle R260). -/
def noteUnit (d : Decoder) (s : State) : State :=
  match d with
  | .eg => { s with work := { s.work with gcount := (s.work.unit.takeWhile id).length } }
  | .lzss =>
    if s.work.unit.length = s.params.ei + 1 ∧ s.work.unit.head? = some false then
      { s with work := { s.work with dpos := ofBits 0 s.work.unit.tail } }
    else s
  | .rle => { s with work := { s.work with c := BitVec.ofNat 8 (ofBits 0 s.work.unit) } }
  | .mtf => s
  | .lzp => s

/-- More bits of a unit have been read: a whole unit is executed, otherwise the decoder reads on. -/
def takeUnitBits (d : Decoder) (bits : List Bool) (s : State) : Out :=
  match decode d.family s.params.wire (s.work.unit ++ bits) with
  | .ok (i, _) => exec i ({ s with work := { s.work with unit := [] } }.goto (.unit d))
  | .error _ => .next (noteUnit d ({ s with work := { s.work with unit := s.work.unit ++ bits } }.goto (.fetch d)))

/-- A decoder reads on: the next bit of the accumulator, or a pull (40_stream_bitpacker R183; 20_memory R84). -/
def fetchStep (d : Decoder) (s : State) : Out :=
  if d.readsBits = true ∧ s.work.imask ≠ 0#8 then takeUnitBits d [s.nextBit] s.dropBit
  else .next (s.pull (.fetched d))

/-- End where a unit's bits were asked for: the normal end of LZSS.DEC anywhere (41_lzss R224), of RLE.DEC, MTF.DEC and
LZP.DEC between units (42_rle R263, 44_mtf R330, 45_lzp R352); a truncated stream inside an RLE block (R263) and anywhere in
EG.DEC (43_elias_gamma R303 (c)). -/
def fetchEnd (d : Decoder) (s : State) : State :=
  match d with
  | .lzss => s.finish
  | .mtf => s.finish
  | .lzp => s.finish
  | .rle => if s.work.unit = [] then s.finish else s.raise .corruptStream
  | .eg => s.raise .corruptStream

/-- The answer to a decoder's pull. -/
def fetchedStep (d : Decoder) (s : State) : Out :=
  match s.work.rv with
  | none => .next (fetchEnd d s)
  | some v => if d.readsBits then fetchStep d (s.refill v) else takeUnitBits d (bitsOf 8 v.toNat) s

/-- What the engine does at a point, up to the next point it goes through or port request it issues. -/
def advance (p : Point) (s : State) : Out :=
  match p with
  | .fetch d => fetchStep d s
  | .fetched d => fetchedStep d s
  | .unit d => .next (s.nextUnit d)
  | .rleTop => rleTopStep s
  | .rleCount => rleCountStep s
  | .rleLits t ret => rleLitsStep t ret s
  | .rleRunCmd => rleRunCmdStep s
  | .rleRunByte => rleAfterRun s
  | .rleLitByte left => rleLitByteStep left s
  | .rleLitDone left => .next (rleLitHead left s)
  | .rleRunDone left v => .next (rleRunHead left v s)
  | .lzssFill again => lzssFillStep again s
  | .lzssMain => lzssMainStep s
  | .lzssPut bits => lzssPutStep bits s.emptyOut
  | .lzssFlushed => flushed s
  | .lzssLitDone v => lzssLitDoneStep v s
  | .lzssCopied k v => lzssCopiedStep k v s
  | .egMain => egRead 4 0 s
  | .egSym left x => egSymStep left x s
  | .egPut bits last => egPutStep bits last s.emptyOut
  | .egFlushed => flushed s
  | .egOut bits => egOutStep bits s.emptyOut
  | .egOutFlushed => flushed s
  | .mtfByte => mtfByteStep s
  | .mtfRanked b => mtfRankedStep b s
  | .mtfOut b => mtfOutStep b s
  | .lzpByte => lzpByteStep s
  | .lzpLits t => lzpLitsStep t s
  | .lzpLiteral => lzpLiteralStep s
  | .lzpOut b => lzpOutStep b s

/-- Advance until the engine waits on a port or is idle, through at most so many points. -/
def settle : Nat → State → Out
  | 0, s => .next s
  | fuel + 1, s =>
    match s.seq with
    | .run p => (advance p s).andThen (settle fuel)
    | .idle => .next s
    | .waitPull _ => .next s
    | .waitPush _ _ => .next s

/-- More points than any atomic step passes: a pulled byte holds eight bits, each passed at one point, and at most that
many units end in it (log 8). -/
def settleFuel : Nat := 32

/-- THE ATOMIC STEP of the engine (40_stream_bitpacker R165): from the point where the last port transaction was answered
up to the next port request or the operation's end. -/
def engineStep (s : State) : Out := settle settleFuel s

end Sys2Proof.Machine
end

