-- ==== Sys2Proof/Machine/Schedule.lean ====
section
/-! DEFINITION. One step of the whole machine: the interleaving of 20_memory R92 as the host's script gives it, the host
programs of 30_encoding R135 and R136, and the placing of one instruction for `withFetchWord`. -/

namespace Sys2Proof.Machine

/-- A host register write (20_memory R90): to CMD, the command word is decoded and executed (40_stream_bitpacker R160); to
another register as `writeReg` says; an access that is not an aligned word is refused (I5). -/
def hostWrites (addr : Nat) (width : AccessWidth) (v : Word) (s : State) : Out :=
  match s.build.offset addr with
  | none => .next s
  | some off =>
    match width, regAt off with
    | .word, some .cmd => exec (decodeCommand v) s
    | .word, some r => .next (s.writeReg r v)
    | _, _ => .refused .registerAccessShape

/-- What moves when the host does nothing: the engine, or the adapter when a request is outstanding and it is connected;
otherwise the machine waits (70_reset R414, 60_exceptions R384). -/
def idleStep (s : State) : Out :=
  match s.seq with
  | .run _ => engineStep s
  | .idle => .next s
  | .waitPull _ => .next (adapterStep s)
  | .waitPush _ _ => .next (adapterStep s)

/-- A port answer comes after the request it answers (20_memory R92 (c)): while the engine is still on its way to one, it
makes its step first and the action stays next (log 6); but an answer that is `late`, to a request that a reset withdrew, comes
after its request already and is performed at once (70_reset R402). -/
def afterRequest (late : Bool) (act : State → Out) (s : State) : Out :=
  match s.seq with
  | .run _ => if late then act s.popped else engineStep s
  | .idle => act s.popped
  | .waitPull _ => act s.popped
  | .waitPush _ _ => act s.popped

/-- The result of `transform_buffer` (20_memory R99; 30_encoding R136): the byte count, or the error. -/
def transformResult (s : State) : Except Result Word :=
  if s.status.result = .ok then .ok s.writeCount else .error s.status.result

/-- The first `n` bytes of the adapter's output array (20_memory R98). -/
def OutArray.firstBytes (out : OutArray) (n : Nat) : List Byte := (List.range n).filterMap fun a => Ram.find a out.cells

/-- What a `transform_buffer` has put out (20_memory R99): the bytes that its result counts, or its error. -/
def transformOutput (s : State) : Except Result (List Byte) :=
  match transformResult s, s.host.output with
  | .ok n, some out => .ok (out.firstBytes n.toNat)
  | .ok _, none => .ok []
  | .error e, _ => .error e

/-- The encoded bytes of a `roundtrip` (30_encoding R136); after an encode that has failed there are none (log 27). -/
def encodedBytes (s : State) : List Byte :=
  match transformOutput s with
  | .ok bytes => bytes
  | .error _ => []

/-- The comparison of a `roundtrip` (30_encoding R136): the decoded bytes are byte for byte these; the output of a decode that has
failed is equal to nothing (log 27). -/
def outputIs (bytes : List Byte) (s : State) : Bool :=
  match transformOutput s with
  | .ok decoded => decoded == bytes
  | .error _ => false

/-- The effect of the script's first action. -/
def perform (a : HostAction) (s : State) : Out :=
  match a with
  | .write addr width v => hostWrites addr width v s.popped
  | .read addr width => hostReads addr width s.popped
  | .answerPull ans => afterRequest (s.awaitsLate .pull) (hostAnswersPull ans) s
  | .answerPush ans => afterRequest (s.awaitsLate .push) (hostAnswersPush ans) s
  | .adapterAnswers => afterRequest false (fun s => .next (adapterStep s)) s
  | .engineSteps => engineStep s.popped
  | .waitDone =>
    if s.status.done then hostReads (s.build.regBase + Reg.status.offset) .word s.popped else idleStep s
  | .connectInput bytes => .next { s.popped with host := { s.popped.host with input := some bytes } }
  | .connectOutput cap => .next { s.popped with host := { s.popped.host with output := some ⟨cap, 0, []⟩ } }
  | .connectEncoded => .next { s.popped with host := { s.popped.host with input := some (encodedBytes s) } }
  | .compareOutput bytes =>
    .next { s.popped with host := { s.popped.host with compared := s.popped.host.compared ++ [outputIs bytes s] } }
  | .hardwareReset => .next s.popped.hardwareReset

/-- One step of the machine. -/
def machineStep (s : State) : Out :=
  match s.host.script with
  | [] => idleStep s
  | a :: _ => perform a s

/-! ## Host programs -/

/-- 30_encoding R135 `wr REG, value`. -/
def wr (b : Build) (r : Reg) (v : Word) : HostAction := .write (b.regBase + r.offset) .word v

/-- 30_encoding R135 `rd REG -> name`. -/
def rd (b : Build) (r : Reg) : HostAction := .read (b.regBase + r.offset) .word

/-- 30_encoding R135 `<mnemonic>`: `wr CMD, <its CMD value>`. -/
def command (b : Build) (i : Instr) : HostAction := wr b .cmd (commandWord i)

/-- 30_encoding R136 `transform CODEC, DIR`. -/
def transform (b : Build) (i : Instr) : List HostAction := [command b i, .waitDone]

/-- 30_encoding R136 `transform_buffer` with the action `source` that gives its input. -/
def transformBufferFrom (source : HostAction) (b : Build) (i : Instr) (cap : Nat) : List HostAction :=
  [source, .connectOutput cap] ++ transform b i ++ [rd b .status, rd b .writeCount]

/-- 30_encoding R136 `transform_buffer CODEC, DIR, <bytes>, C`. -/
def transformBuffer (b : Build) (i : Instr) (bytes : List Byte) (cap : Nat) : List HostAction :=
  transformBufferFrom (.connectInput bytes) b i cap

/-- The command of a CODEC that encodes (30_encoding R121: DIR = 0). -/
def Decoder.encodes : Decoder → Instr
  | .lzss => .lzssEnc
  | .rle => .rleEnc
  | .eg => .egEnc
  | .mtf => .mtfEnc
  | .lzp => .lzpEnc

/-- The command of a CODEC that decodes (30_encoding R121: DIR = 1). -/
def Decoder.decodes : Decoder → Instr
  | .lzss => .lzssDec
  | .rle => .rleDec
  | .eg => .egDec
  | .mtf => .mtfDec
  | .lzp => .lzpDec

/-- 30_encoding R136 `roundtrip CODEC, <bytes>`: an encode of `bytes`, a decode of what it has put out, and the comparison of
the decoded bytes with `bytes`. -/
def roundtrip (b : Build) (codec : Decoder) (bytes : List Byte) (cap1 cap2 : Nat) : List HostAction :=
  transformBuffer b codec.encodes bytes cap1 ++ transformBufferFrom .connectEncoded b codec.decodes cap2
    ++ [.compareOutput bytes]

/-- 30_encoding R136 `lzss.cfg EI, EJ, P, FILL`. -/
def lzssCfgLine (b : Build) (ei ej p fill : Nat) : HostAction :=
  wr b .lzssCfg (BitVec.ofNat 32 ((fill <<< 16) ||| (p <<< 8) ||| (ej <<< 4) ||| ei))

/-- 30_encoding R136 `rle.cfg RL, ROVER`. -/
def rleCfgLine (b : Build) (rl rover : Nat) : HostAction := wr b .rleCfg (BitVec.ofNat 32 ((rover <<< 8) ||| rl))

/-- 30_encoding R136 `lzp.cfg HO, BL`. -/
def lzpCfgLine (b : Build) (ho bl : Nat) : HostAction := wr b .lzpCfg (BitVec.ofNat 32 ((bl <<< 8) ||| ho))

/-! ## Placing one instruction -/

/-- The state with a command word as the host's next register write, the engine free to accept it. -/
def placeCommand (w : Word) (s : State) : State :=
  { s with
    status := { s.status with busy := false }
    seq := .idle
    host := { s.host with script := wr s.build .cmd w :: s.host.script } }

/-- LZSS.DEC running with the opcode table's default parameters (30_encoding R125: EI = 11, EJ = 4) and its dictionary set
up, before the first unit. -/
def lzssDecRunning (s : State) : State :=
  let s := latch .lzss { s.accept 0x9#32 with lzssCfg := State.reset.lzssCfg }
  let s := s.fillWindow
  { s with work := { s.work with wr := s.params.windowSize - s.params.lookahead } }

/-- The state with the sixteen bits of an LZSS unit in the decoder, bit 15 first: the first byte is read, the second has
just been pulled, and the engine's step comes next. -/
def placeLzssUnit (w : Nat) (s : State) : State :=
  let t := lzssDecRunning s
  { t with
    lzssCfg := s.lzssCfg
    readCount := 2#32
    seq := .run (.fetched .lzss)
    work := { t.work with unit := bitsOf 8 (w / 256), rv := some (BitVec.ofNat 8 w) }
    host := { s.host with script := .engineSteps :: s.host.script } }

/-- The state with an MTF rank byte just pulled by MTF.DEC. -/
def placeMtfRank (w : Nat) (s : State) : State :=
  let t := (s.accept 0xB#32).identityTable
  { t with
    readCount := 1#32
    seq := .run (.fetched .mtf)
    work := { t.work with unit := [], rv := some (BitVec.ofNat 8 w) }
    host := { s.host with script := .engineSteps :: s.host.script } }

/-- The state with an Elias-Gamma code of `n` bits in EG.DEC, ending where a byte of the input ends: all bits but the last
read, the last one in the accumulator. -/
def placeGammaCode (n w : Nat) (s : State) : State :=
  let t := s.accept 0xA#32
  { t with
    readCount := if n ≤ 8 then 1#32 else 2#32
    seq := .run (.fetch .eg)
    work := { t.work with
      unit := (bitsOf n w).dropLast, gcount := ((bitsOf n w).dropLast.takeWhile id).length
      ibits := BitVec.ofNat 8 w, imask := 0x01#8 }
    host := { s.host with script := .engineSteps :: s.host.script } }

/-- The state with a table word placed where the next step takes its instruction, in the grammar `tableGrammar` names. -/
def placeTableWord (nbits w : Nat) (s : State) : State :=
  match tableGrammar nbits w with
  | some (.command, _) => placeCommand (BitVec.ofNat 32 w) s
  | some (.eg, n) => placeGammaCode n w s
  | some (.mtf, _) => placeMtfRank w s
  | some (.lzss, n) => placeLzssUnit (w * 2 ^ (16 - n)) s
  | some (.rle, _) => s
  | some (.lzp, _) => s
  | none => s

end Sys2Proof.Machine
end

