-- ==== Sys2Proof/Machine/Step.lean ====
section
/-! DEFINITION. The machine's step, and the placing of one instruction for it. -/

namespace Sys2Proof.Machine

/-- One step of the machine (20_memory R92): the next host action, or what moves without one. -/
def step (s : State) : Host.Outcome State Fault Refusal := machineStep s

/-- The state in which the next step runs exactly the instruction of a table word (log 20 says how a program comes to run
from reset). -/
def State.withFetchWord (s : State) (nbits w : Nat) : State := placeTableWord nbits w s

end Sys2Proof.Machine
end

