-- ==== Sys2Proof/Safety.lean ====
section
/-! DEFINITION. The terms claims use: a safe state is one whose step does not fault; the invariant says what the spec derives
about every state a run can reach (10_state R32, R40, R42, R45; 20_memory R81, R88; 41_lzss R206; 42_rle R252, R254;
44_mtf R320; 45_lzp R342). -/

namespace Sys2Proof.Machine

/-- The next step does not fault. -/
def Safe (s : State) : Prop := ∀ r, step s ≠ .fault r

/-- What an engine step never changes (10_state R36, R41; 20_memory R80; 40_stream_bitpacker R165): the build, the
configuration registers, the counters, the latched parameters, the operation, the end latch and the host's side; and STATUS,
unless the operation ends in the step. -/
structure EngineFrame (s t : State) : Prop where
  build : t.build = s.build
  lzssCfg : t.lzssCfg = s.lzssCfg
  rleCfg : t.rleCfg = s.rleCfg
  lzpCfg : t.lzpCfg = s.lzpCfg
  readCount : t.readCount = s.readCount
  writeCount : t.writeCount = s.writeCount
  params : t.params = s.params
  opCodec : t.opCodec = s.opCodec
  opDir : t.opDir = s.opDir
  eoi : t.eoi = s.eoi
  host : t.host = s.host
  status : t.status = s.status ∨ (t.seq = .idle ∧ ∃ res, t.status = s.status.ended res)

/-- The operation a point belongs to. -/
def Point.op : Point → Op
  | .fetch .lzss | .fetched .lzss | .unit .lzss => .lzssDec
  | .fetch .rle | .fetched .rle | .unit .rle => .rleDec
  | .fetch .eg | .fetched .eg | .unit .eg => .egDec
  | .fetch .mtf | .fetched .mtf | .unit .mtf => .mtfDec
  | .fetch .lzp | .fetched .lzp | .unit .lzp => .lzpDec
  | .rleTop | .rleCount | .rleLits _ _ | .rleRunCmd | .rleRunByte => .rleEnc
  | .rleLitByte _ | .rleLitDone _ | .rleRunDone _ _ => .rleDec
  | .lzssFill _ | .lzssMain | .lzssPut _ | .lzssFlushed => .lzssEnc
  | .lzssLitDone _ | .lzssCopied _ _ => .lzssDec
  | .egMain | .egSym _ _ | .egPut _ _ | .egFlushed => .egEnc
  | .egOut _ | .egOutFlushed => .egDec
  | .mtfByte | .mtfRanked _ => .mtfEnc
  | .mtfOut _ => .mtfDec
  | .lzpByte | .lzpLits _ => .lzpEnc
  | .lzpLiteral | .lzpOut _ => .lzpDec

/-- The point of a control state that is not IDLE. -/
def Seq.point : Seq → Option Point
  | .idle => none
  | .run p => some p
  | .waitPull p => some p
  | .waitPush p _ => some p

/-- The CODEC field of an operation's command (30_encoding R121). -/
def Op.codecField : Op → BitVec 3
  | .rleEnc | .rleDec => 0#3
  | .lzssEnc | .lzssDec => 1#3
  | .egEnc | .egDec => 2#3
  | .mtfEnc | .mtfDec => 3#3
  | .lzpEnc | .lzpDec => 4#3

/-- The DIR field of an operation's command (30_encoding R121). -/
def Op.dirField : Op → Bool
  | .rleEnc | .lzssEnc | .egEnc | .mtfEnc | .lzpEnc => false
  | .rleDec | .lzssDec | .egDec | .mtfDec | .lzpDec => true

/-- Legal implementation parameters (00_scope R6). -/
def Build.Legal (b : Build) : Prop := 6 ≤ b.eiMax ∧ b.eiMax ≤ 15 ∧ b.hashOrderMax ≤ 16

/-- The latched parameters of an operation are legal and fit the build (40_stream_bitpacker R161 to R163). -/
def ParamsOk (op : Op) (q : Params) (b : Build) : Prop :=
  match op with
  | .rleEnc | .rleDec => 2 ≤ q.rl ∧ q.rl ≤ 128 ∧ q.rover ≤ 255
  | .lzssEnc | .lzssDec =>
    6 ≤ q.ei ∧ q.ei ≤ 15 ∧ 1 ≤ q.ej ∧ q.ej ≤ q.ei ∧ q.ei + q.ej ≤ 16 ∧ 2 ≤ q.p ∧ q.p ≤ 255 ∧ q.lookahead ≤ q.windowSize ∧ q.ei ≤ b.eiMax
  | .lzpEnc | .lzpDec => q.hashOrder ≤ 16 ∧ 1 ≤ q.blockLength ∧ q.blockLength ≤ 8 ∧ q.hashOrder ≤ b.hashOrderMax
  | .egEnc | .egDec | .mtfEnc | .mtfDec => True

/-- A one-hot bit position (10_state R42). -/
def OneHot (m : Byte) : Prop := ∃ i, i < 8 ∧ m = 0x80#8 >>> i

/-- MTFT holds every byte value at some rank, so it is a permutation of 0 .. 255 (10_state R45). -/
def Permutation (s : State) : Prop := ∀ b : Byte, ∃ i, i < 256 ∧ s.peek .mtft i = b

/-- Both accumulators between two primitives (10_state R42): `omask` is one-hot and no bit of `obits` stands at it or below
it; `imask` is one-hot or 0. While a full byte is being pushed, `omask` is 0 (40_stream_bitpacker R180). -/
def AccumulatorsOk (p : Point) (w : Work) : Prop :=
  (w.imask = 0#8 ∨ OneHot w.imask) ∧
  match p with
  | .lzssPut _ | .egPut _ _ | .egOut _ => w.omask = 0#8
  | _ => OneHot w.omask ∧ w.obits &&& (w.omask ||| (w.omask - 1#8)) = 0#8

/-- What has been read of a unit is less than a unit. -/
def PartialUnit (d : Decoder) (s : State) : Prop := decodeFirst d.family s.params.wire s.work.unit = none

/-- What a decoder keeps between two units. -/
def DecoderOk (d : Decoder) (s : State) : Prop :=
  match d with
  | .lzss => s.work.wr < s.params.windowSize
  | .mtf => Permutation s
  | .lzp => s.work.hash < 2 ^ s.params.hashOrder
  | .rle => True
  | .eg => True

/-- LZSS.ENC has written every byte of WIN below `bufferend` (41_lzss R206), so it never reads an unspecified one. -/
def WindowWritten (s : State) : Prop := ∀ a, a < s.work.bufferend → Ram.find a s.win ≠ none

/-- The cursor invariant of LZSS.ENC (41_lzss R206). -/
def CursorOk (s : State) : Prop :=
  WindowWritten s ∧ s.work.r = s.work.s + (s.params.windowSize - s.params.lookahead)
    ∧ s.work.r < 2 * s.params.windowSize - s.params.lookahead
    ∧ s.work.r ≤ s.work.bufferend ∧ s.work.bufferend ≤ 2 * s.params.windowSize

/-- The working registers at a point (10_state R40 and the rules of the point's operation). -/
def WorkOk (p : Point) (s : State) : Prop :=
  match p with
  | .fetch d | .fetched d => DecoderOk d s ∧ PartialUnit d s
  | .unit d => DecoderOk d s
  | .rleTop => s.work.j + 2 ≤ s.params.rl ∧ (s.work.prev = none → s.work.j = 0)
  | .rleCount =>
    s.work.j + 2 ≤ s.params.rl ∧ s.work.prev ≠ none ∧ 1 ≤ s.work.k ∧ s.work.k < s.params.rl + s.params.rover
  | .rleLits t ret =>
    t ≤ s.work.j ∧ s.work.j + 1 ≤ s.params.rl ∧ s.work.prev ≠ none
      ∧ (ret = .toRun → s.params.rover < s.work.k ∧ s.work.k ≤ s.params.rl + s.params.rover)
  | .rleRunCmd | .rleRunByte => s.work.j = 0 ∧ s.work.prev ≠ none
  | .rleLitByte left => 1 ≤ left
  | .rleLitDone _ | .rleRunDone _ _ => True
  | .lzssFill false =>
    WindowWritten s ∧ s.params.windowSize - s.params.lookahead ≤ s.work.bufferend
      ∧ s.work.bufferend < 2 * s.params.windowSize
  | .lzssFill true => CursorOk s ∧ s.work.bufferend < 2 * s.params.windowSize
  | .lzssMain => CursorOk s
  | .lzssPut _ =>
    CursorOk s ∧ 1 ≤ s.work.mlen ∧ s.work.mlen ≤ s.params.lookahead ∧ s.work.r + s.work.mlen ≤ s.work.bufferend
  | .lzssFlushed => True
  | .lzssLitDone _ | .lzssCopied _ _ => s.work.wr < s.params.windowSize
  | .egMain | .egPut _ _ | .egFlushed | .egOut _ | .egOutFlushed => True
  | .egSym left x => 1 ≤ left ∧ left ≤ 4 ∧ x < 2 ^ (4 - left)
  | .mtfByte => Permutation s
  | .mtfRanked b | .mtfOut b => Permutation s ∧ s.peek .mtft s.work.rank.toNat = b
  | .lzpByte =>
    s.work.hash < 2 ^ s.params.hashOrder ∧ s.work.nlit ≤ s.work.bi ∧ s.work.bi < s.params.blockLength
  | .lzpLits t => s.work.hash < 2 ^ s.params.hashOrder ∧ t ≤ s.work.nlit ∧ s.work.nlit ≤ s.params.blockLength
  | .lzpLiteral | .lzpOut _ => s.work.hash < 2 ^ s.params.hashOrder ∧ s.work.bi < s.params.blockLength

/-- A running operation at point `p`. -/
structure Running (p : Point) (s : State) : Prop where
  params : ParamsOk p.op s.params s.build
  codec : s.opCodec = p.op.codecField
  dir : s.opDir = p.op.dirField
  statusCodec : s.status.codec = s.opCodec
  statusDir : s.status.dir = s.opDir
  endSeen : s.status.eoi = s.eoi
  accumulators : AccumulatorsOk p s.work
  work : WorkOk p s

/-- THE INVARIANT. -/
structure Inv (s : State) : Prop where
  build : s.build.Legal
  rams : ∀ sp, Ram.wf sp (s.ram sp)
  lzssCfg : s.lzssCfg &&& ~~~lzssCfgMask = 0#32
  rleCfg : s.rleCfg &&& ~~~rleCfgMask = 0#32
  lzpCfg : s.lzpCfg &&& ~~~lzpCfgMask = 0#32
  busy : s.status.busy = true ↔ s.seq ≠ .idle
  busyNotDone : s.status.busy = true → s.status.done = false ∧ s.status.result = .ok
  noPullAfterEnd : s.eoi = true → ∀ p, s.seq ≠ .waitPull p
  running : ∀ p, s.seq.point = some p → Running p s

end Sys2Proof.Machine
end

