-- ==== Sys2Proof/Certificates/Slice0/Obligations.lean ====
section
/-! DEFINITION. The statements for the provers. Each docstring says which rule of spec/ it formalises; what rests on a choice
of the model names its log entry. A statement about an instruction gives the whole next state as the old state with the
named fields changed, so it says the result and the frame at once. -/

open Sys2Proof Sys2Proof.Machine

namespace Sys2Proof.Claims

/-- The state in which an accepted command waits for its first byte (40_stream_bitpacker R160): flags, counters, operation,
end latch and accumulators as acceptance sets them; `q` the latched parameters, `w` the other working registers, `p` the
point of the first pull. -/
def started (codec : BitVec 3) (dir : Bool) (q : Params) (w : Work) (p : Point) (s : State) : State :=
  { s with
    status := ⟨true, false, false, .ok, codec, dir⟩
    readCount := 0#32
    writeCount := 0#32
    opCodec := codec
    opDir := dir
    eoi := false
    params := q
    work := { w with obits := 0x00#8, omask := 0x80#8, ibits := 0x00#8, imask := 0x00#8 }
    seq := .waitPull p }

/-- The state in which an accepted command has ended at once with an error (40_stream_bitpacker R160, R161; 60_exceptions
R374): as `started`, but idle, DONE, with the result `e`, and with parameters and other registers untouched. -/
def turnedAway (codec : BitVec 3) (dir : Bool) (e : Result) (s : State) : State :=
  { s with
    status := ⟨false, true, false, e, codec, dir⟩
    readCount := 0#32
    writeCount := 0#32
    opCodec := codec
    opDir := dir
    eoi := false
    work := { s.work with obits := 0x00#8, omask := 0x80#8, ibits := 0x00#8, imask := 0x00#8 }
    seq := .idle }

/-- The state at an operation's end with result `e` (60_exceptions R373, R374). -/
def ended (e : Result) (s : State) : State :=
  { s with status := { s.status with result := e, done := true, busy := false }, seq := .idle }

/-- The field `[hi:lo]` of a word (00_scope R7). -/
def field (w : Word) (hi lo : Nat) : Nat := w.toNat / 2 ^ lo % 2 ^ (hi + 1 - lo)

/-- LZSS_CFG is legal (40_stream_bitpacker R162). -/
def LzssLegal (w : Word) : Prop :=
  6 ≤ field w 3 0 ∧ field w 3 0 ≤ 15 ∧ 1 ≤ field w 7 4 ∧ field w 7 4 ≤ field w 3 0 ∧ field w 3 0 + field w 7 4 ≤ 16
    ∧ 2 ≤ field w 15 8 ∧ 2 ^ field w 7 4 + field w 15 8 - 1 ≤ 2 ^ field w 3 0

/-- RLE_CFG is legal (40_stream_bitpacker R162). -/
def RleLegal (w : Word) : Prop := 2 ≤ field w 7 0 ∧ field w 7 0 ≤ 128

/-- LZP_CFG is legal (40_stream_bitpacker R162). -/
def LzpLegal (w : Word) : Prop := field w 4 0 ≤ 16 ∧ 1 ≤ field w 11 8 ∧ field w 11 8 ≤ 8

/-- The parameters an LZSS command latches (10_state R33, R41). -/
def lzssParams (s : State) : Params :=
  { s.params with
    ei := field s.lzssCfg 3 0, ej := field s.lzssCfg 7 4, p := field s.lzssCfg 15 8
    fill := BitVec.ofNat 8 (field s.lzssCfg 23 16) }

/-- The parameters an RLE command latches (10_state R34, R41). -/
def rleParams (s : State) : Params := { s.params with rl := field s.rleCfg 7 0, rover := field s.rleCfg 15 8 }

/-- The parameters an LZP command latches (10_state R35, R41). -/
def lzpParams (s : State) : Params :=
  { s.params with hashOrder := field s.lzpCfg 4 0, blockLength := field s.lzpCfg 11 8 }

/-- A bit string written as digits, in transmission order. -/
def bits (l : List Nat) : List Bool := l.map (· == 1)

/-- The host's side after the first script action, left as `rest`. -/
def after (rest : List HostAction) (s : State) : State := { s with host := { s.host with script := rest } }

/-- The output accumulator holds the bits `h`, first bit highest (10_state R42; 40_stream_bitpacker R180): fewer than eight,
the next one goes to `omask`, and what is not yet written is 0. -/
def Holds (h : List Bool) (obits omask : Byte) : Prop :=
  h.length < 8 ∧ omask = 0x80#8 >>> h.length ∧ obits = BitVec.ofNat 8 (ofBits 0 h * 2 ^ (8 - h.length))

/-- The byte that eight bits make, first bit highest. -/
def byteOf (l : List Bool) : Byte := BitVec.ofNat 8 (ofBits 0 l)

end Sys2Proof.Claims

open Sys2Proof.Claims

/-! ## Reset and host registers -/

/-- 70_reset R400: after power-on, and after a reset at any moment, the host-visible registers read the values of the table
and the engine is idle with no request outstanding. (Unspecified contents are not stated.) -/
def Obligations.ResetRegisterValues : Prop :=
  State.reset.readReg .caps = 0x0000100F#32 ∧ State.reset.build.eiMax = 15 ∧ State.reset.build.hashOrderMax = 16 ∧
  ∀ s : State, ∀ t ∈ [State.reset, s.hardwareReset],
    t.readReg .cmd = 0#32 ∧ t.readReg .status = 0#32 ∧ t.readReg .lzssCfg = 0x0020024B#32 ∧ t.readReg .rleCfg = 0x00000180#32
      ∧ t.readReg .lzpCfg = 0x00000810#32 ∧ t.readReg .readCount = 0#32 ∧ t.readReg .writeCount = 0#32 ∧ t.seq = .idle
      ∧ s.hardwareReset.readReg .caps = s.readReg .caps

/-- 70_reset R402: a hardware reset at any moment ends the operation without a result and leaves the registers as R400 says; the
bytes already accepted stay with the host, and an answer that comes late to a request which a reset withdrew is ignored,
whether the engine is idle, waits on the other port or is between two port transactions (RUN) by then. (Which answers count as
late is the model's reading, log 13.) -/
def Obligations.HardwareResetWithdrawsTheRequest : Prop :=
  (∀ (s : State) (rest : List HostAction), s.host.script = .hardwareReset :: rest →
    ∃ t, step s = .next t ∧ t.status = ⟨false, false, false, .ok, 0#3, false⟩ ∧ t.lzssCfg = 0x0020024B#32
      ∧ t.rleCfg = 0x00000180#32 ∧ t.lzpCfg = 0x00000810#32 ∧ t.readCount = 0#32 ∧ t.writeCount = 0#32 ∧ t.seq = .idle
      ∧ t.build = s.build
      ∧ t.host = { s.host with
          script := rest
          withdrawn := match s.seq with
            | .waitPull _ => .pull :: s.host.withdrawn
            | .waitPush _ _ => .push :: s.host.withdrawn
            | .idle => s.host.withdrawn
            | .run _ => s.host.withdrawn })
  ∧ (∀ (s : State) (a : PullAnswer) (rest : List HostAction), s.host.script = .answerPull a :: rest →
    (s.seq = .idle ∨ (∃ p v, s.seq = .waitPush p v) ∨ ∃ p, s.seq = .run p) → .pull ∈ s.host.withdrawn →
      step s = .next { s with host := { s.host with script := rest, withdrawn := s.host.withdrawn.erase .pull } })
  ∧ ∀ (s : State) (a : PushAnswer) (rest : List HostAction), s.host.script = .answerPush a :: rest →
    (s.seq = .idle ∨ (∃ p, s.seq = .waitPull p) ∨ ∃ p, s.seq = .run p) → .push ∈ s.host.withdrawn →
      step s = .next { s with host := { s.host with script := rest, withdrawn := s.host.withdrawn.erase .push } }

/-- 10_state R30, R32, R36, R37; 20_memory R90, R91; 60_exceptions R370: an aligned word read of a register gives its value and
has no side effect; in the word that STATUS gives, each flag stands at its place and the rest is 0. -/
def Obligations.HostReadsGiveTheRegister : Prop :=
  (∀ (s : State) (r : Reg) (rest : List HostAction), s.build.Legal →
    s.host.script = .read (s.build.regBase + r.offset) .word :: rest →
    step s = .next { s with host := { s.host with
      script := rest
      reads := s.host.reads ++ [(r.offset,
        match r with
        | .cmd => 0#32
        | .status => s.status.toWord
        | .lzssCfg => s.lzssCfg
        | .rleCfg => s.rleCfg
        | .lzpCfg => s.lzpCfg
        | .readCount => s.readCount
        | .writeCount => s.writeCount
        | .caps => BitVec.ofNat 32 (s.build.eiMax + 256 * s.build.hashOrderMax))] } })
  ∧ ∀ st : Status,
    st.toWord.getLsbD 0 = st.busy ∧ st.toWord.getLsbD 1 = st.done ∧ st.toWord.getLsbD 2 = st.eoi ∧ st.toWord.getLsbD 3 = false
      ∧ st.toWord.extractLsb' 4 4 = (match st.result with
          | .ok => 0#4
          | .ioFailure => 1#4
          | .bufferTooSmall => 2#4
          | .invalidParameters => 3#4
          | .corruptStream => 4#4)
      ∧ st.toWord.extractLsb' 8 3 = st.codec ∧ st.toWord.getLsbD 11 = st.dir ∧ st.toWord.extractLsb' 12 20 = 0#20

/-- 10_state R32 to R37; 20_memory R90; 70_reset R411: a write to a configuration register stores every implemented bit,
whatever its value and whether or not an operation runs, and changes nothing else; a write to a read-only register has no
effect. -/
def Obligations.HostWritesTakeEffect : Prop :=
  ∀ (s : State) (v : Word) (rest : List HostAction),
    (s.host.script = .write (s.build.regBase + 0x08) .word v :: rest →
      step s = .next { after rest s with lzssCfg := v &&& 0x00FFFFFF#32 })
    ∧ (s.host.script = .write (s.build.regBase + 0x0C) .word v :: rest →
      step s = .next { after rest s with rleCfg := v &&& 0x0000FFFF#32 })
    ∧ (s.host.script = .write (s.build.regBase + 0x10) .word v :: rest →
      step s = .next { after rest s with lzpCfg := v &&& 0x00000F1F#32 })
    ∧ ∀ off ∈ [0x04, 0x14, 0x18, 0x1C],
      s.host.script = .write (s.build.regBase + off) .word v :: rest → step s = .next (after rest s)

/-- 20_memory R90, R97: inside the window an access of another width or at an offset that is no multiple of 4 is refused;
outside the window, below it or above it, an access is not this block's (the model's reading of R97, log 14). -/
def Obligations.MisshapenAccessesRefused : Prop :=
  ∀ (s : State) (addr : Nat) (width : AccessWidth) (v : Word) (rest : List HostAction),
    ∀ a ∈ [HostAction.read addr width, HostAction.write addr width v], s.host.script = a :: rest →
      (s.build.regBase ≤ addr → addr < s.build.regBase + 32 → width ≠ .word ∨ (addr - s.build.regBase) % 4 ≠ 0 →
        step s = .refused .registerAccessShape)
      ∧ (addr < s.build.regBase ∨ s.build.regBase + 32 ≤ addr → step s = .next (after rest s))

/-! ## Commands -/

/-- 70_reset R410: while BUSY, a CMD write has no effect at all, for every command and reserved word. -/
def Obligations.CommandWhileBusyIgnored : Prop :=
  ∀ s : State, s.status.busy = true →
    (∀ i : Instr, i.family = .command → exec i s = .next s)
    ∧ ∀ (w : Word) (rest : List HostAction), s.host.script = .write s.build.regBase .word w :: rest →
        step s = .next (after rest s)

/-- 40_stream_bitpacker R160: what acceptance writes, for every word the host can write to CMD; then the checks have either
let the operation issue its first request or ended it. -/
def Obligations.AcceptanceWrites : Prop :=
  ∀ (s : State) (w : Word), s.status.busy = false →
    ∃ t, exec (decodeCommand w) s = .next t
      ∧ t.status.eoi = false ∧ t.status.codec = w.extractLsb' 0 3 ∧ t.status.dir = w.getLsbD 3
      ∧ t.readCount = 0#32 ∧ t.writeCount = 0#32 ∧ t.opCodec = w.extractLsb' 0 3 ∧ t.opDir = w.getLsbD 3 ∧ t.eoi = false
      ∧ t.work.obits = 0x00#8 ∧ t.work.omask = 0x80#8 ∧ t.work.ibits = 0x00#8 ∧ t.work.imask = 0x00#8
      ∧ ((t.status.busy = true ∧ t.status.done = false ∧ t.status.result = .ok ∧ ∃ p, t.seq = .waitPull p)
        ∨ (t.status.busy = false ∧ t.status.done = true ∧ t.status.result ≠ .ok ∧ t.seq = .idle))

/-- 30_encoding R122: every word but the ten is reserved, is accepted while BUSY = 0, and ends at once with InvalidParameters
and no port request. -/
def Obligations.ReservedWordsEndAtOnce : Prop :=
  ∀ s : State, s.status.busy = false →
    (∀ w : Word, w ∉ [0x0#32, 0x8#32, 0x1#32, 0x9#32, 0x2#32, 0xA#32, 0x3#32, 0xB#32, 0x4#32, 0xC#32] →
      exec (decodeCommand w) s = .next (turnedAway (w.extractLsb' 0 3) (w.getLsbD 3) .invalidParameters s))
    ∧ (∀ d, exec (.reservedCodec5 d) s = .next (turnedAway 5#3 d .invalidParameters s))
    ∧ (∀ d, exec (.reservedCodec6 d) s = .next (turnedAway 6#3 d .invalidParameters s))
    ∧ (∀ d, exec (.reservedCodec7 d) s = .next (turnedAway 7#3 d .invalidParameters s))
    ∧ ∀ h d c, exec (.reservedHighbits h d c) s = .next (turnedAway c d .invalidParameters s)

/-- 40_stream_bitpacker R161 to R163: a command whose own configuration register holds an illegal value ends at once with
InvalidParameters; one whose legal parameters need more RAM than the block has, with BufferTooSmall. -/
def Obligations.ParametersAreCheckedInOrder : Prop :=
  ∀ s : State, s.status.busy = false →
    (¬ RleLegal s.rleCfg → exec .rleEnc s = .next (turnedAway 0#3 false .invalidParameters s)
      ∧ exec .rleDec s = .next (turnedAway 0#3 true .invalidParameters s))
    ∧ (¬ LzssLegal s.lzssCfg → exec .lzssEnc s = .next (turnedAway 1#3 false .invalidParameters s)
      ∧ exec .lzssDec s = .next (turnedAway 1#3 true .invalidParameters s))
    ∧ (¬ LzpLegal s.lzpCfg → exec .lzpEnc s = .next (turnedAway 4#3 false .invalidParameters s)
      ∧ exec .lzpDec s = .next (turnedAway 4#3 true .invalidParameters s))
    ∧ (LzssLegal s.lzssCfg → s.build.eiMax < field s.lzssCfg 3 0 →
      exec .lzssEnc s = .next (turnedAway 1#3 false .bufferTooSmall s)
      ∧ exec .lzssDec s = .next (turnedAway 1#3 true .bufferTooSmall s))
    ∧ (LzpLegal s.lzpCfg → s.build.hashOrderMax < field s.lzpCfg 4 0 →
      exec .lzpEnc s = .next (turnedAway 4#3 false .bufferTooSmall s)
      ∧ exec .lzpDec s = .next (turnedAway 4#3 true .bufferTooSmall s))

/-- 42_rle R250, R251, R260 with 10_state R41: `rle.enc` and `rle.dec` latch RL and ROVER and ask for their first byte. -/
def Obligations.RleCommandsStart : Prop :=
  ∀ s : State, s.status.busy = false → RleLegal s.rleCfg →
    exec .rleEnc s = .next (started 0#3 false (rleParams s) { s.work with j := 0, prev := none } .rleTop s)
    ∧ exec .rleDec s = .next (started 0#3 true (rleParams s) { s.work with unit := [] } (.fetched .rle) s)

/-- 41_lzss R201, R221 with 10_state R41: `lzss.enc` and `lzss.dec` latch their parameters, write FILL to WIN[0 .. N-F-1], set
the fill end and the write cursor to N - F, and ask for their first byte. The other bytes of WIN are not stated. -/
def Obligations.LzssCommandsStart : Prop :=
  ∀ s : State, s.status.busy = false → LzssLegal s.lzssCfg → field s.lzssCfg 3 0 ≤ s.build.eiMax →
    let start := 2 ^ field s.lzssCfg 3 0 - (2 ^ field s.lzssCfg 7 4 + (field s.lzssCfg 15 8 - 1))
    (∃ t, exec .lzssEnc s = .next t
      ∧ t = { started 1#3 false (lzssParams s) { s.work with bufferend := start } (.lzssFill false) s with
          win := t.win, epoch := t.epoch }
      ∧ ∀ a, a < start → t.peek .win a = BitVec.ofNat 8 (field s.lzssCfg 23 16))
    ∧ ∃ t, exec .lzssDec s = .next t
      ∧ t = { started 1#3 true (lzssParams s) { s.work with wr := start, unit := [] } (.fetched .lzss) s with
          win := t.win, epoch := t.epoch }
      ∧ ∀ a, a < start → t.peek .win a = BitVec.ofNat 8 (field s.lzssCfg 23 16)

/-- 43_elias_gamma R290, R291, R300; 44_mtf R320, R321, R330: `eg.enc` and `eg.dec` ask for their first byte with empty
accumulators; `mtf.enc` and `mtf.dec` set MTFT to the identity and ask for their first byte. -/
def Obligations.GammaAndMtfCommandsStart : Prop :=
  ∀ s : State, s.status.busy = false →
    exec .egEnc s = .next (started 2#3 false s.params s.work (.egSym 4 0) s)
    ∧ exec .egDec s = .next (started 2#3 true s.params { s.work with unit := [], gcount := 0 } (.fetched .eg) s)
    ∧ (∃ t, exec .mtfEnc s = .next t ∧ t = { started 3#3 false s.params s.work .mtfByte s with mtft := t.mtft }
      ∧ ∀ b : Byte, t.peek .mtft b.toNat = b)
    ∧ ∃ t, exec .mtfDec s = .next t
      ∧ t = { started 3#3 true s.params { s.work with unit := [] } (.fetched .mtf) s with mtft := t.mtft }
      ∧ ∀ b : Byte, t.peek .mtft b.toNat = b

/-- 45_lzp R340, R341, R350: `lzp.enc` and `lzp.dec` latch their parameters, clear LZPT and the hash, and ask for their first
byte. -/
def Obligations.LzpCommandsStart : Prop :=
  ∀ s : State, s.status.busy = false → LzpLegal s.lzpCfg → field s.lzpCfg 4 0 ≤ s.build.hashOrderMax →
    (∃ t, exec .lzpEnc s = .next t
      ∧ t = { started 4#3 false (lzpParams s) { s.work with hash := 0, lmask := 0#8, nlit := 0, bi := 0 } .lzpByte s with
          lzpt := t.lzpt }
      ∧ ∀ a, a < 2 ^ field s.lzpCfg 4 0 → t.peek .lzpt a = 0#8)
    ∧ ∃ t, exec .lzpDec s = .next t
      ∧ t = { started 4#3 true (lzpParams s) { s.work with hash := 0, unit := [] } (.fetched .lzp) s with lzpt := t.lzpt }
      ∧ ∀ a, a < 2 ^ field s.lzpCfg 4 0 → t.peek .lzpt a = 0#8

/-! ## Ports -/

/-- 20_memory R86: the three answers to a pull. (That a connected adapter does not see the host's own answer is the model's choice,
log 26.) -/
def Obligations.PullAnswersTakeEffect : Prop :=
  ∀ (s : State) (p : Point) (a : PullAnswer) (rest : List HostAction), s.seq = .waitPull p →
    s.host.script = .answerPull a :: rest →
    step s = .next (match a with
      | .byte v =>
        { after rest s with readCount := s.readCount + 1#32, work := { s.work with rv := some v }, seq := .run p }
      | .endOfInput =>
        { after rest s with
          eoi := true, status := { s.status with eoi := true }, work := { s.work with rv := none }, seq := .run p }
      | .error => ended .ioFailure (after rest s))

/-- 20_memory R87, R83: the three answers to a push; only Ok counts and hands the byte to the host, in order. (That a
connected adapter does not see the host's own answer is the model's choice, log 26.) -/
def Obligations.PushAnswersTakeEffect : Prop :=
  ∀ (s : State) (p : Point) (v : Byte) (a : PushAnswer) (rest : List HostAction), s.seq = .waitPush p v →
    s.host.script = .answerPush a :: rest →
    step s = .next (match a with
      | .ok =>
        { s with
          writeCount := s.writeCount + 1#32, seq := .run p
          host := { s.host with script := rest, delivered := s.host.delivered ++ [v] } }
      | .full => ended .bufferTooSmall (after rest s)
      | .error => ended .ioFailure (after rest s))

/-- 20_memory R88: with the end latch set a pull returns End at once, with no request; otherwise it is a request. -/
def Obligations.PullAfterEndAsksNothing : Prop :=
  ∀ (s : State) (p : Point),
    (s.eoi = true → s.pull p = { s with work := { s.work with rv := none }, seq := .run p })
    ∧ (s.eoi = false → s.pull p = { s with seq := .waitPull p })
    ∧ (Inv s → s.eoi = true → ∀ t, step s = .next t → t.eoi = true → ∀ q, t.seq ≠ .waitPull q)

/-- 70_reset R414, I4: where the engine is idle or waits on the other port, an answer to a port that has no outstanding request,
and none withdrawn by a reset, is refused. In the control state RUN, where no request is outstanding either, and none withdrawn,
the model lets the engine make its step first and keeps the answer for the request it leads to (the model's choice, log 6). -/
def Obligations.StrayAnswersRefused : Prop :=
  ∀ (s : State) (rest : List HostAction),
    (∀ a, s.host.script = .answerPull a :: rest →
      ((s.seq = .idle ∨ ∃ p v, s.seq = .waitPush p v) → .pull ∉ s.host.withdrawn → step s = .refused .answerWithoutRequest)
      ∧ ∀ p, s.seq = .run p → .pull ∉ s.host.withdrawn → step s = engineStep s)
    ∧ ∀ a, s.host.script = .answerPush a :: rest →
      ((s.seq = .idle ∨ ∃ p, s.seq = .waitPull p) → .push ∉ s.host.withdrawn → step s = .refused .answerWithoutRequest)
      ∧ ∀ p, s.seq = .run p → .push ∉ s.host.withdrawn → step s = engineStep s

/-- 20_memory R98: the buffer-mode adapter answers the outstanding request, whether the script names its answer or is empty. (That
it answers when the script is empty is the model's schedule, log 6; that accepted bytes are counted from the connection on is
the model's reading of R98, log 12.) -/
def Obligations.AdapterAnswers : Prop :=
  ∀ s t : State, (s.host.script = [] ∧ t = s) ∨ (∃ rest, s.host.script = .adapterAnswers :: rest ∧ t = after rest s) →
    (∀ p b rest, s.seq = .waitPull p → s.host.input = some (b :: rest) →
      step s = .next { t with
        readCount := s.readCount + 1#32, work := { s.work with rv := some b }, seq := .run p
        host := { t.host with input := some rest } })
    ∧ (∀ p, s.seq = .waitPull p → s.host.input = some [] →
      step s = .next { t with
        eoi := true, status := { s.status with eoi := true }, work := { s.work with rv := none }, seq := .run p })
    ∧ (∀ p v out, s.seq = .waitPush p v → s.host.output = some out → out.accepted < out.cap →
      step s = .next { t with
        writeCount := s.writeCount + 1#32, seq := .run p
        host := { t.host with
          delivered := s.host.delivered ++ [v]
          output := some ⟨out.cap, out.accepted + 1, Ram.insert s.writeCount.toNat v out.cells⟩ } })
    ∧ ∀ p v out, s.seq = .waitPush p v → s.host.output = some out → out.cap ≤ out.accepted →
      step s = .next (ended .bufferTooSmall t)

/-! ## Rules about every step -/

/-- 10_state R36; 20_memory R83, R86, R87, R89; 60_exceptions R380: whatever happens in a step, WRITE_COUNT and the bytes the host
holds change by one accepted push, READ_COUNT by one byte answer, or the counters fall to 0 by an accepted command or reset;
otherwise all three stay. -/
def Obligations.CountersFollowTheAnswers : Prop :=
  ∀ s t : State, step s = .next t →
    let cleared := (s.status.busy = false ∧ ∃ v rest, s.host.script = .write s.build.regBase .word v :: rest)
      ∨ ∃ rest, s.host.script = .hardwareReset :: rest
    ((t.host.delivered = s.host.delivered ∧ (t.writeCount = s.writeCount ∨ t.writeCount = 0#32 ∧ cleared))
      ∨ ∃ p v, s.seq = .waitPush p v ∧ t.seq = .run p ∧ t.host.delivered = s.host.delivered ++ [v]
          ∧ t.writeCount = s.writeCount + 1#32)
    ∧ (t.readCount = s.readCount ∨ t.readCount = 0#32 ∧ cleared
      ∨ ∃ p v, s.seq = .waitPull p ∧ t.seq = .run p ∧ t.work.rv = some v ∧ t.readCount = s.readCount + 1#32)

/-- 10_state R33 to R35, R41; 20_memory R95; 70_reset R411: no step but the host's own write to a configuration register, or
reset, changes it; no step changes the build; and while an operation runs no step changes its latched parameters or which
operation it is, whatever the host writes. -/
def Obligations.OnlyTheHostReconfigures : Prop :=
  ∀ s t : State, step s = .next t →
    t.build = s.build
    ∧ ((∃ rest, s.host.script = .hardwareReset :: rest)
      ∨ ((t.lzssCfg = s.lzssCfg ∨ ∃ v rest, s.host.script = .write (s.build.regBase + 0x08) .word v :: rest)
        ∧ (t.rleCfg = s.rleCfg ∨ ∃ v rest, s.host.script = .write (s.build.regBase + 0x0C) .word v :: rest)
        ∧ (t.lzpCfg = s.lzpCfg ∨ ∃ v rest, s.host.script = .write (s.build.regBase + 0x10) .word v :: rest)))
    ∧ (s.status.busy = true → t.status.busy = true →
      t.params = s.params ∧ t.opCodec = s.opCodec ∧ t.opDir = s.opDir ∧ t.status.codec = s.status.codec
        ∧ t.status.dir = s.status.dir)

/-- 60_exceptions R373, R374, R376; 40_stream_bitpacker R166, R167: BUSY falls only together with DONE, with the counters, EOI
and the bytes already delivered kept; only reset ends an operation otherwise. -/
def Obligations.OperationsEndWithDone : Prop :=
  ∀ s t : State, step s = .next t → s.status.busy = true → t.status.busy = false →
    (∃ rest, s.host.script = .hardwareReset :: rest)
    ∨ (t.status.done = true ∧ t.seq = .idle ∧ t.readCount = s.readCount ∧ t.writeCount = s.writeCount
      ∧ t.status.eoi = s.status.eoi ∧ t.status.codec = s.status.codec ∧ t.status.dir = s.status.dir
      ∧ t.host.delivered = s.host.delivered)

/-- 60_exceptions R371: no operation but RLE.DEC and EG.DEC ends with CorruptStream. -/
def Obligations.CorruptStreamOnlyFromTwoDecoders : Prop :=
  ∀ s t : State, Inv s → step s = .next t → t.status.result = .corruptStream → s.status.result ≠ .corruptStream →
    s.opDir = true ∧ (s.opCodec = 0#3 ∨ s.opCodec = 2#3)

/-! ## The bit packer -/

/-- 40_stream_bitpacker R180, R181; 20_memory R82: bits are put most significant first; with fewer than eight in all they are
held and the operation goes on; the eighth pushes the byte of the first eight, with the rest still to put; once the byte has
been accepted the accumulator is emptied and the rest is put, in LZSS.ENC, EG.ENC and EG.DEC. -/
def Obligations.PutBitsPacksBytes : Prop :=
  (∀ (held bits : List Bool) (obits omask : Byte), Holds held obits omask →
    ((held ++ bits).length < 8 →
      (packBits bits obits omask).pending = none
      ∧ Holds (held ++ bits) (packBits bits obits omask).obits (packBits bits obits omask).omask)
    ∧ (8 ≤ (held ++ bits).length →
      packBits bits obits omask = ⟨byteOf ((held ++ bits).take 8), 0#8, some ((held ++ bits).drop 8)⟩))
  ∧ (∀ (held bits : List Bool) (onPush : List Bool → Point) (onDone : State → Out) (s : State),
    Holds held s.work.obits s.work.omask →
    ((held ++ bits).length < 8 → ∃ obits omask, Holds (held ++ bits) obits omask
      ∧ putBits bits onPush onDone s = onDone { s with work := { s.work with obits := obits, omask := omask } })
    ∧ (8 ≤ (held ++ bits).length →
      let v := byteOf ((held ++ bits).take 8)
      putBits bits onPush onDone s = .next
        { s with
          work := { s.work with obits := v, omask := 0x00#8 }
          seq := .waitPush (onPush ((held ++ bits).drop 8)) v }))
  ∧ ∀ (rest : List Bool) (s : State),
    let t : State := { s with work := { s.work with obits := 0x00#8, omask := 0x80#8 } }
    advance (.lzssPut rest) s = putBits rest Point.lzssPut lzssAfterUnit t
    ∧ (∀ last, advance (.egPut rest last) s = putBits rest (fun more => .egPut more last)
        (fun u => if last then flushThenFinish .egFlushed u else .next { u with seq := .run .egMain }) t)
    ∧ advance (.egOut rest) s = putBits rest Point.egOut
        (fun u => .next { u with work := { u.work with unit := [], gcount := 0 }, seq := .run (.fetch .eg) }) t

/-- 40_stream_bitpacker R183, R184: `GetBits` takes bits from the accumulator from its mask down, the first one the highest of
the result; when the accumulator runs out it asks for a byte at that place. -/
def Obligations.GetBitsTakesFromTheMaskDown : Prop :=
  ∀ (onPull : Nat → Nat → Point) (onDone : Nat → State → Out) (s : State) (m n x : Nat), m ≤ 8 → n ≤ 15 →
    s.work.imask = 0x80#8 >>> (8 - m) →
    (n ≤ m → getBits onPull onDone n x s
      = onDone (x * 2 ^ n + s.work.ibits.toNat % 2 ^ m / 2 ^ (m - n)) { s with work := { s.work with imask := s.work.imask >>> n } })
    ∧ (m < n → getBits onPull onDone n x s
      = .next (({ s with work := { s.work with imask := 0#8 } }).pull (onPull (n - m) (x * 2 ^ m + s.work.ibits.toNat % 2 ^ m))))

/-! ## LZSS -/

/-- 41_lzss R202: the match search finds the longest common prefix of the cursor and a candidate, capped at `f1`, and among
equals the leftmost; it depends on no byte at or above `r + f1`. -/
def Obligations.MatchSearchLongestLeftmost : Prop :=
  ∀ (win : Nat → Byte) (s r f1 : Nat), 1 ≤ f1 →
    let m := bestMatch win s r f1
    (∀ i, s ≤ i → i < r → ∀ l, l ≤ f1 → (∀ j, j < l → win (i + j) = win (r + j)) → l ≤ m.2)
    ∧ (m = (0, 1)
      ∨ (2 ≤ m.2 ∧ m.2 ≤ f1 ∧ s ≤ m.1 ∧ m.1 < r ∧ (∀ j, j < m.2 → win (m.1 + j) = win (r + j))
        ∧ ∀ i, s ≤ i → i < m.1 → ∃ j, j < m.2 ∧ win (i + j) ≠ win (r + j)))
    ∧ ∀ win' : Nat → Byte, (∀ a, a < r + f1 → win' a = win a) → bestMatch win' s r f1 = m

/-- 41_lzss R203, R207; 30_encoding R125, R126: at the cursor, a best match of length at most P gives a literal, a longer one
a reference to its position modulo N with its length biased by P; the unit's bits are put as the wire format says. -/
def Obligations.LzssEncoderEmitsTheUnit : Prop :=
  ∀ s : State, ParamsOk .lzssEnc s.params s.build → s.work.r < s.work.bufferend → s.work.bufferend ≤ 2 * 2 ^ s.params.ei →
    let f1 := min (2 ^ s.params.ej + (s.params.p - 1)) (s.work.bufferend - s.work.r)
    let m := bestMatch (s.peek .win) s.work.s s.work.r f1
    let short := decide (m.2 ≤ s.params.p)
    let u : Instr :=
      if short then .lzssLiteral (s.peek .win s.work.r)
      else .lzssReference (BitVec.ofNat 15 (m.1 % 2 ^ s.params.ei)) (BitVec.ofNat 8 (m.2 - s.params.p))
    advance .lzssMain s = putBits (encode s.params.wire u) Point.lzssPut lzssAfterUnit
        { s with work := { s.work with f1 := f1, mpos := m.1, mlen := if short then 1 else m.2 } }
      ∧ u.wf s.params.wire = true ∧ (short = false → 1 ≤ m.2 - s.params.p)

/-- 41_lzss R201, R204: a byte of the fill or refill is stored at `bufferend`, which advances; the fill goes on below 2N and stops
there or at End; the first fill then sets the cursor to N - F and the oldest start to 0, and the main loop begins. -/
def Obligations.LzssWindowFills : Prop :=
  ∀ (s : State) (again : Bool), Ram.wf .win s.win → s.work.bufferend < 2 * 2 ^ s.params.ei →
    let n := 2 ^ s.params.ei
    let f := 2 ^ s.params.ej + (s.params.p - 1)
    let main := fun (u : State) =>
      { u with work := if again then u.work else { u.work with r := n - f, s := 0 }, seq := .run .lzssMain }
    (∀ v : Byte, s.work.rv = some v → s.eoi = false → ∃ t, advance (.lzssFill again) s = .next t
      ∧ (let u : State := { s with win := t.win, work := { s.work with bufferend := s.work.bufferend + 1 } }
        t = if s.work.bufferend + 1 < 2 * n then { u with seq := .waitPull (.lzssFill again) } else main u)
      ∧ ∀ a, t.peek .win a = if a = s.work.bufferend then v else s.peek .win a)
    ∧ (s.work.rv = none → advance (.lzssFill again) s = .next (main s))

/-- 41_lzss R204; 20_memory R88: after a unit the cursor and the oldest start advance by its length; when the cursor has reached
2N - F the upper N bytes move down by N and the refill begins, with no request once End has been seen. The moved bytes stated
are those that were written (log 3). -/
def Obligations.WindowSlides : Prop :=
  ∀ s : State, s.params.lookahead ≤ s.params.windowSize → s.work.bufferend ≤ 2 * s.params.windowSize →
    let n := 2 ^ s.params.ei
    let f := 2 ^ s.params.ej + (s.params.p - 1)
    let r := s.work.r + s.work.mlen
    let o := s.work.s + s.work.mlen
    (r < 2 * n - f → lzssAfterUnit s = .next { s with work := { s.work with r := r, s := o }, seq := .run .lzssMain })
    ∧ (2 * n - f ≤ r → ∃ t, lzssAfterUnit s = .next t
        ∧ t = { s with
            win := t.win, seq := if s.eoi then .run (.lzssFill true) else .waitPull (.lzssFill true)
            work := { s.work with
              rv := if s.eoi then none else s.work.rv, r := r - n, s := o - n, bufferend := s.work.bufferend - n } }
        ∧ ∀ a, a < n → Ram.find (a + n) s.win ≠ none → t.peek .win a = s.peek .win (a + n))

/-- 41_lzss R205; 40_stream_bitpacker R182: when the cursor meets the end of the buffered data LZSS.ENC flushes a partial byte
and finishes; with nothing held it finishes at once. `Flush()` at an operation's end does so in EG.ENC and EG.DEC too
(43_elias_gamma R294, R302): once the byte has been accepted the accumulator is emptied and the operation finishes. -/
def Obligations.LzssEncoderEnds : Prop :=
  ∀ s : State,
    (s.seq = .run .lzssMain → s.work.bufferend ≤ s.work.r →
      engineStep s = .next
        (if s.work.omask = 0x80#8 then ended .ok s else { s with seq := .waitPush .lzssFlushed s.work.obits }))
    ∧ (∀ p, flushThenFinish p s
      = .next (if s.work.omask = 0x80#8 then ended .ok s else { s with seq := .waitPush p s.work.obits }))
    ∧ ∀ p ∈ [Point.lzssFlushed, .egFlushed, .egOutFlushed], s.seq = .run p →
      engineStep s = .next (ended .ok { s with work := { s.work with obits := 0x00#8, omask := 0x80#8 } })

/-- 41_lzss R222, R223: a literal unit pushes its byte; a reference pushes the dictionary byte at its position first. -/
def Obligations.LzssUnitsExecute : Prop :=
  ∀ s : State, s.seq = .run (.unit .lzss) →
    (∀ v, exec (.lzssLiteral v) s = .next { s with seq := .waitPush (.lzssLitDone v) v })
    ∧ ∀ (pos : BitVec 15) (len : BitVec 8), 2 ≤ s.params.p →
      exec (.lzssReference pos len) s = .next
        { s with
          work := { s.work with dpos := pos.toNat, dlen := len.toNat }
          seq := .waitPush (.lzssCopied 0 (s.peek .win (pos.toNat % 2 ^ s.params.ei)))
            (s.peek .win (pos.toNat % 2 ^ s.params.ei)) }

/-- 41_lzss R222, R223: after a byte has been accepted it is written at the write cursor, which advances modulo N; a copy then
reads its next source byte, after that write, or ends after dlen + P bytes. -/
def Obligations.LzssDictionaryFollowsTheOutput : Prop :=
  ∀ (s : State) (v : Byte), Ram.wf .win s.win → s.work.wr < 2 ^ s.params.ei →
    let n := 2 ^ s.params.ei
    let win := fun a => if a = s.work.wr then v else s.peek .win a
    (∃ t, advance (.lzssLitDone v) s = .next t
      ∧ t = { s with
          win := t.win, work := { s.work with wr := (s.work.wr + 1) % n, unit := [] }, seq := .run (.fetch .lzss) }
      ∧ ∀ a, t.peek .win a = win a)
    ∧ ∀ k, (k + 1 < s.work.dlen + s.params.p → ∃ t, advance (.lzssCopied k v) s = .next t
        ∧ t = { s with
            win := t.win, work := { s.work with wr := (s.work.wr + 1) % n }
            seq := .waitPush (.lzssCopied (k + 1) (win ((s.work.dpos + (k + 1)) % n))) (win ((s.work.dpos + (k + 1)) % n)) }
        ∧ ∀ a, t.peek .win a = win a)
      ∧ (s.work.dlen + s.params.p ≤ k + 1 → ∃ t, advance (.lzssCopied k v) s = .next t
        ∧ t = { s with
            win := t.win, work := { s.work with wr := (s.work.wr + 1) % n, unit := [] }, seq := .run (.fetch .lzss) }
        ∧ ∀ a, t.peek .win a = win a)

/-! ## RLE -/

/-- 42_rle R252 to R254, R256: at the loop test, a byte that differs from `prev` becomes `prev` and goes to the literal buffer,
which is flushed when it holds RL - 1 bytes; a byte equal to `prev` starts a run count; End flushes the literal buffer, or ends
the operation when it is empty. -/
def Obligations.RleLiteralIsBuffered : Prop :=
  ∀ s : State, s.seq = .run .rleTop → Ram.wf .rleb s.rleb → s.work.j + 2 ≤ s.params.rl →
    (∀ b : Byte, s.work.rv = some b → s.work.prev ≠ some b → s.eoi = false →
      ∃ t, engineStep s = .next t
        ∧ t = { s with
            rleb := t.rleb, work := { s.work with prev := some b, j := s.work.j + 1 }
            seq := if s.work.j + 2 = s.params.rl
              then .waitPush (.rleLits 0 .afterAppend) (BitVec.ofNat 8 (s.params.rl + (s.work.j + 1))) else .waitPull .rleTop }
        ∧ ∀ a, t.peek .rleb a = if a = s.work.j then b else s.peek .rleb a)
    ∧ (∀ b : Byte, s.work.rv = some b → s.work.prev = some b → s.eoi = false →
      engineStep s = .next { s with work := { s.work with k := 1, full := false }, seq := .waitPull .rleCount })
    ∧ (s.work.rv = none →
      engineStep s = .next (if s.work.j = 0 then ended .ok s
        else { s with seq := .waitPush (.rleLits 0 .atEnd) (BitVec.ofNat 8 (s.params.rl + s.work.j)) }))

/-- 42_rle R252, R254, R255: inside `FlushLit()` the buffered bytes are pushed in the order they were appended; then the buffer is
empty and the operation goes on where the flush was called, a short run's remaining bytes being appended; a run block is its
command byte, then the run's byte, and after a full count a fresh byte is pulled. -/
def Obligations.RleBlocksArePushedInOrder : Prop :=
  ∀ (s : State) (t : Nat) (ret : FlushReturn),
    (s.seq = .run (.rleLits t ret) → t < s.work.j → s.work.j + 1 ≤ s.params.rl →
      engineStep s = .next { s with seq := .waitPush (.rleLits (t + 1) ret) (s.peek .rleb t) })
    ∧ (s.seq = .run (.rleLits s.work.j .afterAppend) → s.eoi = false →
      engineStep s = .next { s with work := { s.work with j := 0 }, seq := .waitPull .rleTop })
    ∧ (∀ left b, s.work.prev = some b → Ram.wf .rleb s.rleb → 2 ≤ s.params.rl →
      (left + 1 < s.params.rl → s.work.full = false →
        ∃ u, advance (.rleLits s.work.j (.afterRepeat left)) s = .next u
          ∧ u = { s with rleb := u.rleb, work := { s.work with j := left }, seq := .run .rleTop }
          ∧ ∀ a, u.peek .rleb a = if a < left then b else s.peek .rleb a)
      ∧ (s.params.rl ≤ left + 1 → s.seq = .run (.rleLits s.work.j (.afterRepeat left)) →
        ∃ u, engineStep s = .next u
          ∧ u = { s with
              rleb := u.rleb, work := { s.work with j := s.params.rl - 1 }
              seq := .waitPush (.rleLits 0 (.afterRepeat (left + 1 - s.params.rl)))
                (BitVec.ofNat 8 (s.params.rl + (s.params.rl - 1))) }
          ∧ ∀ a, u.peek .rleb a = if a < s.params.rl - 1 then b else s.peek .rleb a))
    ∧ (s.seq = .run (.rleLits s.work.j .toRun) →
      engineStep s = .next
        { s with
          work := { s.work with j := 0 }
          seq := .waitPush .rleRunCmd (BitVec.ofNat 8 (s.work.k - 1 - s.params.rover)) })
    ∧ (s.seq = .run (.rleLits s.work.j .atEnd) → engineStep s = .next (ended .ok { s with work := { s.work with j := 0 } }))
    ∧ (∀ b, s.seq = .run .rleRunCmd → s.work.prev = some b → engineStep s = .next { s with seq := .waitPush .rleRunByte b })
    ∧ (s.seq = .run .rleRunByte → s.work.full = true → s.eoi = false → engineStep s = .next { s with seq := .waitPull .rleTop })
    ∧ (s.work.full = false → advance .rleRunByte s = .next { s with seq := .run .rleTop })

/-- 42_rle R254 to R256: a counted byte equal to `prev` adds one, up to RL + ROVER; another byte, or End, ends the run; a run
longer than ROVER is emitted, after the literal buffer; a shorter one joins the literal buffer, which is flushed on the way when
it becomes full. -/
def Obligations.RleRunIsCountedAndEmitted : Prop :=
  ∀ s : State, s.seq = .run .rleCount → Ram.wf .rleb s.rleb → ParamsOk .rleEnc s.params s.build → WorkOk .rleCount s →
    let emitted := fun (u : State) =>
      if u.work.j = 0 then { u with seq := .waitPush .rleRunCmd (BitVec.ofNat 8 (u.work.k - 1 - u.params.rover)) }
      else { u with seq := .waitPush (.rleLits 0 .toRun) (BitVec.ofNat 8 (u.params.rl + u.work.j)) }
    (s.work.rv = s.work.prev → s.work.k + 1 < s.params.rl + s.params.rover → s.eoi = false →
      engineStep s = .next { s with work := { s.work with k := s.work.k + 1 }, seq := .waitPull .rleCount })
    ∧ (s.work.rv = s.work.prev → s.work.k + 1 = s.params.rl + s.params.rover →
      engineStep s = .next (emitted { s with work := { s.work with k := s.work.k + 1, full := true } }))
    ∧ (s.work.rv ≠ s.work.prev → s.params.rover < s.work.k → engineStep s = .next (emitted s))
    ∧ (s.work.rv ≠ s.work.prev → s.work.k ≤ s.params.rover → s.work.full = false → s.work.j + s.work.k + 1 < s.params.rl →
      ∃ t, advance .rleCount s = .next t
        ∧ t = { s with rleb := t.rleb, work := { s.work with j := s.work.j + s.work.k }, seq := .run .rleTop }
        ∧ ∀ a, some (t.peek .rleb a)
          = if s.work.j ≤ a ∧ a < s.work.j + s.work.k then s.work.prev else some (s.peek .rleb a))
    ∧ (s.work.rv ≠ s.work.prev → s.work.k ≤ s.params.rover → s.params.rl ≤ s.work.j + s.work.k + 1 →
      ∃ t, engineStep s = .next t
        ∧ t = { s with
            rleb := t.rleb, work := { s.work with j := s.params.rl - 1 }
            seq := .waitPush (.rleLits 0 (.afterRepeat (s.work.j + s.work.k + 1 - s.params.rl)))
              (BitVec.ofNat 8 (s.params.rl + (s.params.rl - 1))) }
        ∧ ∀ a, some (t.peek .rleb a)
          = if s.work.j ≤ a ∧ a < s.params.rl - 1 then s.work.prev else some (s.peek .rleb a))

/-- 42_rle R261, R262: a command byte above RL starts a literal block of c - RL bytes; one at most RL, with its payload byte,
a run of c + 1 + ROVER copies. -/
def Obligations.RleUnitsExecute : Prop :=
  ∀ s : State, s.seq = .run (.unit .rle) → s.eoi = false →
    (∀ c : Byte, s.params.rl < c.toNat →
      exec (.rleLiteralBlock c) s = .next
        { s with work := { s.work with c := c }, seq := .waitPull (.rleLitByte (c.toNat - s.params.rl)) })
    ∧ ∀ c b : Byte,
      exec (.rleRunBlock c b) s = .next
        { s with
          work := { s.work with c := c, n := c.toNat + 1 + s.params.rover }
          seq := .waitPush (.rleRunDone (c.toNat + s.params.rover) b) b }

/-- 42_rle R261 to R263: inside a block, each payload byte is pushed as soon as it is pulled and End is CorruptStream; a run's
remaining copies follow without a pull; after the last, the next command byte is pulled. -/
def Obligations.RleBlocksRunOut : Prop :=
  ∀ s : State,
    (∀ left v, s.seq = .run (.rleLitByte left) → s.work.rv = some v →
      engineStep s = .next { s with seq := .waitPush (.rleLitDone (left - 1)) v })
    ∧ (∀ left, s.seq = .run (.rleLitByte left) → s.work.rv = none → engineStep s = .next (ended .corruptStream s))
    ∧ (∀ left, s.seq = .run (.rleLitDone (left + 1)) → s.eoi = false →
      engineStep s = .next { s with seq := .waitPull (.rleLitByte (left + 1)) })
    ∧ (∀ left v, s.seq = .run (.rleRunDone (left + 1) v) →
      engineStep s = .next { s with seq := .waitPush (.rleRunDone left v) v })
    ∧ ∀ v, s.seq = .run (.rleLitDone 0) ∨ s.seq = .run (.rleRunDone 0 v) → s.eoi = false →
      engineStep s = .next { s with work := { s.work with unit := [] }, seq := .waitPull (.fetched .rle) }

/-! ## Elias-Gamma -/

/-- 30_encoding R129; 43_elias_gamma R290 to R294: the gamma code that the encoder writes, for every value, is the one of the
table; EG.ENC reads the high nibble of a fresh byte, then the low one, and puts the code of each nibble plus one; at End it
puts the code of 17 and flushes. -/
def Obligations.GammaEncoderWritesTheTable : Prop :=
  (List.range 17).map (fun k => gammaBits (k + 1)) =
    [bits [0], bits [1, 0, 0], bits [1, 0, 1], bits [1, 1, 0, 0, 0], bits [1, 1, 0, 0, 1], bits [1, 1, 0, 1, 0],
      bits [1, 1, 0, 1, 1], bits [1, 1, 1, 0, 0, 0, 0], bits [1, 1, 1, 0, 0, 0, 1], bits [1, 1, 1, 0, 0, 1, 0],
      bits [1, 1, 1, 0, 0, 1, 1], bits [1, 1, 1, 0, 1, 0, 0], bits [1, 1, 1, 0, 1, 0, 1], bits [1, 1, 1, 0, 1, 1, 0],
      bits [1, 1, 1, 0, 1, 1, 1], bits [1, 1, 1, 1, 0, 0, 0, 0, 0], bits [1, 1, 1, 1, 0, 0, 0, 0, 1]]
  ∧ ∀ s : State,
    (∀ v, s.work.rv = some v →
      advance (.egSym 4 0) s = egPutStep (gammaBits (v.toNat / 16 + 1)) false
        { s with work := { s.work with ibits := v, imask := 0x08#8 } })
    ∧ (s.work.imask = 0x08#8 →
      advance .egMain s = egPutStep (gammaBits (s.work.ibits.toNat % 16 + 1)) false
        { s with work := { s.work with imask := 0x00#8 } })
    ∧ (s.work.imask = 0x00#8 → s.eoi = false → advance .egMain s = .next { s with seq := .waitPull (.egSym 4 0) })
    ∧ (s.work.rv = none →
      advance (.egSym 4 0) s = putBits (gammaBits 17) (fun rest => .egPut rest true) (flushThenFinish .egFlushed) s)

/-- 43_elias_gamma R300, R301, R304: each of the sixteen symbol codes puts its symbol as four bits on the output; the fourth of a
byte's low half pushes it; with no push the next code begins, its count 0. -/
def Obligations.GammaSymbolsExecute : Prop :=
  ∀ (s : State) (m : Nat), s.seq = .run (.unit .eg) → m < 8 → s.work.omask = 0x80#8 >>> m →
    ∀ x ∈ [(Instr.egSymbol0, 0), (.egSymbol1, 1), (.egSymbol2, 2), (.egSymbol3, 3), (.egSymbol4, 4), (.egSymbol5, 5),
      (.egSymbol6, 6), (.egSymbol7, 7), (.egSymbol8, 8), (.egSymbol9, 9), (.egSymbol10, 10), (.egSymbol11, 11),
      (.egSymbol12, 12), (.egSymbol13, 13), (.egSymbol14, 14), (.egSymbol15, 15)],
      exec x.1 s = .next
        (if m < 4 then
          { s with
            work := { s.work with
              gcount := 0, gval := x.2 + 1, unit := []
              obits := s.work.obits ||| BitVec.ofNat 8 (x.2 * 2 ^ (4 - m)), omask := 0x80#8 >>> (m + 4) }
            seq := .run (.fetch .eg) }
        else
          { s with
            work := { s.work with
              gcount := Nat.log2 (x.2 + 1), gval := x.2 + 1
              obits := s.work.obits ||| BitVec.ofNat 8 (x.2 / 2 ^ (m - 4)), omask := 0x00#8 }
            seq := .waitPush (.egOut (bitsOf (m - 4) x.2)) (s.work.obits ||| BitVec.ofNat 8 (x.2 / 2 ^ (m - 4))) })

/-- 43_elias_gamma R302, R303: the terminal code flushes a half byte and finishes, reading nothing more; a value above 17 or a
fifth one bit is CorruptStream, with no flush. (That `gcount` is left at 5 there is read from the pseudocode of R300, log 25.) -/
def Obligations.GammaTerminalAndInvalidCodesExecute : Prop :=
  ∀ s : State, s.seq = .run (.unit .eg) →
    (exec .egTerminal s = .next
      (if s.work.omask = 0x80#8 then ended .ok { s with work := { s.work with gcount := 4, gval := 17 } }
      else { s with work := { s.work with gcount := 4, gval := 17 }, seq := .waitPush .egOutFlushed s.work.obits }))
    ∧ (∀ x : BitVec 4, exec (.egInvalidValue x) s = .next
      (ended .corruptStream { s with work := { s.work with gcount := 4, gval := 16 + x.toNat } }))
    ∧ exec .egInvalidPrefix s = .next (ended .corruptStream { s with work := { s.work with gcount := 5 } })

/-! ## MTF and LZP -/

/-- 44_mtf R320: the promotion moves the entry at rank `i` to rank 0 and every entry before it down by one, leaves the others,
and keeps a permutation one; at rank 0 it changes nothing. -/
def Obligations.PromotionMovesToFront : Prop :=
  ∀ (s : State) (i : Nat) (b : Byte), (∀ sp, Ram.wf sp (s.ram sp)) → i < 256 → s.peek .mtft i = b →
    (promote i b s).peek .mtft 0 = b
    ∧ (∀ t, 1 ≤ t → t ≤ i → (promote i b s).peek .mtft t = s.peek .mtft (t - 1))
    ∧ (∀ t, i < t → (promote i b s).peek .mtft t = s.peek .mtft t)
    ∧ (Permutation s → Permutation (promote i b s))
    ∧ (i = 0 → ∀ t, (promote i b s).peek .mtft t = s.peek .mtft t)
    ∧ promote i b s = { s with mtft := (promote i b s).mtft }

/-- 44_mtf R321, R322: MTF.ENC pushes the one rank that holds the byte, and after the push promotes it and pulls on; End ends
the operation. -/
def Obligations.MtfEncoderPushesTheRank : Prop :=
  ∀ (s : State) (b : Byte), Permutation s →
    (s.seq = .run .mtfByte → s.work.rv = some b →
      ∃ i : Byte, s.peek .mtft i.toNat = b ∧ (∀ k, k < 256 → s.peek .mtft k = b → k = i.toNat)
        ∧ engineStep s = .next { s with work := { s.work with rank := i }, seq := .waitPush (.mtfRanked b) i })
    ∧ (s.seq = .run .mtfByte → s.work.rv = none → engineStep s = .next (ended .ok s))
    ∧ (s.seq = .run (.mtfRanked b) → s.eoi = false →
      engineStep s = .next { promote s.work.rank.toNat b s with seq := .waitPull .mtfByte })

/-- 44_mtf R330: `mtf.rank` pushes the byte at that rank; after the push MTF.DEC promotes it and pulls on. -/
def Obligations.MtfRankExecutes : Prop :=
  ∀ s : State,
    (∀ r : Byte, s.seq = .run (.unit .mtf) →
      exec (.mtfRank r) s = .next
        { s with work := { s.work with rank := r }, seq := .waitPush (.mtfOut (s.peek .mtft r.toNat)) (s.peek .mtft r.toNat) })
    ∧ ∀ b : Byte, s.seq = .run (.mtfOut b) → s.eoi = false →
      engineStep s = .next
        { promote s.work.rank.toNat b s with work := { s.work with unit := [] }, seq := .waitPull (.fetched .mtf) }

/-- 44_mtf R331: from equal tables, MTF.ENC on a byte and MTF.DEC on the rank it pushes give the byte back and reach equal
tables. -/
def Obligations.MtfDirectionsStayInStep : Prop :=
  ∀ (e d : State) (b : Byte),
    (∀ sp, Ram.wf sp (e.ram sp)) → (∀ sp, Ram.wf sp (d.ram sp)) → Permutation e → (∀ a, a < 256 → d.peek .mtft a = e.peek .mtft a) →
    e.seq = .run .mtfByte → e.work.rv = some b → e.eoi = false → d.seq = .run (.fetched .mtf) → d.work.unit = [] → d.eoi = false →
    ∃ r e1 e2 d1 d2,
      engineStep e = .next e1 ∧ e1.seq = .waitPush (.mtfRanked b) r ∧ engineStep { e1 with seq := .run (.mtfRanked b) } = .next e2
      ∧ engineStep { d with work := { d.work with rv := some r } } = .next d1 ∧ d1.seq = .waitPush (.mtfOut b) b
      ∧ engineStep { d1 with seq := .run (.mtfOut b) } = .next d2
      ∧ e2.seq = .waitPull .mtfByte ∧ d2.seq = .waitPull (.fetched .mtf) ∧ Permutation e2
      ∧ ∀ a, a < 256 → d2.peek .mtft a = e2.peek .mtft a

/-- 45_lzp R340: the start state's table and hash, and the hash update, truncated to HASH_ORDER bits. -/
def Obligations.LzpHashRollsForward : Prop :=
  ∀ s : State,
    ((∀ a, a < 2 ^ s.params.hashOrder → s.clearPredictor.peek .lzpt a = 0#8) ∧ s.clearPredictor.work.hash = 0)
    ∧ ∀ b : Byte, s.nextHash b
      = { s with work := { s.work with hash := ((s.work.hash * 16) ^^^ b.toNat) % 2 ^ s.params.hashOrder } }

/-- 45_lzp R342: a byte equal to the prediction sets its mask bit and writes nothing; another one is written to the table and
joins the literals; either way the hash advances, and the block goes on or is emitted. -/
def Obligations.LzpEncoderPredicts : Prop :=
  ∀ (s : State) (b : Byte), s.seq = .run .lzpByte → s.work.rv = some b → s.eoi = false → Running .lzpByte s →
    (∀ sp, Ram.wf sp (s.ram sp)) →
    let hit := decide (s.peek .lzpt s.work.hash = b)
    let mask := if hit then s.work.lmask ||| (1#8 <<< s.work.bi) else s.work.lmask
    ∃ t, engineStep s = .next t
      ∧ t = { s with
          lzpt := t.lzpt, litb := t.litb
          work := { s.work with
            lmask := mask, nlit := if hit then s.work.nlit else s.work.nlit + 1, bi := s.work.bi + 1
            hash := ((s.work.hash * 16) ^^^ b.toNat) % 2 ^ s.params.hashOrder }
          seq := if s.work.bi + 1 < s.params.blockLength then .waitPull .lzpByte else .waitPush (.lzpLits 0) mask }
      ∧ (∀ a, t.peek .lzpt a = if a = s.work.hash then b else s.peek .lzpt a)
      ∧ ∀ a, t.peek .litb a = if hit = false ∧ a = s.work.nlit then b else s.peek .litb a

/-- 45_lzp R343, R344: at End an empty block ends the operation, and a begun one is emitted, mask first; then the literals in
order; then the operation ends if End has been seen, and otherwise a new block begins. -/
def Obligations.LzpBlockIsEmitted : Prop :=
  ∀ s : State, 1 ≤ s.params.blockLength →
    (s.seq = .run .lzpByte → s.work.rv = none →
      engineStep s = .next (if s.work.bi = 0 then ended .ok s else { s with seq := .waitPush (.lzpLits 0) s.work.lmask }))
    ∧ (∀ t, s.seq = .run (.lzpLits t) → t < s.work.nlit → s.work.nlit ≤ s.params.blockLength →
      engineStep s = .next { s with seq := .waitPush (.lzpLits (t + 1)) (s.peek .litb t) })
    ∧ ∀ t, s.seq = .run (.lzpLits t) → s.work.nlit ≤ t →
      engineStep s = .next (if s.eoi then ended .ok s
        else { s with work := { s.work with lmask := 0#8, nlit := 0, bi := 0 }, seq := .waitPull .lzpByte })

/-- 45_lzp R350 to R352: a mask byte is taken bit by bit from bit 0, a set bit pushing the predicted byte, a clear one asking for
a literal; a literal is written to the table and pushed, End there ends the operation; after each byte the hash and the bit
index advance, and bits from BLOCK_LENGTH on are ignored. -/
def Obligations.LzpBlockExecutes : Prop :=
  ∀ (s : State) (b : Byte), (∀ sp, Ram.wf sp (s.ram sp)) → s.work.hash < 2 ^ s.params.hashOrder →
    (∀ m : Byte, s.seq = .run (.unit .lzp) → 1 ≤ s.params.blockLength → s.eoi = false →
      exec (.lzpBlock m) s = .next
        (if m.getLsbD 0 then
          { s with
            work := { s.work with lmask := m, bi := 0 }
            seq := .waitPush (.lzpOut (s.peek .lzpt s.work.hash)) (s.peek .lzpt s.work.hash) }
        else { s with work := { s.work with lmask := m, bi := 0 }, seq := .waitPull .lzpLiteral }))
    ∧ (s.seq = .run .lzpLiteral → s.work.rv = some b → ∃ t, engineStep s = .next t
      ∧ t = { s with lzpt := t.lzpt, seq := .waitPush (.lzpOut b) b }
      ∧ ∀ a, t.peek .lzpt a = if a = s.work.hash then b else s.peek .lzpt a)
    ∧ (s.seq = .run .lzpLiteral → s.work.rv = none → engineStep s = .next (ended .ok s))
    ∧ (s.seq = .run (.lzpOut b) → s.eoi = false →
      let h := ((s.work.hash * 16) ^^^ b.toNat) % 2 ^ s.params.hashOrder
      let i := s.work.bi + 1
      engineStep s = .next
        (if i < s.params.blockLength then
          if s.work.lmask.getLsbD i then
            { s with work := { s.work with hash := h, bi := i }, seq := .waitPush (.lzpOut (s.peek .lzpt h)) (s.peek .lzpt h) }
          else { s with work := { s.work with hash := h, bi := i }, seq := .waitPull .lzpLiteral }
        else { s with work := { s.work with hash := h, bi := i, unit := [] }, seq := .waitPull (.fetched .lzp) }))

/-- 45_lzp R353: from equal tables and hashes, LZP.ENC on a byte and LZP.DEC on what the encoder sends for it (a set bit, or a
clear bit and the literal) give the byte back and reach equal tables and hashes. -/
def Obligations.LzpDirectionsStayInStep : Prop :=
  ∀ (e d : State) (b : Byte),
    (∀ sp, Ram.wf sp (e.ram sp)) → (∀ sp, Ram.wf sp (d.ram sp)) → Running .lzpByte e → d.params.hashOrder = e.params.hashOrder →
    d.work.hash = e.work.hash → (∀ a, d.peek .lzpt a = e.peek .lzpt a) → e.seq = .run .lzpByte → e.work.rv = some b →
    e.eoi = false → d.eoi = false →
    let hit := decide (e.peek .lzpt e.work.hash = b)
    (hit = true → d.work.bi < d.params.blockLength ∧ d.work.lmask.getLsbD d.work.bi = true) →
    (hit = false → d.seq = .run .lzpLiteral ∧ d.work.rv = some b) →
    ∃ e1 d1 d2, engineStep e = .next e1
      ∧ (if hit then lzpBitHead d else engineStep d) = .next d1 ∧ d1.seq = .waitPush (.lzpOut b) b
      ∧ engineStep { d1 with seq := .run (.lzpOut b) } = .next d2
      ∧ d2.work.hash = e1.work.hash ∧ ∀ a, d2.peek .lzpt a = e1.peek .lzpt a

/-! ## Fetch and decode -/

/-- 41_lzss R224; 42_rle R263; 43_elias_gamma R303 (c); 44_mtf R330; 45_lzp R352: what End does where a unit's bits are asked
for. -/
def Obligations.DecodersMeetTheEnd : Prop :=
  ∀ (s : State) (d : Decoder), s.seq = .run (.fetched d) → s.work.rv = none →
    engineStep s = .next (match d with
      | .lzss => ended .ok s
      | .rle => if s.work.unit = [] then ended .ok s else ended .corruptStream s
      | .eg => ended .corruptStream s
      | .mtf => ended .ok s
      | .lzp => ended .ok s)

/-- 40_stream_bitpacker R160, R165, R183: a step whose next action is a word write to CMD is exec of the command that the word
decodes to, with the action taken off the script. When a decoder's next bits complete a unit, the step is exec of the unit that
they decode to, followed by the rest of the atomic step up to its next port request; when they do not, the decoder keeps them
and reads on; with no bit left to take it pulls a byte. An atomic step is `advance` at every point it passes, until the engine
waits on a port or is idle; a step in RUN with an empty script, and one that the script names, is the atomic step. (The model's
forms: a unit is executed as an instruction of its own, log 9; an empty script lets the engine move, log 6; `work.unit` and
`noteUnit` keep a partial unit, log 7; the atomic step is `settle` with its bound, log 8.) -/
def Obligations.StepRunsTheDecodedInstruction : Prop :=
  (∀ (s : State) (w : Word) (rest : List HostAction), s.host.script = .write s.build.regBase .word w :: rest →
    step s = exec (decodeCommand w) (after rest s))
  ∧ (∀ (s : State) (d : Decoder) (bits : List Bool) (t : State), s.host.script = [] →
    (s.seq = .run (.fetch d) ∧ (d = .lzss ∨ d = .eg) ∧ s.work.imask ≠ 0#8
        ∧ bits = [decide (s.work.ibits &&& s.work.imask ≠ 0#8)]
        ∧ t = { s with work := { s.work with imask := s.work.imask >>> 1 } }
      ∨ ∃ v : Byte, s.seq = .run (.fetched d) ∧ s.work.rv = some v
        ∧ ((d = .lzss ∨ d = .eg) ∧ bits = [v.getLsbD 7] ∧ t = { s with work := { s.work with ibits := v, imask := 0x40#8 } }
          ∨ (d = .rle ∨ d = .mtf ∨ d = .lzp) ∧ bits = bitsOf 8 v.toNat ∧ t = s)) →
    (∀ i rest, decode d.family s.params.wire (s.work.unit ++ bits) = .ok (i, rest) →
      step s = Out.andThen (exec i { t with work := { t.work with unit := [] }, seq := .run (.unit d) }) (settle (settleFuel - 1)))
    ∧ (∀ e, decode d.family s.params.wire (s.work.unit ++ bits) = .error e →
      step s = settle (settleFuel - 1)
        (noteUnit d { t with work := { t.work with unit := s.work.unit ++ bits }, seq := .run (.fetch d) })))
  ∧ (∀ (s : State) (d : Decoder), s.host.script = [] → s.seq = .run (.fetch d) → (d = .lzss ∨ d = .eg → s.work.imask = 0#8) →
    s.eoi = false → step s = .next { s with seq := .waitPull (.fetched d) })
  ∧ (∀ (s : State) (p : Point), s.seq = .run p →
    engineStep s = (advance p s).andThen (settle (settleFuel - 1))
    ∧ (∀ n, settle (n + 1) s = (advance p s).andThen (settle n))
    ∧ (s.host.script = [] → step s = engineStep s))
  ∧ (∀ (s : State) (n : Nat), (∀ p, s.seq ≠ .run p) → settle n s = .next s)
  ∧ ∀ (s : State) (rest : List HostAction), s.host.script = .engineSteps :: rest → step s = engineStep (after rest s)

/-- A wire unit outside the decode operation that has just read it is refused: the model's choice (log 9), since no rule gives
a unit an effect there. -/
def Obligations.UnitsBelongToTheirDecoder : Prop :=
  ∀ (s : State) (i : Instr) (d : Decoder), i.family = d.family → s.seq ≠ .run (.unit d) →
    exec i s = .refused .unitOutsideItsDecoder

/-- 30_encoding R121, R122, R125, R128, R129, R131, R132: a few words written out from the tables decode to their instructions. -/
def Obligations.WordsDecode : Prop :=
  decodeCommand 0x00000009#32 = .lzssDec ∧ decodeCommand 0x00000002#32 = .egEnc ∧ decodeCommand 0x0000000D#32 = .reservedCodec5 true
  ∧ decodeCommand 0x00000010#32 = .reservedHighbits 1#28 false 0#3
  ∧ decode .lzss Wire.default (bits [1, 0, 1, 1, 0, 0, 0, 0, 1]) = .ok (.lzssLiteral 0x61#8, [])
  ∧ decode .lzss Wire.default (bits [0, 1, 1, 1, 1, 1, 1, 0, 1, 1, 1, 1, 0, 0, 0, 1]) = .ok (.lzssReference 2031#15 1#8, [])
  ∧ decode .rle Wire.default (bits [1, 0, 0, 0, 0, 0, 0, 1]) = .ok (.rleLiteralBlock 0x81#8, [])
  ∧ decode .rle Wire.default (bits [1, 0, 0, 0, 0, 0, 0, 0, 0, 1, 0, 0, 0, 0, 0, 1]) = .ok (.rleRunBlock 0x80#8 0x41#8, [])
  ∧ decode .eg Wire.default (bits [1, 1, 0, 1, 1]) = .ok (.egSymbol6, [])
  ∧ decode .eg Wire.default (bits [1, 1, 1, 1, 0, 0, 0, 0, 1]) = .ok (.egTerminal, [])
  ∧ decode .eg Wire.default (bits [1, 1, 1, 1, 0, 0, 0, 1, 0]) = .ok (.egInvalidValue 2#4, [])
  ∧ decode .eg Wire.default (bits [1, 1, 1, 1, 1]) = .ok (.egInvalidPrefix, [])
  ∧ decode .mtf Wire.default (bits [0, 1, 1, 0, 0, 0, 1, 0]) = .ok (.mtfRank 0x62#8, [])
  ∧ decode .lzp Wire.default (bits [0, 0, 0, 0, 0, 0, 0, 1]) = .ok (.lzpBlock 0x01#8, [])

/-- 30_encoding R120 to R132: the encoding of every well-formed instruction, under any parameters and whatever follows it,
decodes to that instruction and leaves what follows. -/
def Obligations.EncodingsDecodeBack : Prop :=
  ∀ (w : Wire) (i : Instr) (rest : List Bool), i.wf w = true → decode i.family w (encode w i ++ rest) = .ok (i, rest)

/-- 30_encoding R121 to R134: what the decoder reads is a well-formed instruction of its grammar whose encoding is exactly the
bits it took, so no two units share a prefix and every command word has one meaning. -/
def Obligations.DecodedBitsEncodeBack : Prop :=
  ∀ (f : Family) (w : Wire) (l rest : List Bool) (i : Instr), w.ei ≤ 15 → w.ej ≤ 8 → decode f w l = .ok (i, rest) →
    i.family = f ∧ i.wf w = true ∧ l = encode w i ++ rest

/-- 30_encoding R127: the first bit tells an LZSS unit's length, and under legal parameters up to seven padding zeros are never
a whole unit. -/
def Obligations.LzssPaddingIsNoUnit : Prop :=
  ∀ (w : Wire) (l : List Bool),
    ((∃ r, decode .lzss w (true :: l) = .ok r) ↔ 8 ≤ l.length)
    ∧ ((∃ r, decode .lzss w (false :: l) = .ok r) ↔ w.ei + w.ej ≤ l.length)
    ∧ (6 ≤ w.ei → 1 ≤ w.ej → ∀ k, k ≤ 7 → ∃ e, decode .lzss w (List.replicate k false) = .error e)

/-! ## The invariant -/

/-- 10_state R44; 20_memory R81: under a legal build and accepted parameters, the part of each RAM that the operation uses lies
inside that RAM. -/
def Obligations.UsedPartsFitTheRams : Prop :=
  ∀ (op : Op) (q : Params) (b : Build) (sp : Space), b.Legal → ParamsOk op q b → usedPart op q sp ≤ ramSize b sp

/-- The invariant holds after reset (10_state R32, R50; 70_reset R400). -/
def Obligations.InvariantAtReset : Prop := Inv State.reset

/-- THE INVARIANT IS KEPT BY EVERY STEP, whatever the host does (10_state R32, R42, R45; 20_memory R88; 41_lzss R206; 42_rle R252;
44_mtf R320; 45_lzp R342): BUSY means not IDLE, BUSY and DONE exclude each other, the RAMs are canonical, the configuration's
reserved bits are 0, the masks are one-hot, the cursors and counts are in their ranges, MTFT is a permutation. -/
def Obligations.InvariantIsKept : Prop := ∀ s t : State, Inv s → step s = .next t → Inv t

/-- 20_memory R81, R90; 70_reset R414; I4, I5: from every state that meets the invariant, no step ends in the fault of a RAM access
outside the used part; and a step is refused only for a host access inside the window that is not an aligned word, or for an
answer to a port that has no outstanding request and none withdrawn by a reset. (Which accesses are checked is told in log 16;
that the two are refused, and how far, is log 15.) -/
def Obligations.StepsNeverFault : Prop :=
  ∀ s : State, Inv s →
    Safe s ∧ ∀ r, step s = .refused r →
      (r = .registerAccessShape ∧ ∃ addr width v rest,
        (s.host.script = .read addr width :: rest ∨ s.host.script = .write addr width v :: rest)
          ∧ s.build.regBase ≤ addr ∧ addr < s.build.regBase + 32 ∧ (width ≠ .word ∨ (addr - s.build.regBase) % 4 ≠ 0))
      ∨ (r = .answerWithoutRequest ∧ ∃ rest,
        ((∃ a, s.host.script = .answerPull a :: rest) ∧ (s.seq = .idle ∨ ∃ p v, s.seq = .waitPush p v) ∧ .pull ∉ s.host.withdrawn)
        ∨ ((∃ a, s.host.script = .answerPush a :: rest) ∧ (s.seq = .idle ∨ ∃ p, s.seq = .waitPull p)
          ∧ .push ∉ s.host.withdrawn))

/-- 40_stream_bitpacker R165; 70_reset R418: an atomic step always completes, at a port request or at the operation's end. -/
def Obligations.AtomicStepsComplete : Prop :=
  ∀ s : State, Inv s → ∃ t, engineStep s = .next t ∧
    (t.seq = .idle ∨ (∃ p, t.seq = .waitPull p) ∨ ∃ p v, t.seq = .waitPush p v)
end

