-- ==== Sys2Proof/Laws/State.lean ====
section
/-! SUPPORT. What each named update of the state does to each field: one equation per field, so that no later proof unfolds
an update. -/

namespace Sys2Proof.Machine

@[simp] theorem goto_fields (s : State) (p : Point) :
    (s.goto p).build = s.build
    ∧ (s.goto p).status = s.status
    ∧ (s.goto p).lzssCfg = s.lzssCfg
    ∧ (s.goto p).rleCfg = s.rleCfg
    ∧ (s.goto p).lzpCfg = s.lzpCfg
    ∧ (s.goto p).readCount = s.readCount
    ∧ (s.goto p).writeCount = s.writeCount
    ∧ (s.goto p).seq = .run p
    ∧ (s.goto p).params = s.params
    ∧ (s.goto p).opCodec = s.opCodec
    ∧ (s.goto p).opDir = s.opDir
    ∧ (s.goto p).eoi = s.eoi
    ∧ (s.goto p).work = s.work
    ∧ (s.goto p).win = s.win
    ∧ (s.goto p).lzpt = s.lzpt
    ∧ (s.goto p).mtft = s.mtft
    ∧ (s.goto p).rleb = s.rleb
    ∧ (s.goto p).litb = s.litb
    ∧ (s.goto p).epoch = s.epoch
    ∧ (s.goto p).host = s.host := by
  refine ⟨?_, ?_, ?_, ?_, ?_, ?_, ?_, ?_, ?_, ?_, ?_, ?_, ?_, ?_, ?_, ?_, ?_, ?_, ?_, ?_⟩ <;> rfl

@[simp] theorem push_fields (s : State) (p : Point) (v : Byte) :
    (s.push p v).build = s.build
    ∧ (s.push p v).status = s.status
    ∧ (s.push p v).lzssCfg = s.lzssCfg
    ∧ (s.push p v).rleCfg = s.rleCfg
    ∧ (s.push p v).lzpCfg = s.lzpCfg
    ∧ (s.push p v).readCount = s.readCount
    ∧ (s.push p v).writeCount = s.writeCount
    ∧ (s.push p v).seq = .waitPush p v
    ∧ (s.push p v).params = s.params
    ∧ (s.push p v).opCodec = s.opCodec
    ∧ (s.push p v).opDir = s.opDir
    ∧ (s.push p v).eoi = s.eoi
    ∧ (s.push p v).work = s.work
    ∧ (s.push p v).win = s.win
    ∧ (s.push p v).lzpt = s.lzpt
    ∧ (s.push p v).mtft = s.mtft
    ∧ (s.push p v).rleb = s.rleb
    ∧ (s.push p v).litb = s.litb
    ∧ (s.push p v).epoch = s.epoch
    ∧ (s.push p v).host = s.host := by
  refine ⟨?_, ?_, ?_, ?_, ?_, ?_, ?_, ?_, ?_, ?_, ?_, ?_, ?_, ?_, ?_, ?_, ?_, ?_, ?_, ?_⟩ <;> rfl

@[simp] theorem pull_fields (s : State) (p : Point) :
    (s.pull p).build = s.build
    ∧ (s.pull p).status = s.status
    ∧ (s.pull p).lzssCfg = s.lzssCfg
    ∧ (s.pull p).rleCfg = s.rleCfg
    ∧ (s.pull p).lzpCfg = s.lzpCfg
    ∧ (s.pull p).readCount = s.readCount
    ∧ (s.pull p).writeCount = s.writeCount
    ∧ (s.pull p).params = s.params
    ∧ (s.pull p).opCodec = s.opCodec
    ∧ (s.pull p).opDir = s.opDir
    ∧ (s.pull p).eoi = s.eoi
    ∧ (s.pull p).win = s.win
    ∧ (s.pull p).lzpt = s.lzpt
    ∧ (s.pull p).mtft = s.mtft
    ∧ (s.pull p).rleb = s.rleb
    ∧ (s.pull p).litb = s.litb
    ∧ (s.pull p).epoch = s.epoch
    ∧ (s.pull p).host = s.host := by
  unfold State.pull; split <;> simp

@[simp] theorem endWith_fields (s : State) (res : Result) :
    (s.endWith res).build = s.build
    ∧ (s.endWith res).status = s.status.ended res
    ∧ (s.endWith res).lzssCfg = s.lzssCfg
    ∧ (s.endWith res).rleCfg = s.rleCfg
    ∧ (s.endWith res).lzpCfg = s.lzpCfg
    ∧ (s.endWith res).readCount = s.readCount
    ∧ (s.endWith res).writeCount = s.writeCount
    ∧ (s.endWith res).seq = .idle
    ∧ (s.endWith res).params = s.params
    ∧ (s.endWith res).opCodec = s.opCodec
    ∧ (s.endWith res).opDir = s.opDir
    ∧ (s.endWith res).eoi = s.eoi
    ∧ (s.endWith res).work = s.work
    ∧ (s.endWith res).win = s.win
    ∧ (s.endWith res).lzpt = s.lzpt
    ∧ (s.endWith res).mtft = s.mtft
    ∧ (s.endWith res).rleb = s.rleb
    ∧ (s.endWith res).litb = s.litb
    ∧ (s.endWith res).epoch = s.epoch
    ∧ (s.endWith res).host = s.host := by
  refine ⟨?_, ?_, ?_, ?_, ?_, ?_, ?_, ?_, ?_, ?_, ?_, ?_, ?_, ?_, ?_, ?_, ?_, ?_, ?_, ?_⟩ <;> rfl

@[simp] theorem finish_fields (s : State) :
    (s.finish).build = s.build
    ∧ (s.finish).status = s.status.ended .ok
    ∧ (s.finish).lzssCfg = s.lzssCfg
    ∧ (s.finish).rleCfg = s.rleCfg
    ∧ (s.finish).lzpCfg = s.lzpCfg
    ∧ (s.finish).readCount = s.readCount
    ∧ (s.finish).writeCount = s.writeCount
    ∧ (s.finish).seq = .idle
    ∧ (s.finish).params = s.params
    ∧ (s.finish).opCodec = s.opCodec
    ∧ (s.finish).opDir = s.opDir
    ∧ (s.finish).eoi = s.eoi
    ∧ (s.finish).work = s.work
    ∧ (s.finish).win = s.win
    ∧ (s.finish).lzpt = s.lzpt
    ∧ (s.finish).mtft = s.mtft
    ∧ (s.finish).rleb = s.rleb
    ∧ (s.finish).litb = s.litb
    ∧ (s.finish).epoch = s.epoch
    ∧ (s.finish).host = s.host := by
  refine ⟨?_, ?_, ?_, ?_, ?_, ?_, ?_, ?_, ?_, ?_, ?_, ?_, ?_, ?_, ?_, ?_, ?_, ?_, ?_, ?_⟩ <;> rfl

@[simp] theorem raise_fields (s : State) (e : Result) :
    (s.raise e).build = s.build
    ∧ (s.raise e).status = s.status.ended e
    ∧ (s.raise e).lzssCfg = s.lzssCfg
    ∧ (s.raise e).rleCfg = s.rleCfg
    ∧ (s.raise e).lzpCfg = s.lzpCfg
    ∧ (s.raise e).readCount = s.readCount
    ∧ (s.raise e).writeCount = s.writeCount
    ∧ (s.raise e).seq = .idle
    ∧ (s.raise e).params = s.params
    ∧ (s.raise e).opCodec = s.opCodec
    ∧ (s.raise e).opDir = s.opDir
    ∧ (s.raise e).eoi = s.eoi
    ∧ (s.raise e).work = s.work
    ∧ (s.raise e).win = s.win
    ∧ (s.raise e).lzpt = s.lzpt
    ∧ (s.raise e).mtft = s.mtft
    ∧ (s.raise e).rleb = s.rleb
    ∧ (s.raise e).litb = s.litb
    ∧ (s.raise e).epoch = s.epoch
    ∧ (s.raise e).host = s.host := by
  refine ⟨?_, ?_, ?_, ?_, ?_, ?_, ?_, ?_, ?_, ?_, ?_, ?_, ?_, ?_, ?_, ?_, ?_, ?_, ?_, ?_⟩ <;> rfl

@[simp] theorem accept_fields (s : State) (w : Word) :
    (s.accept w).build = s.build
    ∧ (s.accept w).status = Status.accepted w
    ∧ (s.accept w).lzssCfg = s.lzssCfg
    ∧ (s.accept w).rleCfg = s.rleCfg
    ∧ (s.accept w).lzpCfg = s.lzpCfg
    ∧ (s.accept w).readCount = 0#32
    ∧ (s.accept w).writeCount = 0#32
    ∧ (s.accept w).seq = s.seq
    ∧ (s.accept w).params = s.params
    ∧ (s.accept w).opCodec = commandCodec w
    ∧ (s.accept w).opDir = commandDir w
    ∧ (s.accept w).eoi = false
    ∧ (s.accept w).work = { s.work with obits := 0x00#8, omask := 0x80#8, ibits := 0x00#8, imask := 0x00#8 }
    ∧ (s.accept w).win = s.win
    ∧ (s.accept w).lzpt = s.lzpt
    ∧ (s.accept w).mtft = s.mtft
    ∧ (s.accept w).rleb = s.rleb
    ∧ (s.accept w).litb = s.litb
    ∧ (s.accept w).epoch = s.epoch
    ∧ (s.accept w).host = s.host := by
  refine ⟨?_, ?_, ?_, ?_, ?_, ?_, ?_, ?_, ?_, ?_, ?_, ?_, ?_, ?_, ?_, ?_, ?_, ?_, ?_, ?_⟩ <;> rfl

@[simp] theorem emptyOut_fields (s : State) :
    (s.emptyOut).build = s.build
    ∧ (s.emptyOut).status = s.status
    ∧ (s.emptyOut).lzssCfg = s.lzssCfg
    ∧ (s.emptyOut).rleCfg = s.rleCfg
    ∧ (s.emptyOut).lzpCfg = s.lzpCfg
    ∧ (s.emptyOut).readCount = s.readCount
    ∧ (s.emptyOut).writeCount = s.writeCount
    ∧ (s.emptyOut).seq = s.seq
    ∧ (s.emptyOut).params = s.params
    ∧ (s.emptyOut).opCodec = s.opCodec
    ∧ (s.emptyOut).opDir = s.opDir
    ∧ (s.emptyOut).eoi = s.eoi
    ∧ (s.emptyOut).work = { s.work with obits := 0x00#8, omask := 0x80#8 }
    ∧ (s.emptyOut).win = s.win
    ∧ (s.emptyOut).lzpt = s.lzpt
    ∧ (s.emptyOut).mtft = s.mtft
    ∧ (s.emptyOut).rleb = s.rleb
    ∧ (s.emptyOut).litb = s.litb
    ∧ (s.emptyOut).epoch = s.epoch
    ∧ (s.emptyOut).host = s.host := by
  refine ⟨?_, ?_, ?_, ?_, ?_, ?_, ?_, ?_, ?_, ?_, ?_, ?_, ?_, ?_, ?_, ?_, ?_, ?_, ?_, ?_⟩ <;> rfl

@[simp] theorem refill_fields (s : State) (v : Byte) :
    (s.refill v).build = s.build
    ∧ (s.refill v).status = s.status
    ∧ (s.refill v).lzssCfg = s.lzssCfg
    ∧ (s.refill v).rleCfg = s.rleCfg
    ∧ (s.refill v).lzpCfg = s.lzpCfg
    ∧ (s.refill v).readCount = s.readCount
    ∧ (s.refill v).writeCount = s.writeCount
    ∧ (s.refill v).seq = s.seq
    ∧ (s.refill v).params = s.params
    ∧ (s.refill v).opCodec = s.opCodec
    ∧ (s.refill v).opDir = s.opDir
    ∧ (s.refill v).eoi = s.eoi
    ∧ (s.refill v).work = { s.work with ibits := v, imask := 0x80#8 }
    ∧ (s.refill v).win = s.win
    ∧ (s.refill v).lzpt = s.lzpt
    ∧ (s.refill v).mtft = s.mtft
    ∧ (s.refill v).rleb = s.rleb
    ∧ (s.refill v).litb = s.litb
    ∧ (s.refill v).epoch = s.epoch
    ∧ (s.refill v).host = s.host := by
  refine ⟨?_, ?_, ?_, ?_, ?_, ?_, ?_, ?_, ?_, ?_, ?_, ?_, ?_, ?_, ?_, ?_, ?_, ?_, ?_, ?_⟩ <;> rfl

@[simp] theorem dropBit_fields (s : State) :
    (s.dropBit).build = s.build
    ∧ (s.dropBit).status = s.status
    ∧ (s.dropBit).lzssCfg = s.lzssCfg
    ∧ (s.dropBit).rleCfg = s.rleCfg
    ∧ (s.dropBit).lzpCfg = s.lzpCfg
    ∧ (s.dropBit).readCount = s.readCount
    ∧ (s.dropBit).writeCount = s.writeCount
    ∧ (s.dropBit).seq = s.seq
    ∧ (s.dropBit).params = s.params
    ∧ (s.dropBit).opCodec = s.opCodec
    ∧ (s.dropBit).opDir = s.opDir
    ∧ (s.dropBit).eoi = s.eoi
    ∧ (s.dropBit).work = { s.work with imask := s.work.imask >>> 1 }
    ∧ (s.dropBit).win = s.win
    ∧ (s.dropBit).lzpt = s.lzpt
    ∧ (s.dropBit).mtft = s.mtft
    ∧ (s.dropBit).rleb = s.rleb
    ∧ (s.dropBit).litb = s.litb
    ∧ (s.dropBit).epoch = s.epoch
    ∧ (s.dropBit).host = s.host := by
  refine ⟨?_, ?_, ?_, ?_, ?_, ?_, ?_, ?_, ?_, ?_, ?_, ?_, ?_, ?_, ?_, ?_, ?_, ?_, ?_, ?_⟩ <;> rfl

@[simp] theorem newUnit_fields (d : Decoder) (w : Work) :
    (w.newUnit d).obits = w.obits
    ∧ (w.newUnit d).omask = w.omask
    ∧ (w.newUnit d).ibits = w.ibits
    ∧ (w.newUnit d).imask = w.imask
    ∧ (w.newUnit d).rv = w.rv
    ∧ (w.newUnit d).r = w.r
    ∧ (w.newUnit d).s = w.s
    ∧ (w.newUnit d).bufferend = w.bufferend
    ∧ (w.newUnit d).mpos = w.mpos
    ∧ (w.newUnit d).mlen = w.mlen
    ∧ (w.newUnit d).f1 = w.f1
    ∧ (w.newUnit d).wr = w.wr
    ∧ (w.newUnit d).dpos = w.dpos
    ∧ (w.newUnit d).dlen = w.dlen
    ∧ (w.newUnit d).prev = w.prev
    ∧ (w.newUnit d).j = w.j
    ∧ (w.newUnit d).k = w.k
    ∧ (w.newUnit d).full = w.full
    ∧ (w.newUnit d).c = w.c
    ∧ (w.newUnit d).n = w.n
    ∧ (w.newUnit d).gval = w.gval
    ∧ (w.newUnit d).rank = w.rank
    ∧ (w.newUnit d).hash = w.hash
    ∧ (w.newUnit d).lmask = w.lmask
    ∧ (w.newUnit d).nlit = w.nlit
    ∧ (w.newUnit d).bi = w.bi
    ∧ (w.newUnit d).unit = [] := by
  refine ⟨?_, ?_, ?_, ?_, ?_, ?_, ?_, ?_, ?_, ?_, ?_, ?_, ?_, ?_, ?_, ?_, ?_, ?_, ?_, ?_, ?_, ?_, ?_, ?_, ?_, ?_, ?_⟩ <;> rfl

@[simp] theorem newUnit_gcount (d : Decoder) (w : Work) : (w.newUnit d).gcount = if d = .eg then 0 else w.gcount := by
  cases d <;> rfl

@[simp] theorem nextUnit_fields (s : State) (d : Decoder) :
    (s.nextUnit d).build = s.build
    ∧ (s.nextUnit d).status = s.status
    ∧ (s.nextUnit d).lzssCfg = s.lzssCfg
    ∧ (s.nextUnit d).rleCfg = s.rleCfg
    ∧ (s.nextUnit d).lzpCfg = s.lzpCfg
    ∧ (s.nextUnit d).readCount = s.readCount
    ∧ (s.nextUnit d).writeCount = s.writeCount
    ∧ (s.nextUnit d).seq = .run (.fetch d)
    ∧ (s.nextUnit d).params = s.params
    ∧ (s.nextUnit d).opCodec = s.opCodec
    ∧ (s.nextUnit d).opDir = s.opDir
    ∧ (s.nextUnit d).eoi = s.eoi
    ∧ (s.nextUnit d).work = s.work.newUnit d
    ∧ (s.nextUnit d).win = s.win
    ∧ (s.nextUnit d).lzpt = s.lzpt
    ∧ (s.nextUnit d).mtft = s.mtft
    ∧ (s.nextUnit d).rleb = s.rleb
    ∧ (s.nextUnit d).litb = s.litb
    ∧ (s.nextUnit d).epoch = s.epoch
    ∧ (s.nextUnit d).host = s.host := by
  refine ⟨?_, ?_, ?_, ?_, ?_, ?_, ?_, ?_, ?_, ?_, ?_, ?_, ?_, ?_, ?_, ?_, ?_, ?_, ?_, ?_⟩ <;> rfl

@[simp] theorem firstPull_fields (s : State) (d : Decoder) :
    (s.firstPull d).build = s.build
    ∧ (s.firstPull d).status = s.status
    ∧ (s.firstPull d).lzssCfg = s.lzssCfg
    ∧ (s.firstPull d).rleCfg = s.rleCfg
    ∧ (s.firstPull d).lzpCfg = s.lzpCfg
    ∧ (s.firstPull d).readCount = s.readCount
    ∧ (s.firstPull d).writeCount = s.writeCount
    ∧ (s.firstPull d).params = s.params
    ∧ (s.firstPull d).opCodec = s.opCodec
    ∧ (s.firstPull d).opDir = s.opDir
    ∧ (s.firstPull d).eoi = s.eoi
    ∧ (s.firstPull d).win = s.win
    ∧ (s.firstPull d).lzpt = s.lzpt
    ∧ (s.firstPull d).mtft = s.mtft
    ∧ (s.firstPull d).rleb = s.rleb
    ∧ (s.firstPull d).litb = s.litb
    ∧ (s.firstPull d).epoch = s.epoch
    ∧ (s.firstPull d).host = s.host := by
  unfold State.firstPull; simp

@[simp] theorem popped_fields (s : State) :
    (s.popped).build = s.build
    ∧ (s.popped).status = s.status
    ∧ (s.popped).lzssCfg = s.lzssCfg
    ∧ (s.popped).rleCfg = s.rleCfg
    ∧ (s.popped).lzpCfg = s.lzpCfg
    ∧ (s.popped).readCount = s.readCount
    ∧ (s.popped).writeCount = s.writeCount
    ∧ (s.popped).seq = s.seq
    ∧ (s.popped).params = s.params
    ∧ (s.popped).opCodec = s.opCodec
    ∧ (s.popped).opDir = s.opDir
    ∧ (s.popped).eoi = s.eoi
    ∧ (s.popped).work = s.work
    ∧ (s.popped).win = s.win
    ∧ (s.popped).lzpt = s.lzpt
    ∧ (s.popped).mtft = s.mtft
    ∧ (s.popped).rleb = s.rleb
    ∧ (s.popped).litb = s.litb
    ∧ (s.popped).epoch = s.epoch
    ∧ (s.popped).host = { s.host with script := s.host.script.tail } := by
  refine ⟨?_, ?_, ?_, ?_, ?_, ?_, ?_, ?_, ?_, ?_, ?_, ?_, ?_, ?_, ?_, ?_, ?_, ?_, ?_, ?_⟩ <;> rfl

@[simp] theorem fillWindow_fields (s : State) :
    (s.fillWindow).build = s.build
    ∧ (s.fillWindow).status = s.status
    ∧ (s.fillWindow).lzssCfg = s.lzssCfg
    ∧ (s.fillWindow).rleCfg = s.rleCfg
    ∧ (s.fillWindow).lzpCfg = s.lzpCfg
    ∧ (s.fillWindow).readCount = s.readCount
    ∧ (s.fillWindow).writeCount = s.writeCount
    ∧ (s.fillWindow).seq = s.seq
    ∧ (s.fillWindow).params = s.params
    ∧ (s.fillWindow).opCodec = s.opCodec
    ∧ (s.fillWindow).opDir = s.opDir
    ∧ (s.fillWindow).eoi = s.eoi
    ∧ (s.fillWindow).work = s.work
    ∧ (s.fillWindow).win = Ram.filled s.params.fill (s.params.windowSize - s.params.lookahead) 0
    ∧ (s.fillWindow).lzpt = s.lzpt
    ∧ (s.fillWindow).mtft = s.mtft
    ∧ (s.fillWindow).rleb = s.rleb
    ∧ (s.fillWindow).litb = s.litb
    ∧ (s.fillWindow).epoch = s.epoch + 1
    ∧ (s.fillWindow).host = s.host := by
  refine ⟨?_, ?_, ?_, ?_, ?_, ?_, ?_, ?_, ?_, ?_, ?_, ?_, ?_, ?_, ?_, ?_, ?_, ?_, ?_, ?_⟩ <;> rfl

@[simp] theorem advanceCursor_fields (s : State) :
    (s.advanceCursor).build = s.build
    ∧ (s.advanceCursor).status = s.status
    ∧ (s.advanceCursor).lzssCfg = s.lzssCfg
    ∧ (s.advanceCursor).rleCfg = s.rleCfg
    ∧ (s.advanceCursor).lzpCfg = s.lzpCfg
    ∧ (s.advanceCursor).readCount = s.readCount
    ∧ (s.advanceCursor).writeCount = s.writeCount
    ∧ (s.advanceCursor).seq = s.seq
    ∧ (s.advanceCursor).params = s.params
    ∧ (s.advanceCursor).opCodec = s.opCodec
    ∧ (s.advanceCursor).opDir = s.opDir
    ∧ (s.advanceCursor).eoi = s.eoi
    ∧ (s.advanceCursor).work = { s.work with r := s.work.r + s.work.mlen, s := s.work.s + s.work.mlen }
    ∧ (s.advanceCursor).win = s.win
    ∧ (s.advanceCursor).lzpt = s.lzpt
    ∧ (s.advanceCursor).mtft = s.mtft
    ∧ (s.advanceCursor).rleb = s.rleb
    ∧ (s.advanceCursor).litb = s.litb
    ∧ (s.advanceCursor).epoch = s.epoch
    ∧ (s.advanceCursor).host = s.host := by
  refine ⟨?_, ?_, ?_, ?_, ?_, ?_, ?_, ?_, ?_, ?_, ?_, ?_, ?_, ?_, ?_, ?_, ?_, ?_, ?_, ?_⟩ <;> rfl

@[simp] theorem slideWindow_fields (s : State) :
    (s.slideWindow).build = s.build
    ∧ (s.slideWindow).status = s.status
    ∧ (s.slideWindow).lzssCfg = s.lzssCfg
    ∧ (s.slideWindow).rleCfg = s.rleCfg
    ∧ (s.slideWindow).lzpCfg = s.lzpCfg
    ∧ (s.slideWindow).readCount = s.readCount
    ∧ (s.slideWindow).writeCount = s.writeCount
    ∧ (s.slideWindow).seq = s.seq
    ∧ (s.slideWindow).params = s.params
    ∧ (s.slideWindow).opCodec = s.opCodec
    ∧ (s.slideWindow).opDir = s.opDir
    ∧ (s.slideWindow).eoi = s.eoi
    ∧ (s.slideWindow).work = { s.work with bufferend := s.work.bufferend - s.params.windowSize, r := s.work.r - s.params.windowSize, s := s.work.s - s.params.windowSize }
    ∧ (s.slideWindow).win = Ram.slide s.params.windowSize s.win
    ∧ (s.slideWindow).lzpt = s.lzpt
    ∧ (s.slideWindow).mtft = s.mtft
    ∧ (s.slideWindow).rleb = s.rleb
    ∧ (s.slideWindow).litb = s.litb
    ∧ (s.slideWindow).epoch = s.epoch
    ∧ (s.slideWindow).host = s.host := by
  refine ⟨?_, ?_, ?_, ?_, ?_, ?_, ?_, ?_, ?_, ?_, ?_, ?_, ?_, ?_, ?_, ?_, ?_, ?_, ?_, ?_⟩ <;> rfl

@[simp] theorem codeRead_fields (s : State) (v : Nat) :
    (s.codeRead v).build = s.build
    ∧ (s.codeRead v).status = s.status
    ∧ (s.codeRead v).lzssCfg = s.lzssCfg
    ∧ (s.codeRead v).rleCfg = s.rleCfg
    ∧ (s.codeRead v).lzpCfg = s.lzpCfg
    ∧ (s.codeRead v).readCount = s.readCount
    ∧ (s.codeRead v).writeCount = s.writeCount
    ∧ (s.codeRead v).seq = s.seq
    ∧ (s.codeRead v).params = s.params
    ∧ (s.codeRead v).opCodec = s.opCodec
    ∧ (s.codeRead v).opDir = s.opDir
    ∧ (s.codeRead v).eoi = s.eoi
    ∧ (s.codeRead v).work = { s.work with gcount := v.log2, gval := v }
    ∧ (s.codeRead v).win = s.win
    ∧ (s.codeRead v).lzpt = s.lzpt
    ∧ (s.codeRead v).mtft = s.mtft
    ∧ (s.codeRead v).rleb = s.rleb
    ∧ (s.codeRead v).litb = s.litb
    ∧ (s.codeRead v).epoch = s.epoch
    ∧ (s.codeRead v).host = s.host := by
  refine ⟨?_, ?_, ?_, ?_, ?_, ?_, ?_, ?_, ?_, ?_, ?_, ?_, ?_, ?_, ?_, ?_, ?_, ?_, ?_, ?_⟩ <;> rfl

@[simp] theorem identityTable_fields (s : State) :
    (s.identityTable).build = s.build
    ∧ (s.identityTable).status = s.status
    ∧ (s.identityTable).lzssCfg = s.lzssCfg
    ∧ (s.identityTable).rleCfg = s.rleCfg
    ∧ (s.identityTable).lzpCfg = s.lzpCfg
    ∧ (s.identityTable).readCount = s.readCount
    ∧ (s.identityTable).writeCount = s.writeCount
    ∧ (s.identityTable).seq = s.seq
    ∧ (s.identityTable).params = s.params
    ∧ (s.identityTable).opCodec = s.opCodec
    ∧ (s.identityTable).opDir = s.opDir
    ∧ (s.identityTable).eoi = s.eoi
    ∧ (s.identityTable).work = s.work
    ∧ (s.identityTable).win = s.win
    ∧ (s.identityTable).lzpt = s.lzpt
    ∧ (s.identityTable).mtft = []
    ∧ (s.identityTable).rleb = s.rleb
    ∧ (s.identityTable).litb = s.litb
    ∧ (s.identityTable).epoch = s.epoch
    ∧ (s.identityTable).host = s.host := by
  refine ⟨?_, ?_, ?_, ?_, ?_, ?_, ?_, ?_, ?_, ?_, ?_, ?_, ?_, ?_, ?_, ?_, ?_, ?_, ?_, ?_⟩ <;> rfl

@[simp] theorem clearPredictor_fields (s : State) :
    (s.clearPredictor).build = s.build
    ∧ (s.clearPredictor).status = s.status
    ∧ (s.clearPredictor).lzssCfg = s.lzssCfg
    ∧ (s.clearPredictor).rleCfg = s.rleCfg
    ∧ (s.clearPredictor).lzpCfg = s.lzpCfg
    ∧ (s.clearPredictor).readCount = s.readCount
    ∧ (s.clearPredictor).writeCount = s.writeCount
    ∧ (s.clearPredictor).seq = s.seq
    ∧ (s.clearPredictor).params = s.params
    ∧ (s.clearPredictor).opCodec = s.opCodec
    ∧ (s.clearPredictor).opDir = s.opDir
    ∧ (s.clearPredictor).eoi = s.eoi
    ∧ (s.clearPredictor).work = { s.work with hash := 0 }
    ∧ (s.clearPredictor).win = s.win
    ∧ (s.clearPredictor).lzpt = []
    ∧ (s.clearPredictor).mtft = s.mtft
    ∧ (s.clearPredictor).rleb = s.rleb
    ∧ (s.clearPredictor).litb = s.litb
    ∧ (s.clearPredictor).epoch = s.epoch
    ∧ (s.clearPredictor).host = s.host := by
  refine ⟨?_, ?_, ?_, ?_, ?_, ?_, ?_, ?_, ?_, ?_, ?_, ?_, ?_, ?_, ?_, ?_, ?_, ?_, ?_, ?_⟩ <;> rfl

@[simp] theorem nextHash_fields (s : State) (b : Byte) :
    (s.nextHash b).build = s.build
    ∧ (s.nextHash b).status = s.status
    ∧ (s.nextHash b).lzssCfg = s.lzssCfg
    ∧ (s.nextHash b).rleCfg = s.rleCfg
    ∧ (s.nextHash b).lzpCfg = s.lzpCfg
    ∧ (s.nextHash b).readCount = s.readCount
    ∧ (s.nextHash b).writeCount = s.writeCount
    ∧ (s.nextHash b).seq = s.seq
    ∧ (s.nextHash b).params = s.params
    ∧ (s.nextHash b).opCodec = s.opCodec
    ∧ (s.nextHash b).opDir = s.opDir
    ∧ (s.nextHash b).eoi = s.eoi
    ∧ (s.nextHash b).work = { s.work with hash := ((s.work.hash <<< 4) ^^^ b.toNat) &&& (2 ^ s.params.hashOrder - 1) }
    ∧ (s.nextHash b).win = s.win
    ∧ (s.nextHash b).lzpt = s.lzpt
    ∧ (s.nextHash b).mtft = s.mtft
    ∧ (s.nextHash b).rleb = s.rleb
    ∧ (s.nextHash b).litb = s.litb
    ∧ (s.nextHash b).epoch = s.epoch
    ∧ (s.nextHash b).host = s.host := by
  refine ⟨?_, ?_, ?_, ?_, ?_, ?_, ?_, ?_, ?_, ?_, ?_, ?_, ?_, ?_, ?_, ?_, ?_, ?_, ?_, ?_⟩ <;> rfl

@[simp] theorem lzpHit_fields (s : State) :
    (s.lzpHit).build = s.build
    ∧ (s.lzpHit).status = s.status
    ∧ (s.lzpHit).lzssCfg = s.lzssCfg
    ∧ (s.lzpHit).rleCfg = s.rleCfg
    ∧ (s.lzpHit).lzpCfg = s.lzpCfg
    ∧ (s.lzpHit).readCount = s.readCount
    ∧ (s.lzpHit).writeCount = s.writeCount
    ∧ (s.lzpHit).seq = s.seq
    ∧ (s.lzpHit).params = s.params
    ∧ (s.lzpHit).opCodec = s.opCodec
    ∧ (s.lzpHit).opDir = s.opDir
    ∧ (s.lzpHit).eoi = s.eoi
    ∧ (s.lzpHit).work = { s.work with lmask := s.work.lmask ||| (1#8 <<< s.work.bi) }
    ∧ (s.lzpHit).win = s.win
    ∧ (s.lzpHit).lzpt = s.lzpt
    ∧ (s.lzpHit).mtft = s.mtft
    ∧ (s.lzpHit).rleb = s.rleb
    ∧ (s.lzpHit).litb = s.litb
    ∧ (s.lzpHit).epoch = s.epoch
    ∧ (s.lzpHit).host = s.host := by
  refine ⟨?_, ?_, ?_, ?_, ?_, ?_, ?_, ?_, ?_, ?_, ?_, ?_, ?_, ?_, ?_, ?_, ?_, ?_, ?_, ?_⟩ <;> rfl

@[simp] theorem poke_fields (s : State) (sp : Space) (a : Nat) (v : Byte) :
    (s.poke sp a v).build = s.build
    ∧ (s.poke sp a v).status = s.status
    ∧ (s.poke sp a v).lzssCfg = s.lzssCfg
    ∧ (s.poke sp a v).rleCfg = s.rleCfg
    ∧ (s.poke sp a v).lzpCfg = s.lzpCfg
    ∧ (s.poke sp a v).readCount = s.readCount
    ∧ (s.poke sp a v).writeCount = s.writeCount
    ∧ (s.poke sp a v).seq = s.seq
    ∧ (s.poke sp a v).params = s.params
    ∧ (s.poke sp a v).opCodec = s.opCodec
    ∧ (s.poke sp a v).opDir = s.opDir
    ∧ (s.poke sp a v).eoi = s.eoi
    ∧ (s.poke sp a v).work = s.work
    ∧ (s.poke sp a v).epoch = s.epoch
    ∧ (s.poke sp a v).host = s.host := by
  cases sp <;> simp [State.poke]

@[simp] theorem latch_fields (s : State) (c : Codec) :
    (latch c s).build = s.build
    ∧ (latch c s).status = s.status
    ∧ (latch c s).lzssCfg = s.lzssCfg
    ∧ (latch c s).rleCfg = s.rleCfg
    ∧ (latch c s).lzpCfg = s.lzpCfg
    ∧ (latch c s).readCount = s.readCount
    ∧ (latch c s).writeCount = s.writeCount
    ∧ (latch c s).seq = s.seq
    ∧ (latch c s).opCodec = s.opCodec
    ∧ (latch c s).opDir = s.opDir
    ∧ (latch c s).eoi = s.eoi
    ∧ (latch c s).work = s.work
    ∧ (latch c s).win = s.win
    ∧ (latch c s).lzpt = s.lzpt
    ∧ (latch c s).mtft = s.mtft
    ∧ (latch c s).rleb = s.rleb
    ∧ (latch c s).litb = s.litb
    ∧ (latch c s).epoch = s.epoch
    ∧ (latch c s).host = s.host := by
  cases c <;> simp [latch]

/-- A pull's control state: a request, or, after End, the same point with End at once (20_memory R84, R88). -/
theorem pull_seq (s : State) (p : Point) : (s.pull p).seq = if s.eoi then .run p else .waitPull p := by
  unfold State.pull; split <;> rfl

theorem pull_work (s : State) (p : Point) :
    (s.pull p).work = if s.eoi then { s.work with rv := none } else s.work := by
  unfold State.pull; split <;> rfl

@[simp] theorem pull_seq_point (s : State) (p : Point) : (s.pull p).seq.point = some p := by
  rw [pull_seq]; split <;> rfl

@[simp] theorem pull_seq_ne_idle (s : State) (p : Point) : (s.pull p).seq ≠ .idle := by
  rw [pull_seq]; split <;> simp

/-- A pull that makes a request changes only the control state. -/
theorem pull_of_not_eoi (s : State) (p : Point) (h : s.eoi = false) : s.pull p = { s with seq := .waitPull p } := by
  simp [State.pull, h]

@[simp] theorem pull_work_fields (s : State) (p : Point) :
    (s.pull p).work.obits = s.work.obits
    ∧ (s.pull p).work.omask = s.work.omask
    ∧ (s.pull p).work.ibits = s.work.ibits
    ∧ (s.pull p).work.imask = s.work.imask
    ∧ (s.pull p).work.r = s.work.r
    ∧ (s.pull p).work.s = s.work.s
    ∧ (s.pull p).work.bufferend = s.work.bufferend
    ∧ (s.pull p).work.mpos = s.work.mpos
    ∧ (s.pull p).work.mlen = s.work.mlen
    ∧ (s.pull p).work.f1 = s.work.f1
    ∧ (s.pull p).work.wr = s.work.wr
    ∧ (s.pull p).work.dpos = s.work.dpos
    ∧ (s.pull p).work.dlen = s.work.dlen
    ∧ (s.pull p).work.prev = s.work.prev
    ∧ (s.pull p).work.j = s.work.j
    ∧ (s.pull p).work.k = s.work.k
    ∧ (s.pull p).work.full = s.work.full
    ∧ (s.pull p).work.c = s.work.c
    ∧ (s.pull p).work.n = s.work.n
    ∧ (s.pull p).work.gcount = s.work.gcount
    ∧ (s.pull p).work.gval = s.work.gval
    ∧ (s.pull p).work.rank = s.work.rank
    ∧ (s.pull p).work.hash = s.work.hash
    ∧ (s.pull p).work.lmask = s.work.lmask
    ∧ (s.pull p).work.nlit = s.work.nlit
    ∧ (s.pull p).work.bi = s.work.bi
    ∧ (s.pull p).work.unit = s.work.unit := by
  rw [pull_work]; split <;> simp

@[simp] theorem firstPull_work_fields (s : State) (d : Decoder) :
    (s.firstPull d).work.obits = s.work.obits
    ∧ (s.firstPull d).work.omask = s.work.omask
    ∧ (s.firstPull d).work.ibits = s.work.ibits
    ∧ (s.firstPull d).work.imask = s.work.imask
    ∧ (s.firstPull d).work.r = s.work.r
    ∧ (s.firstPull d).work.s = s.work.s
    ∧ (s.firstPull d).work.bufferend = s.work.bufferend
    ∧ (s.firstPull d).work.mpos = s.work.mpos
    ∧ (s.firstPull d).work.mlen = s.work.mlen
    ∧ (s.firstPull d).work.f1 = s.work.f1
    ∧ (s.firstPull d).work.wr = s.work.wr
    ∧ (s.firstPull d).work.dpos = s.work.dpos
    ∧ (s.firstPull d).work.dlen = s.work.dlen
    ∧ (s.firstPull d).work.prev = s.work.prev
    ∧ (s.firstPull d).work.j = s.work.j
    ∧ (s.firstPull d).work.k = s.work.k
    ∧ (s.firstPull d).work.full = s.work.full
    ∧ (s.firstPull d).work.c = s.work.c
    ∧ (s.firstPull d).work.n = s.work.n
    ∧ (s.firstPull d).work.gcount = (s.work.newUnit d).gcount
    ∧ (s.firstPull d).work.gval = s.work.gval
    ∧ (s.firstPull d).work.rank = s.work.rank
    ∧ (s.firstPull d).work.hash = s.work.hash
    ∧ (s.firstPull d).work.lmask = s.work.lmask
    ∧ (s.firstPull d).work.nlit = s.work.nlit
    ∧ (s.firstPull d).work.bi = s.work.bi
    ∧ (s.firstPull d).work.unit = [] := by
  unfold State.firstPull; simp

@[simp] theorem ended_fields (st : Status) (res : Result) :
    (st.ended res).busy = false ∧ (st.ended res).done = true ∧ (st.ended res).result = res
    ∧ (st.ended res).eoi = st.eoi ∧ (st.ended res).codec = st.codec ∧ (st.ended res).dir = st.dir := by
  simp [Status.ended]

@[simp] theorem sawEnd_fields (st : Status) :
    st.sawEnd.eoi = true ∧ st.sawEnd.busy = st.busy ∧ st.sawEnd.done = st.done ∧ st.sawEnd.result = st.result
    ∧ st.sawEnd.codec = st.codec ∧ st.sawEnd.dir = st.dir := by
  simp [Status.sawEnd]

@[simp] theorem accepted_fields (w : Word) :
    (Status.accepted w).busy = true ∧ (Status.accepted w).done = false ∧ (Status.accepted w).eoi = false
    ∧ (Status.accepted w).result = .ok ∧ (Status.accepted w).codec = commandCodec w ∧ (Status.accepted w).dir = commandDir w := by
  simp [Status.accepted]

/-- A write to one RAM changes that RAM alone. -/
theorem poke_ram (s : State) (sp sp' : Space) (a : Nat) (v : Byte) :
    (s.poke sp a v).ram sp' = if sp' = sp then Ram.store sp a v (s.ram sp) else s.ram sp' := by
  cases sp <;> cases sp' <;> simp [State.poke, State.ram]

@[simp] theorem ram_of_fields (s : State) :
    s.ram .win = s.win ∧ s.ram .lzpt = s.lzpt ∧ s.ram .mtft = s.mtft ∧ s.ram .rleb = s.rleb ∧ s.ram .litb = s.litb := by
  simp [State.ram]

/-! ## Late answers -/

@[simp] theorem awaitsLate_iff (k : PortKind) (s : State) : s.awaitsLate k = true ↔ k ∈ s.host.withdrawn := by
  simp [State.awaitsLate]

@[simp] theorem awaitsLate_popped (k : PortKind) (s : State) : s.popped.awaitsLate k = s.awaitsLate k := rfl

/-- All that an answer to a port without a request can do: a late one takes one entry off the list, another one is refused. -/
theorem unrequestedAnswer_cases (k : PortKind) (s : State) :
    (k ∈ s.host.withdrawn
      ∧ unrequestedAnswer k s = .next { s with host := { s.host with withdrawn := s.host.withdrawn.erase k } })
    ∨ (k ∉ s.host.withdrawn ∧ unrequestedAnswer k s = .refused .answerWithoutRequest) := by
  by_cases h : k ∈ s.host.withdrawn <;> simp [unrequestedAnswer, h]

end Sys2Proof.Machine
end

