-- ==== Sys2Proof/Laws/Ram.lean ====
section
/-! SUPPORT. The RAMs: a read after a write gives the value written at that address and the old value elsewhere, and every
RAM operation keeps the canonical form. -/

namespace Sys2Proof.Machine

/-- Addresses strictly rising. -/
abbrev Ram.rising (m : Ram) : Prop := List.Pairwise (fun x y : Host.Cell => x.1 < y.1) m

theorem find_eq_none_of_lt (m : Ram) (a : Nat) (h : ∀ c ∈ m, a < c.1) : Ram.find a m = none := by
  induction m with
  | nil => rfl
  | cons c m ih =>
    obtain ⟨x, v⟩ := c
    have hx : a < x := h (x, v) (by simp)
    have : ¬ x = a := by omega
    simp only [Ram.find, this, if_false]
    exact ih fun c hc => h c (by simp [hc])

theorem find_insert (m : Ram) (a b : Nat) (v : Byte) (hm : Ram.rising m) :
    Ram.find b (Ram.insert a v m) = if b = a then some v else Ram.find b m := by
  induction m with
  | nil =>
    by_cases h : b = a
    · subst h; simp [Ram.insert, Ram.find]
    · simp [Ram.insert, Ram.find, h, Ne.symm h]
  | cons c m ih =>
    obtain ⟨x, w⟩ := c
    have hm' := List.pairwise_cons.1 hm
    simp only [Ram.insert]
    by_cases h1 : a < x
    · rw [if_pos h1]
      by_cases hb : b = a
      · subst hb; simp [Ram.find]
      · simp [Ram.find, hb, Ne.symm hb]
    · rw [if_neg h1]
      by_cases h2 : a = x
      · subst h2
        by_cases hb : b = a
        · subst hb; simp [Ram.find]
        · simp [Ram.find, hb, Ne.symm hb]
      · rw [if_neg h2]
        by_cases hb : b = x
        · subst hb
          have : ¬ b = a := fun h => h2 h.symm
          simp [Ram.find, this]
        · simp only [Ram.find, Ne.symm hb, if_false, ih hm'.2]

theorem find_erase (m : Ram) (a b : Nat) (hm : Ram.rising m) :
    Ram.find b (Ram.erase a m) = if b = a then none else Ram.find b m := by
  induction m with
  | nil => simp [Ram.erase, Ram.find]
  | cons c m ih =>
    obtain ⟨x, w⟩ := c
    have hm' := List.pairwise_cons.1 hm
    simp only [Ram.erase]
    by_cases h : x = a
    · subst h
      rw [if_pos rfl]
      by_cases hb : b = x
      · subst hb; simp [find_eq_none_of_lt m b fun c hc => hm'.1 c hc]
      · simp [Ram.find, hb, Ne.symm hb]
    · rw [if_neg h]
      by_cases hb : b = x
      · subst hb; simp [Ram.find, h]
      · simp only [Ram.find, Ne.symm hb, if_false, ih hm'.2]

theorem mem_insert (m : Ram) (a : Nat) (v : Byte) (c : Host.Cell) (h : c ∈ Ram.insert a v m) : c = (a, v) ∨ c ∈ m := by
  induction m with
  | nil => simpa [Ram.insert] using h
  | cons d m ih =>
    obtain ⟨x, w⟩ := d
    simp only [Ram.insert] at h
    split at h
    · simpa using h
    · split at h
      · rcases List.mem_cons.1 h with h | h
        · exact .inl h
        · exact .inr (by simp [h])
      · rcases List.mem_cons.1 h with h | h
        · exact .inr (by simp [h])
        · rcases ih h with h | h
          · exact .inl h
          · exact .inr (by simp [h])

theorem mem_erase (m : Ram) (a : Nat) (c : Host.Cell) (h : c ∈ Ram.erase a m) : c ∈ m := by
  induction m with
  | nil => simp [Ram.erase] at h
  | cons d m ih =>
    obtain ⟨x, w⟩ := d
    simp only [Ram.erase] at h
    split at h
    · simp [h]
    · rcases List.mem_cons.1 h with h | h
      · simp [h]
      · simp [ih h]

theorem rising_insert (m : Ram) (a : Nat) (v : Byte) (hm : Ram.rising m) : Ram.rising (Ram.insert a v m) := by
  induction m with
  | nil => simp [Ram.insert]
  | cons d m ih =>
    obtain ⟨x, w⟩ := d
    have hm' := List.pairwise_cons.1 hm
    simp only [Ram.insert]
    by_cases h1 : a < x
    · rw [if_pos h1]
      refine List.pairwise_cons.2 ⟨fun c hc => ?_, hm⟩
      rcases List.mem_cons.1 hc with h | h
      · simpa [h] using h1
      · have := hm'.1 c h; simp at this ⊢; omega
    · rw [if_neg h1]
      by_cases h2 : a = x
      · rw [if_pos h2]; subst h2; exact List.pairwise_cons.2 ⟨hm'.1, hm'.2⟩
      · rw [if_neg h2]
        refine List.pairwise_cons.2 ⟨fun c hc => ?_, ih hm'.2⟩
        rcases mem_insert m a v c hc with h | h
        · simp [h]; omega
        · exact hm'.1 c h

theorem rising_erase (m : Ram) (a : Nat) (hm : Ram.rising m) : Ram.rising (Ram.erase a m) := by
  induction m with
  | nil => simp [Ram.erase]
  | cons d m ih =>
    obtain ⟨x, w⟩ := d
    have hm' := List.pairwise_cons.1 hm
    simp only [Ram.erase]
    split
    · exact hm'.2
    · exact List.pairwise_cons.2 ⟨fun c hc => hm'.1 c (mem_erase m a c hc), ih hm'.2⟩

/-- What a RAM reads as at an address, before the free value: the listed byte, or what an unlisted address reads as. -/
def Ram.look (sp : Space) (a : Nat) (m : Ram) : Option Byte := (Ram.find a m).or (unlisted sp a)

/-- THE READ AFTER A WRITE. -/
theorem look_store (sp : Space) (a b : Nat) (v : Byte) (m : Ram) (hm : Ram.rising m) :
    Ram.look sp b (Ram.store sp a v m) = if b = a then some v else Ram.look sp b m := by
  unfold Ram.look Ram.store
  split
  · rename_i h
    rw [find_erase m a b hm]
    split
    · rename_i hb; subst hb; simp [h]
    · rfl
  · rw [find_insert m a b v hm]
    split <;> simp

/-- A write keeps the canonical form. -/
theorem wf_store (sp : Space) (a : Nat) (v : Byte) (m : Ram) (hm : Ram.wf sp m) : Ram.wf sp (Ram.store sp a v m) := by
  unfold Ram.store
  split
  · exact ⟨rising_erase m a hm.1, fun c hc => hm.2 c (mem_erase m a c hc)⟩
  · rename_i h
    refine ⟨rising_insert m a v hm.1, fun c hc => ?_⟩
    rcases mem_insert m a v c hc with rfl | hc
    · exact h
    · exact hm.2 c hc

theorem wf_nil (sp : Space) : Ram.wf sp [] := by simp [Ram.wf]

theorem mem_filled (v : Byte) (count a : Nat) (c : Host.Cell) (h : c ∈ Ram.filled v count a) :
    a ≤ c.1 ∧ c.1 < a + count ∧ c.2 = v := by
  induction count generalizing a with
  | zero => simp [Ram.filled] at h
  | succ n ih =>
    simp only [Ram.filled, List.mem_cons] at h
    rcases h with rfl | h
    · simp
    · obtain ⟨h1, h2, h3⟩ := ih (a + 1) h
      exact ⟨by omega, by omega, h3⟩

theorem rising_filled (v : Byte) (count a : Nat) : Ram.rising (Ram.filled v count a) := by
  induction count generalizing a with
  | zero => simp [Ram.filled]
  | succ n ih =>
    refine List.pairwise_cons.2 ⟨fun c hc => ?_, ih (a + 1)⟩
    have := mem_filled v n (a + 1) c hc
    simp; omega

/-- A filled range reads as the fill byte, and lists nothing else. -/
theorem find_filled (v : Byte) (count a b : Nat) :
    Ram.find b (Ram.filled v count a) = if a ≤ b ∧ b < a + count then some v else none := by
  induction count generalizing a with
  | zero => simp [Ram.filled, Ram.find]
  | succ n ih =>
    simp only [Ram.filled, Ram.find, ih]
    by_cases h : a = b
    · subst h; simp
    · rw [if_neg h]
      by_cases h2 : a + 1 ≤ b ∧ b < a + 1 + n
      · rw [if_pos h2, if_pos (by omega)]
      · rw [if_neg h2, if_neg (by omega)]

theorem wf_filled (v : Byte) (count a : Nat) : Ram.wf .win (Ram.filled v count a) :=
  ⟨rising_filled v count a, fun c _ => by simp [unlisted]⟩

theorem rising_slide (n : Nat) (m : Ram) (hm : Ram.rising m) : Ram.rising (Ram.slide n m) := by
  unfold Ram.slide
  refine List.pairwise_append.2 ⟨?_, hm.filter _, ?_⟩
  · rw [List.pairwise_map]
    refine (hm.filter _).imp_of_mem ?_
    intro x y hx hy hxy
    simp only [List.mem_filter, Bool.and_eq_true, decide_eq_true_eq] at hx hy
    simp; omega
  · intro x hx y hy
    simp only [List.mem_map, List.mem_filter, Bool.and_eq_true, decide_eq_true_eq] at hx hy
    obtain ⟨c, ⟨_, hc⟩, rfl⟩ := hx
    simp; omega

theorem wf_slide (n : Nat) (m : Ram) (hm : Ram.wf .win m) : Ram.wf .win (Ram.slide n m) :=
  ⟨rising_slide n m hm.1, fun c _ => by simp [unlisted]⟩

theorem find_append (a : Nat) (m m' : Ram) : Ram.find a (m ++ m') = (Ram.find a m).or (Ram.find a m') := by
  induction m with
  | nil => simp [Ram.find]
  | cons c m ih =>
    obtain ⟨x, v⟩ := c
    simp only [List.cons_append, Ram.find]
    split
    · simp
    · exact ih

theorem find_filter_ge (a n : Nat) (m : Ram) :
    Ram.find a (m.filter fun c => n ≤ c.1) = if n ≤ a then Ram.find a m else none := by
  induction m with
  | nil => simp [Ram.find]
  | cons c m ih =>
    obtain ⟨x, v⟩ := c
    simp only [List.filter_cons]
    by_cases h : n ≤ x
    · simp only [h, decide_true, if_true, Ram.find, ih]
      by_cases hx : x = a
      · subst hx; simp [h]
      · simp [hx]
    · simp only [h, decide_false, Bool.false_eq_true, if_false, ih, Ram.find]
      by_cases hx : x = a
      · subst hx; simp [h]
      · simp [hx]

theorem find_shift (a n : Nat) (m : Ram) :
    Ram.find a ((m.filter fun c => n ≤ c.1 && c.1 < 2 * n).map (fun c => (c.1 - n, c.2)))
      = if a < n then Ram.find (a + n) m else none := by
  induction m with
  | nil => simp [Ram.find]
  | cons c m ih =>
    obtain ⟨x, v⟩ := c
    simp only [List.filter_cons]
    by_cases h : n ≤ x ∧ x < 2 * n
    · simp only [h, decide_true, Bool.and_self, if_true, List.map_cons, Ram.find, ih]
      by_cases hx : x = a + n
      · subst hx; rw [if_pos (by omega), if_pos (by omega), if_pos rfl]
      · rw [if_neg (by omega), if_neg hx]
    · have : (decide (n ≤ x) && decide (x < 2 * n)) = false := by
        simp only [Bool.and_eq_false_iff, decide_eq_false_iff_not]; omega
      simp only [this, Bool.false_eq_true, if_false, ih, Ram.find]
      by_cases hx : x = a + n
      · subst hx; rw [if_pos rfl, if_neg (by omega), if_neg (by omega)]
      · rw [if_neg hx]

/-- THE SLIDE: below N the byte N above, at N and above what stood there (41_lzss R204). -/
theorem find_slide (a n : Nat) (m : Ram) :
    Ram.find a (Ram.slide n m) = if a < n then Ram.find (a + n) m else Ram.find a m := by
  unfold Ram.slide
  rw [find_append, find_shift, find_filter_ge]
  by_cases h : a < n
  · rw [if_pos h, if_neg (by omega), if_pos h]; simp
  · rw [if_neg h, if_pos (by omega), if_neg h]; simp

/-- A read of a state's RAM is the look, or the free value. -/
theorem peek_eq (s : State) (sp : Space) (a : Nat) :
    s.peek sp a = (Ram.look sp a (s.ram sp)).getD (Config.unspecifiedByte sp.number s.epoch a) := by
  unfold State.peek Ram.look
  cases Ram.find a (s.ram sp) <;> cases unlisted sp a <;> rfl

theorem peek_congr (s t : State) (sp : Space) (a : Nat) (hr : s.ram sp = t.ram sp) (he : s.epoch = t.epoch) :
    s.peek sp a = t.peek sp a := by
  rw [peek_eq, peek_eq, hr, he]

/-- THE READ AFTER A WRITE, on states. -/
theorem peek_poke (s : State) (sp : Space) (a b : Nat) (v : Byte) (hs : Ram.wf sp (s.ram sp)) :
    (s.poke sp a v).peek sp b = if b = a then v else s.peek sp b := by
  rw [peek_eq, peek_eq, poke_ram, if_pos rfl, look_store sp a b v _ hs.1]
  split <;> simp

theorem peek_poke_other (s : State) (sp sp' : Space) (a b : Nat) (v : Byte) (h : sp' ≠ sp) :
    (s.poke sp a v).peek sp' b = s.peek sp' b := by
  rw [peek_eq, peek_eq, poke_ram, if_neg h]; simp

/-- A write keeps every RAM canonical. -/
theorem wf_poke (s : State) (sp : Space) (a : Nat) (v : Byte) (hs : ∀ x, Ram.wf x (s.ram x)) (x : Space) :
    Ram.wf x ((s.poke sp a v).ram x) := by
  rw [poke_ram]
  split
  · rename_i h; subst h; exact wf_store _ a v _ (hs _)
  · exact hs x

/-- MTFT and LZPT read the same whatever the epoch: no address of theirs is unspecified. -/
theorem peek_mtft (s : State) (a : Nat) : s.peek .mtft a = (Ram.find a s.mtft).getD (BitVec.ofNat 8 a) := by
  rw [peek_eq]; simp [Ram.look, unlisted]

theorem peek_lzpt (s : State) (a : Nat) : s.peek .lzpt a = (Ram.find a s.lzpt).getD 0#8 := by
  rw [peek_eq]; simp [Ram.look, unlisted]

end Sys2Proof.Machine
end

