-- ==== Sys2Proof/Laws/Engine.lean ====
section
/-! SUPPORT. What every engine step leaves alone: the frame of each step function, and of the atomic step. -/

namespace Sys2Proof.Machine

/-- Every next state of an outcome has a property. -/
def Out.ensures (o : Out) (P : State → Prop) : Prop := ∀ t, o = .next t → P t

theorem ensures_next {t : State} {P : State → Prop} (h : P t) : Out.ensures (.next t) P := by
  intro u hu; cases hu; exact h

theorem ensures_fault {r : Fault} {P : State → Prop} : Out.ensures (.fault r) P := by
  intro u hu; cases hu

theorem ensures_refused {r : Refusal} {P : State → Prop} : Out.ensures (.refused r) P := by
  intro u hu; cases hu

theorem ensures_mono {o : Out} {P Q : State → Prop} (h : o.ensures P) (hPQ : ∀ t, P t → Q t) : o.ensures Q :=
  fun t ht => hPQ t (h t ht)

theorem ensures_andThen {o : Out} {k : State → Out} {P Q : State → Prop} (h : o.ensures P)
    (hk : ∀ t, P t → (k t).ensures Q) : (o.andThen k).ensures Q := by
  cases o with
  | next t => exact hk t (h t rfl)
  | fault r => exact ensures_fault
  | refused r => exact ensures_refused

theorem ensures_memRead {op : Op} {sp : Space} {a : Nat} {s : State} {k : Byte → Out} {P : State → Prop}
    (h : ∀ v, (k v).ensures P) : (memRead op sp a s k).ensures P := by
  unfold memRead; split
  · exact h _
  · exact ensures_fault

theorem ensures_memWrite {op : Op} {sp : Space} {a : Nat} {v : Byte} {s : State} {k : State → Out} {P : State → Prop}
    (h : (k (s.poke sp a v)).ensures P) : (memWrite op sp a v s k).ensures P := by
  unfold memWrite; split
  · exact h
  · exact ensures_fault

/-- Nothing but RAMs, working registers, epoch and control state differ. -/
structure Inside (s t : State) : Prop where
  build : t.build = s.build
  lzssCfg : t.lzssCfg = s.lzssCfg
  rleCfg : t.rleCfg = s.rleCfg
  lzpCfg : t.lzpCfg = s.lzpCfg
  readCount : t.readCount = s.readCount
  writeCount : t.writeCount = s.writeCount
  params : t.params = s.params
  opCodec : t.opCodec = s.opCodec
  opDir : t.opDir = s.opDir
  eoi : t.eoi = s.eoi
  host : t.host = s.host
  status : t.status = s.status

theorem Inside.refl (s : State) : Inside s s := by constructor <;> rfl

theorem Inside.trans {s t u : State} (h : Inside s t) (h' : Inside t u) : Inside s u := by
  constructor
  · rw [h'.build, h.build]
  · rw [h'.lzssCfg, h.lzssCfg]
  · rw [h'.rleCfg, h.rleCfg]
  · rw [h'.lzpCfg, h.lzpCfg]
  · rw [h'.readCount, h.readCount]
  · rw [h'.writeCount, h.writeCount]
  · rw [h'.params, h.params]
  · rw [h'.opCodec, h.opCodec]
  · rw [h'.opDir, h.opDir]
  · rw [h'.eoi, h.eoi]
  · rw [h'.host, h.host]
  · rw [h'.status, h.status]

theorem Inside.frame {s t : State} (h : Inside s t) : EngineFrame s t :=
  ⟨h.build, h.lzssCfg, h.rleCfg, h.lzpCfg, h.readCount, h.writeCount, h.params, h.opCodec, h.opDir, h.eoi, h.host, .inl h.status⟩

theorem Inside.then_frame {s t u : State} (h : Inside s t) (h' : EngineFrame t u) : EngineFrame s u := by
  refine ⟨?_, ?_, ?_, ?_, ?_, ?_, ?_, ?_, ?_, ?_, ?_, ?_⟩
  · rw [h'.build, h.build]
  · rw [h'.lzssCfg, h.lzssCfg]
  · rw [h'.rleCfg, h.rleCfg]
  · rw [h'.lzpCfg, h.lzpCfg]
  · rw [h'.readCount, h.readCount]
  · rw [h'.writeCount, h.writeCount]
  · rw [h'.params, h.params]
  · rw [h'.opCodec, h.opCodec]
  · rw [h'.opDir, h.opDir]
  · rw [h'.eoi, h.eoi]
  · rw [h'.host, h.host]
  · rw [← h.status]; exact h'.status

theorem inside_work (s : State) (w : Work) : Inside s { s with work := w } := by constructor <;> rfl
theorem inside_goto (s : State) (p : Point) : Inside s (s.goto p) := by constructor <;> simp
theorem inside_push (s : State) (p : Point) (v : Byte) : Inside s (s.push p v) := by constructor <;> simp
theorem inside_pull (s : State) (p : Point) : Inside s (s.pull p) := by constructor <;> simp
theorem inside_poke (s : State) (sp : Space) (a : Nat) (v : Byte) : Inside s (s.poke sp a v) := by constructor <;> simp
theorem inside_emptyOut (s : State) : Inside s s.emptyOut := by constructor <;> simp
theorem inside_refill (s : State) (v : Byte) : Inside s (s.refill v) := by constructor <;> simp
theorem inside_dropBit (s : State) : Inside s s.dropBit := by constructor <;> simp
theorem inside_nextUnit (s : State) (d : Decoder) : Inside s (s.nextUnit d) := by constructor <;> simp
theorem inside_firstPull (s : State) (d : Decoder) : Inside s (s.firstPull d) := by constructor <;> simp
theorem inside_fillWindow (s : State) : Inside s s.fillWindow := by constructor <;> simp
theorem inside_advanceCursor (s : State) : Inside s s.advanceCursor := by constructor <;> simp
theorem inside_slideWindow (s : State) : Inside s s.slideWindow := by constructor <;> simp
theorem inside_codeRead (s : State) (v : Nat) : Inside s (s.codeRead v) := by constructor <;> simp
theorem inside_identityTable (s : State) : Inside s s.identityTable := by constructor <;> simp
theorem inside_clearPredictor (s : State) : Inside s s.clearPredictor := by constructor <;> simp
theorem inside_nextHash (s : State) (b : Byte) : Inside s (s.nextHash b) := by constructor <;> simp
theorem inside_lzpHit (s : State) : Inside s s.lzpHit := by constructor <;> simp

theorem frame_endWith (s : State) (res : Result) : EngineFrame s (s.endWith res) := by
  constructor <;> simp
  exact .inr ⟨res, rfl⟩

theorem frame_finish (s : State) : EngineFrame s s.finish := frame_endWith s .ok
theorem frame_raise (s : State) (e : Result) : EngineFrame s (s.raise e) := frame_endWith s e

theorem inside_shiftRanks (i : Nat) (s : State) : Inside s (shiftRanks i s) := by
  induction i generalizing s with
  | zero => exact Inside.refl s
  | succ i ih => exact (inside_poke s _ _ _).trans (ih _)

theorem inside_promote (i : Nat) (b : Byte) (s : State) : Inside s (promote i b s) :=
  (inside_shiftRanks i s).trans (inside_poke _ _ _ _)

/-! ## The bit packer -/

theorem ensures_putBits {bits : List Bool} {onPush : List Bool → Point} {onDone : State → Out} {s : State}
    (h : ∀ u, Inside s u → (onDone u).ensures (EngineFrame s)) : (putBits bits onPush onDone s).ensures (EngineFrame s) := by
  unfold putBits
  dsimp only
  split
  · exact ensures_next ((inside_work s _).trans (inside_push _ _ _)).frame
  · exact h _ (inside_work s _)

theorem ensures_flushThenFinish (p : Point) (s : State) : (flushThenFinish p s).ensures (EngineFrame s) := by
  unfold flushThenFinish; split
  · exact ensures_next (inside_push _ _ _).frame
  · exact ensures_next (frame_finish s)

theorem ensures_flushed (s : State) : (flushed s).ensures (EngineFrame s) :=
  ensures_next ((inside_emptyOut s).then_frame (frame_finish _))

/-- An outcome framed against a state that differs only inside is framed against the original. -/
theorem ensures_of_inside {s u : State} {o : Out} (hu : Inside s u) (h : o.ensures (EngineFrame u)) :
    o.ensures (EngineFrame s) := ensures_mono h fun _ ht => hu.then_frame ht

theorem ensures_getBits {onPull : Nat → Nat → Point} {onDone : Nat → State → Out}
    (h : ∀ x u, (onDone x u).ensures (EngineFrame u)) (n x : Nat) (s : State) :
    (getBits onPull onDone n x s).ensures (EngineFrame s) := by
  induction n generalizing x s with
  | zero => exact h x s
  | succ n ih =>
    unfold getBits; split
    · exact ensures_next (inside_pull _ _).frame
    · exact ensures_of_inside (inside_dropBit s) (ih _ _)

/-! ## RLE -/

theorem ensures_rleAfterRun (s : State) : (rleAfterRun s).ensures (EngineFrame s) := by
  unfold rleAfterRun; split
  · exact ensures_next (inside_pull _ _).frame
  · exact ensures_next (inside_goto _ _).frame

theorem ensures_rleStore {b : Byte} {s : State} {k : State → Out} (h : ∀ u, (k u).ensures (EngineFrame u)) :
    (rleStore b s k).ensures (EngineFrame s) :=
  ensures_memWrite (ensures_of_inside ((inside_poke s _ _ _).trans (inside_work _ _)) (h _))

theorem ensures_rleRepeat (b : Byte) (left : Nat) (s : State) : (rleRepeat b left s).ensures (EngineFrame s) := by
  induction left generalizing s with
  | zero => exact ensures_rleAfterRun s
  | succ left ih =>
    unfold rleRepeat
    refine ensures_rleStore fun u => ?_
    split
    · exact ensures_next (inside_push _ _ _).frame
    · exact ih u

theorem ensures_rleReturn (ret : FlushReturn) (s : State) : (rleReturn ret s).ensures (EngineFrame s) := by
  cases ret with
  | afterAppend => exact ensures_next (inside_pull _ _).frame
  | afterRepeat left => exact ensures_rleRepeat _ _ _
  | toRun => exact ensures_next (inside_push _ _ _).frame
  | atEnd => exact ensures_next (frame_finish s)

theorem ensures_rleFlush (ret : FlushReturn) (s : State) : (rleFlush ret s).ensures (EngineFrame s) := by
  unfold rleFlush; split
  · exact ensures_next (inside_push _ _ _).frame
  · exact ensures_rleReturn ret s

theorem ensures_rleLitsStep (t : Nat) (ret : FlushReturn) (s : State) : (rleLitsStep t ret s).ensures (EngineFrame s) := by
  unfold rleLitsStep; split
  · exact ensures_memRead fun v => ensures_next (inside_push _ _ _).frame
  · exact ensures_of_inside (inside_work s _) (ensures_rleReturn ret _)

theorem ensures_rleEmitRun (s : State) : (rleEmitRun s).ensures (EngineFrame s) := by
  unfold rleEmitRun; split
  · exact ensures_rleFlush _ s
  · exact ensures_rleRepeat _ _ s

theorem ensures_rleCountHead (s : State) : (rleCountHead s).ensures (EngineFrame s) := by
  unfold rleCountHead; split
  · exact ensures_of_inside (inside_work s _) (ensures_rleEmitRun _)
  · exact ensures_next (inside_pull _ _).frame

theorem ensures_rleCountStep (s : State) : (rleCountStep s).ensures (EngineFrame s) := by
  unfold rleCountStep; split
  · exact ensures_rleEmitRun s
  · split
    · exact ensures_of_inside (inside_work s _) (ensures_rleCountHead _)
    · exact ensures_rleEmitRun s

theorem ensures_rleTopStep (s : State) : (rleTopStep s).ensures (EngineFrame s) := by
  unfold rleTopStep; split
  · exact ensures_rleFlush _ s
  · split
    · refine ensures_of_inside (inside_work s _) (ensures_rleStore fun u => ?_)
      split
      · exact ensures_next (inside_push _ _ _).frame
      · exact ensures_next (inside_pull _ _).frame
    · exact ensures_of_inside (inside_work s _) (ensures_rleCountHead _)

theorem inside_rleLitHead (left : Nat) (s : State) : Inside s (rleLitHead left s) := by
  unfold rleLitHead; split
  · exact inside_nextUnit _ _
  · exact inside_pull _ _

theorem inside_rleRunHead (left : Nat) (v : Byte) (s : State) : Inside s (rleRunHead left v s) := by
  unfold rleRunHead; split
  · exact inside_nextUnit _ _
  · exact inside_push _ _ _

theorem ensures_rleLitByteStep (left : Nat) (s : State) : (rleLitByteStep left s).ensures (EngineFrame s) := by
  unfold rleLitByteStep; split
  · exact ensures_next (frame_raise s _)
  · exact ensures_next (inside_push _ _ _).frame

/-! ## LZSS -/

theorem inside_lzssFillHead (again : Bool) (s : State) : Inside s (lzssFillHead again s) := by
  unfold lzssFillHead; split
  · exact inside_pull _ _
  · exact inside_goto _ _

theorem inside_lzssFillDone (again : Bool) (s : State) : Inside s (lzssFillDone again s) := by
  unfold lzssFillDone; split
  · exact inside_goto _ _
  · exact (inside_work s _).trans (inside_goto _ _)

theorem ensures_lzssFillStep (again : Bool) (s : State) : (lzssFillStep again s).ensures (EngineFrame s) := by
  unfold lzssFillStep; split
  · exact ensures_next (inside_lzssFillDone _ _).frame
  · refine ensures_memWrite ?_
    dsimp only; split
    · exact ensures_next (((inside_poke s _ _ _).trans (inside_work _ _)).trans (inside_pull _ _)).frame
    · exact ensures_next (((inside_poke s _ _ _).trans (inside_work _ _)).trans (inside_lzssFillDone _ _)).frame

theorem ensures_lzssAfterUnit (s : State) : (lzssAfterUnit s).ensures (EngineFrame s) := by
  unfold lzssAfterUnit; dsimp only; split
  · exact ensures_next (((inside_advanceCursor s).trans (inside_slideWindow _)).trans (inside_lzssFillHead _ _)).frame
  · exact ensures_next ((inside_advanceCursor s).trans (inside_goto _ _)).frame

theorem ensures_lzssPutStep (bits : List Bool) (s : State) : (lzssPutStep bits s).ensures (EngineFrame s) :=
  ensures_putBits fun u hu => ensures_of_inside hu (ensures_lzssAfterUnit u)

theorem ensures_lzssMainStep (s : State) : (lzssMainStep s).ensures (EngineFrame s) := by
  unfold lzssMainStep; split
  · split
    · exact ensures_of_inside (inside_work s _) (ensures_lzssPutStep _ _)
    · exact ensures_fault
  · exact ensures_flushThenFinish _ s

theorem ensures_lzssAppend {v : Byte} {s : State} {k : State → Out} (h : ∀ u, (k u).ensures (EngineFrame u)) :
    (lzssAppend v s k).ensures (EngineFrame s) :=
  ensures_memWrite (ensures_of_inside ((inside_poke s _ _ _).trans (inside_work _ _)) (h _))

theorem ensures_lzssCopyHead (k : Nat) (s : State) : (lzssCopyHead k s).ensures (EngineFrame s) := by
  unfold lzssCopyHead; split
  · exact ensures_memRead fun v => ensures_next (inside_push _ _ _).frame
  · exact ensures_next (inside_nextUnit _ _).frame

/-! ## Elias-Gamma, MTF, LZP -/

theorem ensures_egPutStep (bits : List Bool) (last : Bool) (s : State) : (egPutStep bits last s).ensures (EngineFrame s) := by
  refine ensures_putBits fun u hu => ensures_of_inside hu ?_
  split
  · exact ensures_flushThenFinish _ u
  · exact ensures_next (inside_goto _ _).frame

theorem ensures_egRead (left x : Nat) (s : State) : (egRead left x s).ensures (EngineFrame s) :=
  ensures_getBits (fun _ u => ensures_egPutStep _ _ u) left x s

theorem ensures_egSymStep (left x : Nat) (s : State) : (egSymStep left x s).ensures (EngineFrame s) := by
  unfold egSymStep; split
  · exact ensures_egPutStep _ _ s
  · exact ensures_of_inside (inside_refill s _) (ensures_egRead _ _ _)

theorem ensures_egOutStep (bits : List Bool) (s : State) : (egOutStep bits s).ensures (EngineFrame s) :=
  ensures_putBits fun _ hu => ensures_next (hu.trans (inside_nextUnit _ _)).frame

theorem ensures_mtfByteStep (s : State) : (mtfByteStep s).ensures (EngineFrame s) := by
  unfold mtfByteStep; split
  · exact ensures_next (frame_finish s)
  · exact ensures_memRead fun _ => ensures_next ((inside_work s _).trans (inside_push _ _ _)).frame

theorem inside_lzpBlockHead_or_end (s : State) : EngineFrame s (lzpBlockHead s) := by
  unfold lzpBlockHead lzpEmit; split
  · exact (inside_pull _ _).frame
  · split
    · exact frame_finish s
    · exact (inside_push _ _ _).frame

theorem frame_lzpEmit (s : State) : EngineFrame s (lzpEmit s) := by
  unfold lzpEmit; split
  · exact frame_finish s
  · exact (inside_push _ _ _).frame

theorem frame_lzpNextByte (b : Byte) (s : State) : EngineFrame s (lzpNextByte b s) :=
  ((inside_nextHash s b).trans (inside_work _ _)).then_frame (inside_lzpBlockHead_or_end _)

theorem frame_lzpNewBlock (s : State) : EngineFrame s (lzpNewBlock s) :=
  (inside_work s _).then_frame (inside_lzpBlockHead_or_end _)

theorem ensures_lzpByteStep (s : State) : (lzpByteStep s).ensures (EngineFrame s) := by
  unfold lzpByteStep; split
  · exact ensures_next (frame_lzpEmit s)
  · refine ensures_memRead fun _ => ?_
    split
    · exact ensures_next ((inside_lzpHit s).then_frame (frame_lzpNextByte _ _))
    · refine ensures_memWrite (ensures_memWrite (ensures_next ?_))
      exact (((inside_poke s _ _ _).trans (inside_poke _ _ _ _)).trans (inside_work _ _)).then_frame (frame_lzpNextByte _ _)

theorem ensures_lzpLitsStep (t : Nat) (s : State) : (lzpLitsStep t s).ensures (EngineFrame s) := by
  unfold lzpLitsStep; split
  · exact ensures_memRead fun v => ensures_next (inside_push _ _ _).frame
  · split
    · exact ensures_next (frame_finish s)
    · exact ensures_next (frame_lzpNewBlock s)

theorem ensures_lzpBitHead (s : State) : (lzpBitHead s).ensures (EngineFrame s) := by
  unfold lzpBitHead; split
  · split
    · exact ensures_memRead fun v => ensures_next (inside_push _ _ _).frame
    · exact ensures_next (inside_pull _ _).frame
  · exact ensures_next (inside_nextUnit _ _).frame

theorem ensures_lzpLiteralStep (s : State) : (lzpLiteralStep s).ensures (EngineFrame s) := by
  unfold lzpLiteralStep; split
  · exact ensures_next (frame_finish s)
  · exact ensures_memWrite (ensures_next ((inside_poke s _ _ _).trans (inside_push _ _ _)).frame)

theorem ensures_lzpOutStep (b : Byte) (s : State) : (lzpOutStep b s).ensures (EngineFrame s) :=
  ensures_of_inside ((inside_nextHash s b).trans (inside_work _ _)) (ensures_lzpBitHead _)

/-! ## Wire units, fetch, the atomic step -/

theorem ensures_onUnit {d : Decoder} {s : State} {k : Out} {P : State → Prop} (h : k.ensures P) : (onUnit d s k).ensures P := by
  unfold onUnit; split
  · exact h
  · exact ensures_refused

theorem ensures_egSymbol (sym : Nat) (s : State) : (egSymbol sym s).ensures (EngineFrame s) :=
  ensures_onUnit (ensures_of_inside (inside_codeRead s _) (ensures_egOutStep _ _))

/-- A wire unit, that is any instruction that is no command word, is framed like an engine step. -/
theorem ensures_exec_unit (i : Instr) (hi : i.family ≠ .command) (s : State) :
    Out.ensures (exec i s) (EngineFrame s) := by
  cases i with
  | lzssLiteral v => exact ensures_onUnit (ensures_next (inside_push _ _ _).frame)
  | lzssReference pos len => exact ensures_onUnit (ensures_of_inside (inside_work s _) (ensures_lzssCopyHead _ _))
  | rleLiteralBlock c => exact ensures_onUnit (ensures_next ((inside_work s _).trans (inside_rleLitHead _ _)).frame)
  | rleRunBlock c b => exact ensures_onUnit (ensures_next ((inside_work s _).trans (inside_rleRunHead _ _ _)).frame)
  | egTerminal => exact ensures_onUnit (ensures_of_inside (inside_codeRead s _) (ensures_flushThenFinish _ _))
  | egInvalidValue suffix => exact ensures_onUnit (ensures_next ((inside_codeRead s _).then_frame (frame_raise _ _)))
  | egInvalidPrefix => exact ensures_onUnit (ensures_next ((inside_work s _).then_frame (frame_raise _ _)))
  | mtfRank r =>
    exact ensures_onUnit (ensures_memRead fun b => ensures_next ((inside_work s _).trans (inside_push _ _ _)).frame)
  | lzpBlock m => exact ensures_onUnit (ensures_of_inside (inside_work s _) (ensures_lzpBitHead _))
  | egSymbol0 => exact ensures_egSymbol 0 s
  | egSymbol1 => exact ensures_egSymbol 1 s
  | egSymbol2 => exact ensures_egSymbol 2 s
  | egSymbol3 => exact ensures_egSymbol 3 s
  | egSymbol4 => exact ensures_egSymbol 4 s
  | egSymbol5 => exact ensures_egSymbol 5 s
  | egSymbol6 => exact ensures_egSymbol 6 s
  | egSymbol7 => exact ensures_egSymbol 7 s
  | egSymbol8 => exact ensures_egSymbol 8 s
  | egSymbol9 => exact ensures_egSymbol 9 s
  | egSymbol10 => exact ensures_egSymbol 10 s
  | egSymbol11 => exact ensures_egSymbol 11 s
  | egSymbol12 => exact ensures_egSymbol 12 s
  | egSymbol13 => exact ensures_egSymbol 13 s
  | egSymbol14 => exact ensures_egSymbol 14 s
  | egSymbol15 => exact ensures_egSymbol 15 s
  | rleEnc | rleDec | lzssEnc | lzssDec | egEnc | egDec | mtfEnc | mtfDec | lzpEnc | lzpDec => simp [Instr.family] at hi
  | reservedCodec5 d | reservedCodec6 d | reservedCodec7 d => simp [Instr.family] at hi
  | reservedHighbits h d c => simp [Instr.family] at hi

/-- A decoder's grammar gives units of its own CODEC, never a command. -/
theorem decode_family {d : Decoder} {w : Wire} {l : List Bool} {i : Instr} {rest : List Bool}
    (h : decode d.family w l = .ok (i, rest)) : i.family = d.family := by
  have gamma : ∀ v, (gammaInstr v).family = .eg := by
    intro v; unfold gammaInstr; split <;> rfl
  have eg : ∀ (l : List Bool) (g : Nat) (r : Instr × List Bool), decodeEg g l = some r → r.1.family = .eg := by
    intro l
    induction l with
    | nil => intro g r hr; simp [decodeEg] at hr
    | cons b l ih =>
      intro g r hr
      cases b with
      | true =>
        simp only [decodeEg] at hr
        split at hr
        · simp at hr; subst hr; rfl
        · exact ih _ _ hr
      | false =>
        simp only [decodeEg, Option.map_eq_some_iff] at hr
        obtain ⟨⟨x, r'⟩, _, rfl⟩ := hr
        exact gamma _
  unfold decode at h
  split at h
  · rename_i r hr
    simp only [Except.ok.injEq] at h; subst h
    cases d with
    | eg => exact eg l 0 _ hr
    | lzss =>
      simp only [Decoder.family, decodeFirst] at hr
      cases l with
      | nil => simp [decodeLzss] at hr
      | cons b l =>
        cases b with
        | true =>
          simp only [decodeLzss, Option.map_eq_some_iff] at hr
          obtain ⟨⟨x, r'⟩, _, h2⟩ := hr
          simp at h2; rw [← h2.1]; rfl
        | false =>
          simp only [decodeLzss] at hr
          split at hr
          · simp at hr
          · simp only [Option.map_eq_some_iff] at hr
            obtain ⟨⟨x, r'⟩, _, h2⟩ := hr
            simp at h2; rw [← h2.1]; rfl
    | rle =>
      simp only [Decoder.family, decodeFirst, decodeRle] at hr
      split at hr
      · simp at hr
      · split at hr
        · simp at hr; rw [← hr.1]; rfl
        · simp only [Option.map_eq_some_iff] at hr
          obtain ⟨⟨x, r'⟩, _, h2⟩ := hr
          simp at h2; rw [← h2.1]; rfl
    | mtf =>
      simp only [Decoder.family, decodeFirst, Option.map_eq_some_iff] at hr
      obtain ⟨⟨x, r'⟩, _, h2⟩ := hr
      simp at h2; rw [← h2.1]; rfl
    | lzp =>
      simp only [Decoder.family, decodeFirst, Option.map_eq_some_iff] at hr
      obtain ⟨⟨x, r'⟩, _, h2⟩ := hr
      simp at h2; rw [← h2.1]; rfl
  · simp at h

theorem family_ne_command (d : Decoder) : d.family ≠ .command := by cases d <;> simp [Decoder.family]

theorem inside_noteUnit (d : Decoder) (s : State) : Inside s (noteUnit d s) := by
  cases d with
  | eg => exact inside_work s _
  | rle => exact inside_work s _
  | mtf => exact Inside.refl s
  | lzp => exact Inside.refl s
  | lzss =>
    simp only [noteUnit]; split
    · exact inside_work s _
    · exact Inside.refl s

theorem ensures_takeUnitBits (d : Decoder) (bits : List Bool) (s : State) : (takeUnitBits d bits s).ensures (EngineFrame s) := by
  unfold takeUnitBits; split
  · rename_i i rest h
    have hi : i.family ≠ .command := by rw [decode_family h]; exact family_ne_command d
    have hu : Inside s ({ s with work := { s.work with unit := [] } }.goto (.unit d)) :=
      (inside_work s _).trans (inside_goto _ _)
    exact ensures_of_inside hu (ensures_exec_unit i hi _)
  · exact ensures_next (((inside_work s _).trans (inside_goto _ _)).trans (inside_noteUnit _ _)).frame

theorem ensures_fetchStep (d : Decoder) (s : State) : (fetchStep d s).ensures (EngineFrame s) := by
  unfold fetchStep; split
  · exact ensures_of_inside (inside_dropBit s) (ensures_takeUnitBits _ _ _)
  · exact ensures_next (inside_pull _ _).frame

theorem frame_fetchEnd (d : Decoder) (s : State) : EngineFrame s (fetchEnd d s) := by
  cases d with
  | lzss => exact frame_finish s
  | mtf => exact frame_finish s
  | lzp => exact frame_finish s
  | eg => exact frame_raise s _
  | rle =>
    simp only [fetchEnd]; split
    · exact frame_finish s
    · exact frame_raise s _

theorem ensures_fetchedStep (d : Decoder) (s : State) : (fetchedStep d s).ensures (EngineFrame s) := by
  unfold fetchedStep; split
  · exact ensures_next (frame_fetchEnd d s)
  · split
    · exact ensures_of_inside (inside_refill s _) (ensures_fetchStep _ _)
    · exact ensures_takeUnitBits _ _ _

/-- THE FRAME OF ONE POINT'S STEP. -/
theorem ensures_advance (p : Point) (s : State) : (advance p s).ensures (EngineFrame s) := by
  cases p with
  | fetch d => exact ensures_fetchStep d s
  | fetched d => exact ensures_fetchedStep d s
  | unit d => exact ensures_next (inside_nextUnit _ _).frame
  | rleTop => exact ensures_rleTopStep s
  | rleCount => exact ensures_rleCountStep s
  | rleLits t ret => exact ensures_rleLitsStep t ret s
  | rleRunCmd => exact ensures_next (inside_push _ _ _).frame
  | rleRunByte => exact ensures_rleAfterRun s
  | rleLitByte left => exact ensures_rleLitByteStep left s
  | rleLitDone left => exact ensures_next (inside_rleLitHead _ _).frame
  | rleRunDone left v => exact ensures_next (inside_rleRunHead _ _ _).frame
  | lzssFill again => exact ensures_lzssFillStep again s
  | lzssMain => exact ensures_lzssMainStep s
  | lzssPut bits => exact ensures_of_inside (inside_emptyOut s) (ensures_lzssPutStep _ _)
  | lzssFlushed => exact ensures_flushed s
  | lzssLitDone v => exact ensures_lzssAppend fun _ => ensures_next (inside_nextUnit _ _).frame
  | lzssCopied k v => exact ensures_lzssAppend fun u => ensures_lzssCopyHead _ u
  | egMain => exact ensures_egRead 4 0 s
  | egSym left x => exact ensures_egSymStep left x s
  | egPut bits last => exact ensures_of_inside (inside_emptyOut s) (ensures_egPutStep _ _ _)
  | egFlushed => exact ensures_flushed s
  | egOut bits => exact ensures_of_inside (inside_emptyOut s) (ensures_egOutStep _ _)
  | egOutFlushed => exact ensures_flushed s
  | mtfByte => exact ensures_mtfByteStep s
  | mtfRanked b => exact ensures_next ((inside_promote _ _ s).trans (inside_pull _ _)).frame
  | mtfOut b => exact ensures_next ((inside_promote _ _ s).trans (inside_nextUnit _ _)).frame
  | lzpByte => exact ensures_lzpByteStep s
  | lzpLits t => exact ensures_lzpLitsStep t s
  | lzpLiteral => exact ensures_lzpLiteralStep s
  | lzpOut b => exact ensures_lzpOutStep b s

/-- The frame of a further step, where the first has not ended the operation. -/
theorem EngineFrame.trans {s t u : State} (h : EngineFrame s t) (hs : t.status = s.status) (h' : EngineFrame t u) :
    EngineFrame s u :=
  Inside.then_frame ⟨h.build, h.lzssCfg, h.rleCfg, h.lzpCfg, h.readCount, h.writeCount, h.params, h.opCodec, h.opDir, h.eoi,
    h.host, hs⟩ h'

theorem EngineFrame.refl (s : State) : EngineFrame s s := (Inside.refl s).frame

theorem ensures_settle (fuel : Nat) (s : State) : (settle fuel s).ensures (EngineFrame s) := by
  induction fuel generalizing s with
  | zero => exact ensures_next (EngineFrame.refl s)
  | succ fuel ih =>
    unfold settle; split
    · rename_i p _
      refine ensures_andThen (ensures_advance p s) fun t ht => ?_
      rcases ht.status with hs | ⟨hi, _⟩
      · exact ensures_mono (ih t) fun u hu => ht.trans hs hu
      · cases fuel with
        | zero => exact ensures_next ht
        | succ n => unfold settle; rw [hi]; exact ensures_next ht
    · exact ensures_next (EngineFrame.refl s)
    · exact ensures_next (EngineFrame.refl s)
    · exact ensures_next (EngineFrame.refl s)

/-- THE FRAME OF AN ATOMIC STEP. -/
theorem ensures_engineStep (s : State) : (engineStep s).ensures (EngineFrame s) := ensures_settle _ s

end Sys2Proof.Machine
end

