-- ==== Sys2Proof/Laws/Live.lean ====
section
/-! SUPPORT. The invariant of a running operation apart from its point, the measure of an atomic step, and what one push, pull, jump, end
or RAM access does to both. -/

namespace Sys2Proof.Machine


/-- What holds of every state of a running operation, whatever its point: the part of the invariant that the engine's own
updates of `seq`, `work` and the RAMs keep. -/
structure Live (op : Op) (s : State) : Prop where
  build : s.build.Legal
  rams : ∀ sp, Ram.wf sp (s.ram sp)
  lzssCfg : s.lzssCfg &&& ~~~lzssCfgMask = 0#32
  rleCfg : s.rleCfg &&& ~~~rleCfgMask = 0#32
  lzpCfg : s.lzpCfg &&& ~~~lzpCfgMask = 0#32
  busy : s.status.busy = true
  done : s.status.done = false
  result : s.status.result = .ok
  params : ParamsOk op s.params s.build
  codec : s.opCodec = op.codecField
  dir : s.opDir = op.dirField
  statusCodec : s.status.codec = s.opCodec
  statusDir : s.status.dir = s.opDir
  endSeen : s.status.eoi = s.eoi

/-- An update inside the operation keeps `Live` when the RAMs stay canonical. -/
theorem Live.inside {op s t} (h : Live op s) (hi : Inside s t) (hr : ∀ sp, Ram.wf sp (t.ram sp)) : Live op t := by
  constructor
  · rw [hi.build]; exact h.build
  · exact hr
  · rw [hi.lzssCfg]; exact h.lzssCfg
  · rw [hi.rleCfg]; exact h.rleCfg
  · rw [hi.lzpCfg]; exact h.lzpCfg
  · rw [hi.status]; exact h.busy
  · rw [hi.status]; exact h.done
  · rw [hi.status]; exact h.result
  · rw [hi.params, hi.build]; exact h.params
  · rw [hi.opCodec]; exact h.codec
  · rw [hi.opDir]; exact h.dir
  · rw [hi.status, hi.opCodec]; exact h.statusCodec
  · rw [hi.status, hi.opDir]; exact h.statusDir
  · rw [hi.status, hi.eoi]; exact h.endSeen

/-- An update that leaves the RAMs keeps `Live`. -/
theorem Live.same {op s t} (h : Live op s) (hi : Inside s t) (hr : ∀ sp, t.ram sp = s.ram sp) : Live op t :=
  h.inside hi fun sp => by rw [hr sp]; exact h.rams sp

theorem Live.work {op s} (h : Live op s) (w : Work) : Live op { s with work := w } :=
  h.same (inside_work s w) fun sp => by cases sp <;> rfl

theorem Live.poke {op s} (h : Live op s) (sp a v) : Live op (s.poke sp a v) :=
  h.inside (inside_poke s sp a v) (wf_poke s sp a v h.rams)

theorem Live.pull {op s} (h : Live op s) (p) : Live op (s.pull p) :=
  h.same (inside_pull s p) fun sp => by cases sp <;> simp [State.ram]
theorem Live.push {op s} (h : Live op s) (p v) : Live op (s.push p v) :=
  h.same (inside_push s p v) fun sp => by cases sp <;> simp [State.ram]
theorem Live.goto {op s} (h : Live op s) (p) : Live op (s.goto p) :=
  h.same (inside_goto s p) fun sp => by cases sp <;> simp [State.ram]
theorem Live.seq {op s} (h : Live op s) (q) : Live op { s with seq := q } :=
  h.same (by constructor <;> rfl) fun sp => by cases sp <;> rfl

theorem Live.running {p s} (h : Live p.op s) (acc : AccumulatorsOk p s.work) (w : WorkOk p s) : Running p s :=
  ⟨h.params, h.codec, h.dir, h.statusCodec, h.statusDir, h.endSeen, acc, w⟩

/-- The invariant of a state at a point or a port request. -/
theorem inv_run {p s} (h : Live p.op s) (hq : s.seq.point = some p) (hn : s.eoi = true → ∀ p, s.seq ≠ .waitPull p)
    (acc : AccumulatorsOk p s.work) (w : WorkOk p s) : Inv s where
  build := h.build
  rams := h.rams
  lzssCfg := h.lzssCfg
  rleCfg := h.rleCfg
  lzpCfg := h.lzpCfg
  busy := by
    simp only [h.busy, true_iff]
    intro hs; rw [hs] at hq; simp [Seq.point] at hq
  busyNotDone := fun _ => ⟨h.done, h.result⟩
  noPullAfterEnd := hn
  running := by
    intro q hq'
    rw [hq] at hq'; cases hq'
    exact h.running acc w

/-- The invariant of the idle state at an operation's end. -/
theorem inv_end {op s} (h : Live op s) (res) : Inv (s.endWith res) where
  build := by simpa using h.build
  rams := fun sp => by
    have := h.rams sp
    cases sp <;> simpa [State.ram] using this
  lzssCfg := by simpa using h.lzssCfg
  rleCfg := by simpa using h.rleCfg
  lzpCfg := by simpa using h.lzpCfg
  busy := by simp
  busyNotDone := by simp
  noPullAfterEnd := by simp
  running := by simp [Seq.point]

/-- A read depends on the RAMs and the epoch only. -/
theorem peek_of_rams {s t : State} (hr : ∀ sp, t.ram sp = s.ram sp) (he : t.epoch = s.epoch) (sp a) : t.peek sp a = s.peek sp a :=
  peek_congr t s sp a (hr sp) he

/-- WorkOk does not look at seq or rv. -/
theorem workOk_congr {p s t} (hr : ∀ sp, t.ram sp = s.ram sp) (he : t.epoch = s.epoch) (hp : t.params = s.params)
    (rv : Option Byte) (hw : t.work = { s.work with rv := rv }) (h : WorkOk p s) : WorkOk p t := by
  have hk := peek_of_rams hr he
  have hwin : t.win = s.win := by simpa using hr .win
  have perm : Permutation s → Permutation t := by
    intro h b; obtain ⟨i, hi, h'⟩ := h b; exact ⟨i, hi, by rw [hk]; exact h'⟩
  have dec : ∀ d, DecoderOk d s → DecoderOk d t := by
    intro d; cases d <;> simp [DecoderOk, hp, hw] <;> exact perm
  have part : ∀ d, PartialUnit d s → PartialUnit d t := by
    intro d; simp [PartialUnit, hp, hw]
  have cur : CursorOk s → CursorOk t := by simp [CursorOk, WindowWritten, hp, hw, hwin]
  have ww : WindowWritten s → WindowWritten t := by simp [WindowWritten, hw, hwin]
  cases p with
  | fetch d => exact ⟨dec d h.1, part d h.2⟩
  | fetched d => exact ⟨dec d h.1, part d h.2⟩
  | unit d => exact dec d h
  | lzssFill again => cases again with
    | true => exact ⟨cur h.1, by simpa [hp, hw] using h.2⟩
    | false => exact ⟨ww h.1, by simpa [hp, hw] using h.2⟩
  | lzssMain => exact cur h
  | lzssPut bits => exact ⟨cur h.1, by simpa [hp, hw] using h.2⟩
  | mtfByte => exact perm h
  | mtfRanked b => exact ⟨perm h.1, by rw [hk, hw]; exact h.2⟩
  | mtfOut b => exact ⟨perm h.1, by rw [hk, hw]; exact h.2⟩
  | _ => simpa [WorkOk, hp, hw] using h

theorem acc_rv {p w} (rv) (h : AccumulatorsOk p w) : AccumulatorsOk p { w with rv := rv } := h

/-- How many bits the input accumulator still holds, by its mask. -/
def bitsLeft (m : Byte) : Nat := if m = 0#8 then 0 else m.toNat.log2 + 1

/-- THE MEASURE: an upper bound on the points the engine still passes before it waits or ends. -/
def mu (p : Point) (w : Work) : Nat :=
  match p with
  | .fetch _ => bitsLeft w.imask + 2
  | .fetched _ => if w.rv = none then 1 else 12
  | .unit _ | .egOut _ | .lzssLitDone _ | .lzssCopied _ _ | .rleLitDone _ | .rleRunDone _ _ | .mtfOut _ | .lzpOut _ => 11
  | .rleTop => if w.rv = none then 1 else 3
  | .rleCount => if w.rv = none then 2 else 4
  | .rleLits _ _ | .rleRunByte => 5
  | .rleRunCmd => 1
  | .rleLitByte _ => 1
  | .lzssFill _ => if w.rv = none then 2 else 3
  | .lzssMain => 1
  | .lzssPut _ => 4
  | .lzssFlushed => 1
  | .egMain => bitsLeft w.imask + 2
  | .egSym _ _ => if w.rv = none then 1 else 12
  | .egPut _ _ => 12
  | .egFlushed | .egOutFlushed => 1
  | .mtfByte => 1
  | .mtfRanked _ => 2
  | .lzpByte => if w.rv = none then 1 else 2
  | .lzpLits _ => 2
  | .lzpLiteral => 1

theorem bitsLeft_le (m : Byte) : bitsLeft m ≤ 8 := by
  unfold bitsLeft; split
  · omega
  · rename_i h
    have : m.toNat ≠ 0 := by intro h'; exact h (BitVec.eq_of_toNat_eq h')
    have := (Nat.log2_lt this (k := 8)).2 m.isLt
    omega

/-- Taking a bit leaves one fewer. -/
theorem bitsLeft_shift (m : Byte) (h : m ≠ 0#8) : bitsLeft (m >>> 1) + 1 = bitsLeft m := by
  revert m; decide

theorem oneHot_shift (m : Byte) (h : m = 0#8 ∨ OneHot m) : (m >>> 1 = 0#8 ∨ OneHot (m >>> 1)) := by
  rcases h with rfl | ⟨i, hi, rfl⟩
  · left; decide
  · by_cases h7 : i = 7
    · left; subst h7; decide
    · right
      refine ⟨i + 1, by omega, ?_⟩
      rw [BitVec.shiftRight_add]

theorem oneHot_ne_zero (m : Byte) (h : OneHot m) : m ≠ 0#8 := by
  obtain ⟨i, hi, rfl⟩ := h
  interval_cases i <;> decide

/-- The outcome is a next state that meets the invariant, with a measure below `n` when the engine still runs. -/
def Reach (n : Nat) (o : Out) : Prop :=
  ∃ t, o = .next t ∧ Inv t ∧ ∀ q, t.seq = .run q → mu q t.work < n

theorem reach_mono {n m o} (h : Reach n o) (hnm : n ≤ m) : Reach m o := by
  obtain ⟨t, h1, h2, h3⟩ := h
  exact ⟨t, h1, h2, fun q hq => lt_of_lt_of_le (h3 q hq) hnm⟩

/-- A push keeps the invariant when the point it waits at is in order. -/
theorem reach_push {n p s v} (h : Live p.op s) (acc : AccumulatorsOk p s.work) (w : WorkOk p s) :
    Reach n (.next (s.push p v)) := by
  refine ⟨_, rfl, inv_run (h.push p v) (by simp [Seq.point]) (by simp) (by simpa using acc) ?_, by simp⟩
  exact workOk_congr (fun sp => by cases sp <;> simp [State.ram]) (by simp) (by simp) s.work.rv (by simp) w

/-- So does going on at a point, when the measure falls. -/
theorem reach_goto {n p s} (h : Live p.op s) (acc : AccumulatorsOk p s.work) (w : WorkOk p s) (hm : mu p s.work < n) :
    Reach n (.next (s.goto p)) := by
  refine ⟨_, rfl, inv_run (h.goto p) (by simp [Seq.point]) (by simp) (by simpa using acc) ?_, ?_⟩
  · exact workOk_congr (fun sp => by cases sp <;> simp [State.ram]) (by simp) (by simp) s.work.rv (by simp) w
  · intro q hq; simp at hq; subst hq; simpa using hm

/-- So does a pull; after End it goes on at the point with no byte. -/
theorem reach_pull {n p s} (h : Live p.op s) (acc : AccumulatorsOk p s.work) (w : WorkOk p s)
    (hm : mu p { s.work with rv := none } < n) : Reach n (.next (s.pull p)) := by
  refine ⟨_, rfl, ?_, ?_⟩
  · unfold State.pull; split
    · have h' : Live p.op { s with work := { s.work with rv := none }, seq := .run p } :=
        h.same (by constructor <;> rfl) (fun sp => by cases sp <;> rfl)
      refine inv_run h' (by simp [Seq.point]) (by simp) acc ?_
      exact workOk_congr (s := s) (fun sp => by cases sp <;> simp [State.ram]) (by simp) (by simp) none (by simp) w
    · rename_i he
      refine inv_run (h.seq _) (by simp [Seq.point]) (by simp [he]) acc ?_
      exact workOk_congr (s := s) (fun sp => by cases sp <;> simp [State.ram]) (by simp) (by simp) s.work.rv (by simp) w
  · intro q hq
    rw [pull_seq] at hq
    split at hq
    · rename_i he; simp at hq; subst hq
      rw [pull_work]; simp only [he, if_true]; exact hm
    · simp at hq

/-- So does the end of an operation. -/
theorem reach_end {n op s res} (h : Live op s) : Reach n (.next (s.endWith res)) :=
  ⟨_, rfl, inv_end h res, by simp⟩
theorem reach_finish {n op s} (h : Live op s) : Reach n (.next s.finish) := reach_end h
theorem reach_raise {n op s e} (h : Live op s) : Reach n (.next (s.raise e)) := reach_end h

/-- A RAM read inside the used part goes on. -/
theorem reach_memRead {n op sp a s k} (ha : a < usedPart op s.params sp) (h : Reach n (k (s.peek sp a))) :
    Reach n (memRead op sp a s k) := by unfold memRead; rw [if_pos ha]; exact h
/-- A RAM write inside the used part goes on. -/
theorem reach_memWrite {n op sp a v s k} (ha : a < usedPart op s.params sp) (h : Reach n (k (s.poke sp a v))) :
    Reach n (memWrite op sp a v s k) := by unfold memWrite; rw [if_pos ha]; exact h

end Sys2Proof.Machine
end

