-- ==== Sys2Proof/Laws/Codecs.lean ====
section
/-! SUPPORT. RLE, MTF and LZP: every step function completes, keeps the invariant and lowers the measure. -/

namespace Sys2Proof.Machine


/-- Both accumulators between two primitives, at a point that does not push a full byte. -/
def AccPlain (w : Work) : Prop :=
  (w.imask = 0#8 ∨ OneHot w.imask) ∧ OneHot w.omask ∧ w.obits &&& (w.omask ||| (w.omask - 1#8)) = 0#8

/-! ## RLE -/

/-- The legal parameters of RLE.ENC. -/
theorem rle_params {s} (h : Live .rleEnc s) : 2 ≤ s.params.rl ∧ s.params.rl ≤ 128 ∧ s.params.rover ≤ 255 := h.params

theorem reach_rleAfterRun {s n} (h : Live .rleEnc s) (acc : AccPlain s.work) (hj : s.work.j + 2 ≤ s.params.rl)
    (hp : s.work.prev = none → s.work.j = 0) (hn : (if s.work.rv = none then 1 else 3) < n) : Reach n (rleAfterRun s) := by
  unfold rleAfterRun; split
  · refine reach_pull (p := .rleTop) h acc ⟨hj, hp⟩ ?_
    simp [mu]; split at hn <;> omega
  · exact reach_goto (p := .rleTop) h acc ⟨hj, hp⟩ hn

theorem reach_rleStore {s n b k} (h : Live .rleEnc s) (hj : s.work.j + 2 ≤ s.params.rl)
    (hk : ∀ t, Live .rleEnc t → t.params = s.params → t.work = { s.work with j := s.work.j + 1 } → Reach n (k t)) :
    Reach n (rleStore b s k) := by
  unfold rleStore
  refine reach_memWrite (by simp [usedPart]; omega) ?_
  exact hk _ ((h.poke _ _ _).work _) (by simp) (by simp)

theorem reach_rleRepeat {b n} (left : Nat) {s} (h : Live .rleEnc s) (acc : AccPlain s.work) (hj : s.work.j + 2 ≤ s.params.rl)
    (hp : s.work.prev ≠ none) (hn : (if s.work.rv = none then 1 else 3) < n) : Reach n (rleRepeat b left s) := by
  induction left generalizing s with
  | zero => exact reach_rleAfterRun h acc hj (fun h => absurd h hp) hn
  | succ left ih =>
    unfold rleRepeat
    refine reach_rleStore h hj fun t ht htp htw => ?_
    have acc' : AccPlain t.work := by rw [htw]; exact acc
    have hp' : t.work.prev ≠ none := by rw [htw]; exact hp
    split
    · rename_i hfull
      refine reach_push (p := .rleLits 0 (.afterRepeat left)) ht acc' ?_
      have hj' : t.work.j = s.work.j + 1 := by rw [htw]
      rw [htp] at hfull
      refine ⟨by omega, by rw [htp]; omega, hp', by simp⟩
    · rename_i hfull
      refine ih ht acc' ?_ hp' ?_
      · have : t.work.j = s.work.j + 1 := by rw [htw]
        rw [htp] at hfull ⊢; omega
      · rw [htw]; exact hn

theorem reach_rleReturn {ret n s} (h : Live .rleEnc s) (acc : AccPlain s.work) (hj : s.work.j = 0)
    (hp : s.work.prev ≠ none ∨ ret = .atEnd)  (hret : ret = .toRun → s.params.rover < s.work.k ∧ s.work.k ≤ s.params.rl + s.params.rover) (hn : 4 < n) : Reach n (rleReturn ret s) := by
  have hrl := rle_params h
  cases ret with
  | afterAppend =>
    refine reach_pull (p := .rleTop) h acc ⟨by omega, fun _ => hj⟩ ?_
    simp [mu]; omega
  | afterRepeat left =>
    refine reach_rleRepeat left h acc (by omega) (by simpa using hp) ?_
    split <;> omega
  | toRun => exact reach_push (p := .rleRunCmd) h acc ⟨hj, by simpa using hp⟩
  | atEnd => exact reach_finish h

theorem reach_rleFlush {ret n s} (h : Live .rleEnc s) (acc : AccPlain s.work) (hj : s.work.j + 2 ≤ s.params.rl)
    (hp : s.work.prev = none → s.work.j = 0) (ht : ret = .toRun ∧ s.work.prev ≠ none ∨ ret = .atEnd)
    (hret : ret = .toRun → s.params.rover < s.work.k ∧ s.work.k ≤ s.params.rl + s.params.rover) : Reach n (rleFlush ret s) := by
  unfold rleFlush; split
  · refine reach_push (p := .rleLits 0 ret) h acc ⟨by omega, by omega, ?_, hret⟩
    intro h'; have := hp h'; omega
  · have hj0 : s.work.j = 0 := by omega
    rcases ht with ⟨rfl, hpp⟩ | rfl
    · exact reach_push (p := .rleRunCmd) h acc ⟨hj0, hpp⟩
    · exact reach_finish h

theorem reach_rleLitsStep {t ret s} (h : Live .rleEnc s) (acc : AccPlain s.work) (w : WorkOk (.rleLits t ret) s) :
    Reach 5 (rleLitsStep t ret s) := by
  obtain ⟨h1, h2, h3, h4⟩ := w
  unfold rleLitsStep; split
  · refine reach_memRead (by simp [usedPart]; omega) ?_
    exact reach_push (p := .rleLits (t+1) ret) h acc ⟨by omega, h2, h3, h4⟩
  · exact reach_rleReturn (h.work _) acc rfl (.inl h3) h4 (by omega)

theorem reach_rleEmitRun {s n} (h : Live .rleEnc s) (acc : AccPlain s.work) (hj : s.work.j + 2 ≤ s.params.rl)
    (hp : s.work.prev ≠ none) (hk : s.work.k ≤ s.params.rl + s.params.rover)
    (hn : s.work.k ≤ s.params.rover → (if s.work.rv = none then 1 else 3) < n) : Reach n (rleEmitRun s) := by
  unfold rleEmitRun; split
  · exact reach_rleFlush h acc hj (fun h => absurd h hp) (.inl ⟨rfl, hp⟩) (fun _ => ⟨by assumption, hk⟩)
  · exact reach_rleRepeat _ h acc hj hp (hn (by omega))

theorem reach_rleCountHead {s n} (h : Live .rleEnc s) (acc : AccPlain s.work) (hj : s.work.j + 2 ≤ s.params.rl)
    (hp : s.work.prev ≠ none) (hk1 : 1 ≤ s.work.k) (hk : s.work.k ≤ s.params.rl + s.params.rover) (hn : 2 < n) :
    Reach n (rleCountHead s) := by
  have hrl := rle_params h
  unfold rleCountHead; split
  · exact reach_rleEmitRun (h.work _) acc hj hp hk (fun h' => absurd h' (by simp; omega))
  · refine reach_pull (p := .rleCount) h acc ⟨hj, hp, hk1, by omega⟩ ?_
    simp [mu]; omega

theorem reach_rleCountStep {s} (h : Live .rleEnc s) (acc : AccPlain s.work) (w : WorkOk .rleCount s) :
    Reach (mu .rleCount s.work) (rleCountStep s) := by
  obtain ⟨hj, hp, hk1, hk⟩ := w
  unfold rleCountStep
  split
  · rename_i hrv
    exact reach_rleEmitRun h acc hj hp (by omega) (fun _ => by simp [hrv, mu])
  · rename_i b hrv
    split
    · exact reach_rleCountHead (h.work _) acc hj hp (by simp) (by simp; omega) (by simp [mu, hrv])
    · exact reach_rleEmitRun h acc hj hp (by omega) (fun _ => by simp [hrv, mu])

theorem reach_rleTopStep {s} (h : Live .rleEnc s) (acc : AccPlain s.work) (w : WorkOk .rleTop s) :
    Reach (mu .rleTop s.work) (rleTopStep s) := by
  obtain ⟨hj, hp⟩ := w
  have hrl := rle_params h
  unfold rleTopStep
  split
  · exact reach_rleFlush h acc hj hp (.inr rfl) (by simp)
  · rename_i b hrv
    split
    · refine reach_rleStore (h.work _) hj fun t ht htp htw => ?_
      have acc' : AccPlain t.work := by rw [htw]; exact acc
      have hp' : t.work.prev ≠ none := by rw [htw]; simp
      have hj' : t.work.j = s.work.j + 1 := by rw [htw]
      dsimp only at htp
      split
      · exact reach_push (p := .rleLits 0 .afterAppend) ht acc' ⟨by omega, by omega, hp', by simp⟩
      · rename_i hf
        rw [htp] at hf
        refine reach_pull (p := .rleTop) ht acc' ⟨by rw [htp]; omega, fun h => absurd h hp'⟩ ?_
        simp [mu, hrv]
    · rename_i hpb
      refine reach_rleCountHead (h.work _) acc hj ?_ (by simp) (by simp; omega) (by simp [mu, hrv])
      simp at hpb; simp [hpb]

/-! ## Decoders -/

/-- No bits are no unit. -/
theorem partial_nil (d : Decoder) (w : Wire) : decodeFirst d.family w [] = none := by
  cases d <;> rfl

theorem reach_nextUnit {d n s} (h : Live (Point.op (.fetch d)) s) (acc : AccPlain s.work) (hd : DecoderOk d s) (hn : bitsLeft s.work.imask + 2 < n) :
    Reach n (.next (s.nextUnit d)) := by
  have e : s.nextUnit d = ({ s with work := s.work.newUnit d } : State).goto (.fetch d) := rfl
  rw [e]
  refine reach_goto (p := .fetch d) (h.work _) ?_ ⟨?_, partial_nil d _⟩ ?_
  · exact acc
  · cases d with
    | mtf => exact hd
    | _ => exact hd
  · simpa [mu] using hn

theorem reach_firstPull {d n s} (h : Live (Point.op (.fetched d)) s) (acc : AccPlain s.work) (hd : DecoderOk d s) (hn : 1 < n) :
    Reach n (.next (s.firstPull d)) := by
  unfold State.firstPull
  refine reach_pull (p := .fetched d) (h.work _) ?_ ⟨?_, partial_nil d _⟩ ?_
  · exact acc
  · cases d with
    | mtf => exact hd
    | _ => exact hd
  · simp [mu]; omega

theorem reach_rleLitHead {left n s} (h : Live .rleDec s) (acc : AccPlain s.work) (hn : bitsLeft s.work.imask + 2 < n) :
    Reach n (.next (rleLitHead left s)) := by
  unfold rleLitHead; split
  · exact reach_nextUnit (d := .rle) h acc trivial hn
  · exact reach_pull (p := .rleLitByte left) h acc (by simp [WorkOk]; omega) (by simp [mu]; omega)

theorem reach_rleRunHead {left v n s} (h : Live .rleDec s) (acc : AccPlain s.work) (hn : bitsLeft s.work.imask + 2 < n) :
    Reach n (.next (rleRunHead left v s)) := by
  unfold rleRunHead; split
  · exact reach_nextUnit (d := .rle) h acc trivial hn
  · exact reach_push (p := .rleRunDone _ v) h acc trivial

theorem reach_rleLitByteStep {left n s} (h : Live .rleDec s) (acc : AccPlain s.work) :
    Reach n (rleLitByteStep left s) := by
  unfold rleLitByteStep; split
  · exact reach_raise h
  · exact reach_push (p := .rleLitDone _) h acc trivial

/-! ## MTF -/

/-- What the table holds after its first `i` entries have moved up by one rank. -/
theorem peek_shiftRanks (i : Nat) (s : State) (hs : Ram.wf .mtft s.mtft) (a : Nat) :
    (∀ sp, Ram.wf sp (s.ram sp)) → (shiftRanks i s).peek .mtft a = if 1 ≤ a ∧ a ≤ i then s.peek .mtft (a - 1) else s.peek .mtft a := by
  intro hw
  induction i generalizing s with
  | zero => simp only [shiftRanks]; rw [if_neg (by omega)]
  | succ i ih =>
    simp only [shiftRanks]
    have hw' := wf_poke s .mtft (i+1) (s.peek .mtft i) hw
    rw [ih _ (by simpa using hw' .mtft) hw', peek_poke _ _ _ _ _ (hw _), peek_poke _ _ _ _ _ (hw _)]
    by_cases h1 : 1 ≤ a ∧ a ≤ i
    · rw [if_pos h1, if_neg (by omega), if_pos (by omega)]
    · rw [if_neg h1]
      by_cases h2 : a = i + 1
      · rw [if_pos h2, if_pos (by omega)]; congr 1; omega
      · rw [if_neg h2, if_neg (by omega)]

/-- The moves keep the RAMs canonical. -/
theorem wf_shiftRanks (i : Nat) (s : State) (hw : ∀ sp, Ram.wf sp (s.ram sp)) : ∀ sp, Ram.wf sp ((shiftRanks i s).ram sp) := by
  induction i generalizing s with
  | zero => exact hw
  | succ i ih => exact ih _ (wf_poke _ _ _ _ hw)

/-- What the table holds after a promotion (44_mtf R320). -/
theorem peek_promote (i : Nat) (b : Byte) (s : State) (hw : ∀ sp, Ram.wf sp (s.ram sp)) (a : Nat) :
    (promote i b s).peek .mtft a = if a = 0 then b else if a ≤ i then s.peek .mtft (a - 1) else s.peek .mtft a := by
  unfold promote
  rw [peek_poke _ _ _ _ _ (wf_shiftRanks i s hw _), peek_shiftRanks i s (by simpa using hw .mtft) a hw]
  by_cases h : a = 0
  · rw [if_pos h, if_pos h]
  · rw [if_neg h, if_neg h]
    by_cases h1 : a ≤ i
    · rw [if_pos (by omega), if_pos h1]
    · rw [if_neg (by omega), if_neg h1]

/-- A promotion keeps a permutation. -/
theorem permutation_promote (i : Nat) (b : Byte) (s : State) (hw : ∀ sp, Ram.wf sp (s.ram sp)) (hi : i < 256)
    (hb : s.peek .mtft i = b) (h : Permutation s) : Permutation (promote i b s) := by
  intro v
  obtain ⟨k, hk, hv⟩ := h v
  by_cases h1 : k = i
  · refine ⟨0, by omega, ?_⟩
    rw [peek_promote i b s hw, if_pos rfl, ← hb, ← h1, hv]
  · by_cases h2 : k < i
    · refine ⟨k + 1, by omega, ?_⟩
      rw [peek_promote i b s hw, if_neg (by omega), if_pos (by omega)]; simpa using hv
    · refine ⟨k, hk, ?_⟩
      rw [peek_promote i b s hw, if_neg (by omega), if_neg (by omega)]; exact hv

theorem shiftRanks_work (i s) : (shiftRanks i s).work = s.work := by
  induction i generalizing s with
  | zero => rfl
  | succ i ih => simp [shiftRanks, ih]
theorem promote_work (i b s) : (promote i b s).work = s.work := by simp [promote, shiftRanks_work]

theorem Live.promote {op s} (h : Live op s) (i b) : Live op (promote i b s) :=
  h.inside (inside_promote i b s) (wf_poke _ _ _ _ (wf_shiftRanks i s h.rams))

/-- The scan finds an entry that holds the byte when there is one. -/
theorem findRank_spec (table : Nat → Byte) (b : Byte) (left i : Nat) (h : ∃ k, i ≤ k ∧ k < i + left ∧ table k = b) :
    findRank table b left i < i + left ∧ table (findRank table b left i) = b := by
  induction left generalizing i with
  | zero => obtain ⟨k, h1, h2, _⟩ := h; omega
  | succ left ih =>
    unfold findRank; split
    · rename_i he; exact ⟨by omega, he⟩
    · rename_i he
      obtain ⟨k, h1, h2, h3⟩ := h
      have : k ≠ i := by intro h'; subst h'; exact he h3
      have := ih (i + 1) ⟨k, by omega, by omega, h3⟩
      exact ⟨by omega, this.2⟩

/-- In a permutation every byte has a rank. -/
theorem rankOf_spec (s : State) (b : Byte) (h : Permutation s) : s.rankOf b < 256 ∧ s.peek .mtft (s.rankOf b) = b := by
  obtain ⟨k, hk, hb⟩ := h b
  have := findRank_spec (s.peek .mtft) b 256 0 ⟨k, by omega, by omega, hb⟩
  simpa [State.rankOf] using this

theorem reach_mtfByteStep {s n} (h : Live .mtfEnc s) (acc : AccPlain s.work) (w : Permutation s) : Reach n (mtfByteStep s) := by
  unfold mtfByteStep; split
  · exact reach_finish h
  · rename_i b hb
    obtain ⟨h1, h2⟩ := rankOf_spec s b w
    refine reach_memRead (by simpa [usedPart] using h1) ?_
    refine reach_push (p := .mtfRanked b) (h.work _) acc ⟨w, ?_⟩
    show State.peek _ .mtft (BitVec.ofNat 8 (s.rankOf b)).toNat = b
    rw [BitVec.toNat_ofNat, Nat.mod_eq_of_lt (by simpa using h1)]
    exact h2

theorem reach_mtfRankedStep {b s} (h : Live .mtfEnc s) (acc : AccPlain s.work) (w : WorkOk (.mtfRanked b) s) :
    Reach 2 (mtfRankedStep b s) := by
  unfold mtfRankedStep
  refine reach_pull (p := .mtfByte) (h.promote _ _) (by rw [promote_work]; exact acc) ?_ (by simp [mu])
  exact permutation_promote _ _ _ h.rams s.work.rank.isLt w.2 w.1

theorem reach_mtfOutStep {b s} (h : Live .mtfDec s) (acc : AccPlain s.work) (w : WorkOk (.mtfOut b) s) :
    Reach 11 (mtfOutStep b s) := by
  unfold mtfOutStep
  refine reach_nextUnit (d := .mtf) (h.promote _ _) (by rw [promote_work]; exact acc) ?_ (by rw [promote_work]; have := bitsLeft_le s.work.imask; omega)
  exact permutation_promote _ _ _ h.rams s.work.rank.isLt w.2 w.1

/-! ## LZP -/

/-- The legal parameters of LZP. -/
theorem lzp_params {s} (h : Live .lzpEnc s) : s.params.hashOrder ≤ 16 ∧ 1 ≤ s.params.blockLength ∧ s.params.blockLength ≤ 8 :=
  ⟨h.params.1, h.params.2.1, h.params.2.2.1⟩
theorem lzp_params' {s} (h : Live .lzpDec s) : s.params.hashOrder ≤ 16 ∧ 1 ≤ s.params.blockLength ∧ s.params.blockLength ≤ 8 :=
  ⟨h.params.1, h.params.2.1, h.params.2.2.1⟩

/-- A masked value fits its mask. -/
theorem hash_lt (x n : Nat) : x &&& (2 ^ n - 1) < 2 ^ n := by
  have := Nat.and_le_right (n := x) (m := 2 ^ n - 1)
  have := Nat.two_pow_pos n
  omega

theorem reach_lzpEmit {s n} (h : Live .lzpEnc s) (acc : AccPlain s.work) (hh : s.work.hash < 2 ^ s.params.hashOrder)
    (h1 : s.work.nlit ≤ s.work.bi) (h2 : s.work.bi ≤ s.params.blockLength) : Reach n (.next (lzpEmit s)) := by
  unfold lzpEmit; split
  · exact reach_finish h
  · exact reach_push (p := .lzpLits 0) h acc ⟨hh, by omega, by omega⟩

theorem reach_lzpBlockHead {s n} (h : Live .lzpEnc s) (acc : AccPlain s.work) (hh : s.work.hash < 2 ^ s.params.hashOrder)
    (h1 : s.work.nlit ≤ s.work.bi) (h2 : s.work.bi ≤ s.params.blockLength) (hn : 1 < n) : Reach n (.next (lzpBlockHead s)) := by
  unfold lzpBlockHead; split
  · exact reach_pull (p := .lzpByte) h acc ⟨hh, h1, by omega⟩ (by simp [mu]; omega)
  · exact reach_lzpEmit h acc hh h1 h2

theorem reach_lzpNewBlock {s n} (h : Live .lzpEnc s) (acc : AccPlain s.work) (hh : s.work.hash < 2 ^ s.params.hashOrder)
    (hn : 1 < n) : Reach n (.next (lzpNewBlock s)) :=
  reach_lzpBlockHead (h.work _) acc hh (by simp) (by simp) hn

theorem nextHash_lt (s : State) (b : Byte) : (s.nextHash b).work.hash < 2 ^ (s.nextHash b).params.hashOrder := hash_lt _ _

theorem Live.nextHash {op s} (h : Live op s) (b) : Live op (s.nextHash b) := h.work _

theorem reach_lzpNextByte {s b n} (h : Live .lzpEnc s) (acc : AccPlain s.work)
    (h1 : s.work.nlit ≤ s.work.bi + 1) (h2 : s.work.bi < s.params.blockLength) (hn : 1 < n) : Reach n (.next (lzpNextByte b s)) := by
  unfold lzpNextByte
  exact reach_lzpBlockHead ((h.nextHash b).work _) acc (nextHash_lt s b) h1 h2 hn

theorem reach_lzpByteStep {s} (h : Live .lzpEnc s) (acc : AccPlain s.work) (w : WorkOk .lzpByte s) :
    Reach (mu .lzpByte s.work) (lzpByteStep s) := by
  obtain ⟨hh, h1, h2⟩ := w
  unfold lzpByteStep; split
  · exact reach_lzpEmit h acc hh h1 (by omega)
  · rename_i b hb
    refine reach_memRead (by simpa [usedPart] using hh) ?_
    split
    · exact reach_lzpNextByte (h.work _) acc (by simp; omega) (by simpa using h2) (by simp [mu, hb])
    · refine reach_memWrite (by simpa [usedPart] using hh) (reach_memWrite (by simp [usedPart]; omega) ?_)
      refine reach_lzpNextByte (((h.poke _ _ _).poke _ _ _).work _) ?_ (by simp; omega) (by simpa using h2) (by simp [mu, hb])
      simpa [AccPlain] using acc

theorem reach_lzpLitsStep {t s} (h : Live .lzpEnc s) (acc : AccPlain s.work) (w : WorkOk (.lzpLits t) s) :
    Reach 2 (lzpLitsStep t s) := by
  obtain ⟨hh, h1, h2⟩ := w
  unfold lzpLitsStep; split
  · refine reach_memRead (by simp [usedPart]; omega) ?_
    exact reach_push (p := .lzpLits (t+1)) h acc ⟨hh, by omega, h2⟩
  · split
    · exact reach_finish h
    · exact reach_lzpNewBlock h acc hh (by omega)

theorem reach_lzpBitHead {s n} (h : Live .lzpDec s) (acc : AccPlain s.work) (hh : s.work.hash < 2 ^ s.params.hashOrder)
    (hn : bitsLeft s.work.imask + 2 < n) : Reach n (lzpBitHead s) := by
  unfold lzpBitHead; split
  · split
    · refine reach_memRead (by simpa [usedPart] using hh) ?_
      exact reach_push (p := .lzpOut _) h acc ⟨hh, by assumption⟩
    · exact reach_pull (p := .lzpLiteral) h acc ⟨hh, by assumption⟩ (by simp [mu]; omega)
  · exact reach_nextUnit (d := .lzp) h acc hh hn

theorem reach_lzpLiteralStep {s n} (h : Live .lzpDec s) (acc : AccPlain s.work) (w : WorkOk .lzpLiteral s) :
    Reach n (lzpLiteralStep s) := by
  unfold lzpLiteralStep; split
  · exact reach_finish h
  · refine reach_memWrite (by simpa [usedPart] using w.1) ?_
    exact reach_push (p := .lzpOut _) (h.poke _ _ _) (by simp; exact acc) (by simpa [WorkOk] using w)

theorem reach_lzpOutStep {b s} (h : Live .lzpDec s) (acc : AccPlain s.work) : Reach 11 (lzpOutStep b s) := by
  unfold lzpOutStep
  exact reach_lzpBitHead ((h.nextHash b).work _) acc (nextHash_lt s b) (by have := bitsLeft_le s.work.imask; simp; omega)

end Sys2Proof.Machine
end

