-- ==== Sys2Proof/Laws/Bits.lean ====
section
/-! SUPPORT. Fields as bit strings: a field sent most significant bit first is read back whole, and a bit string is the
field of its own value. -/

namespace Sys2Proof

theorem length_bitsOf (n v : Nat) : (bitsOf n v).length = n := by
  induction n with
  | zero => rfl
  | succ n ih => simp [bitsOf, ih]

/-- One more leading bit of a number. -/
theorem mod_two_pow_succ_eq (v n : Nat) : v % 2 ^ (n + 1) = (v.testBit n).toNat * 2 ^ n + v % 2 ^ n := by
  rw [Nat.testBit_eq_decide_div_mod_eq]
  have h2 : v / 2 ^ n % 2 = 0 ∨ v / 2 ^ n % 2 = 1 := by omega
  have h3 : v % 2 ^ (n + 1) = 2 ^ n * (v / 2 ^ n % 2) + v % 2 ^ n := by
    rw [Nat.pow_succ, Nat.mod_mul]; omega
  rw [h3]
  rcases h2 with h | h <;> simp [h]

theorem ofBits_bitsOf (n v x : Nat) : ofBits x (bitsOf n v) = x * 2 ^ n + v % 2 ^ n := by
  induction n generalizing x with
  | zero => simp [bitsOf, ofBits, Nat.mod_one]
  | succ n ih =>
    rw [mod_two_pow_succ_eq]
    simp only [bitsOf, ofBits, ih, Nat.pow_succ]
    ring

theorem takeBits_append (n v x : Nat) (rest : List Bool) :
    takeBits n x (bitsOf n v ++ rest) = some (x * 2 ^ n + v % 2 ^ n, rest) := by
  induction n generalizing x with
  | zero => simp [bitsOf, takeBits, Nat.mod_one]
  | succ n ih =>
    rw [mod_two_pow_succ_eq]
    simp only [bitsOf, List.cons_append, takeBits, ih, Nat.pow_succ]
    congr 2
    ring

/-- A field of `n` bits that holds its value is read back as it was sent. -/
theorem takeBits_field (n v : Nat) (rest : List Bool) (h : v < 2 ^ n) :
    takeBits n 0 (bitsOf n v ++ rest) = some (v, rest) := by
  rw [takeBits_append, Nat.mod_eq_of_lt h]; simp

theorem ofBits_append (x : Nat) (l l' : List Bool) : ofBits x (l ++ l') = ofBits (ofBits x l) l' := by
  induction l generalizing x with
  | nil => rfl
  | cons b l ih => simp [ofBits, ih]

theorem ofBits_eq (x : Nat) (l : List Bool) : ofBits x l = x * 2 ^ l.length + ofBits 0 l := by
  induction l generalizing x with
  | nil => simp [ofBits]
  | cons b l ih =>
    simp only [ofBits, List.length_cons, Nat.pow_succ]
    rw [ih (2 * x + b.toNat), ih (2 * 0 + b.toNat)]
    ring

theorem ofBits_lt (l : List Bool) : ofBits 0 l < 2 ^ l.length := by
  induction l with
  | nil => simp [ofBits]
  | cons b l ih =>
    simp only [ofBits, List.length_cons, Nat.pow_succ]
    rw [ofBits_eq]
    cases b <;> simp <;> omega

/-- The bits of a bit string's value are the bit string. -/
theorem bitsOf_ofBits (l : List Bool) : bitsOf l.length (ofBits 0 l) = l := by
  suffices h : ∀ x, bitsOf l.length (ofBits x l) = l from h 0
  induction l with
  | nil => intro x; rfl
  | cons b l ih =>
    intro x
    simp only [List.length_cons, bitsOf, ofBits]
    refine List.cons_eq_cons.2 ⟨?_, ih _⟩
    rw [ofBits_eq, Nat.testBit_eq_decide_div_mod_eq]
    have hl := ofBits_lt l
    have hp : 0 < 2 ^ l.length := Nat.two_pow_pos _
    rw [Nat.mul_comm, Nat.mul_add_div hp, Nat.div_eq_of_lt hl]
    cases b <;> simp

/-- What `takeBits` takes is the front of the string. -/
theorem takeBits_some (n x v : Nat) (l rest : List Bool) (h : takeBits n x l = some (v, rest)) :
    ∃ front, l = front ++ rest ∧ front.length = n ∧ v = ofBits x front := by
  induction n generalizing x l with
  | zero => simp [takeBits] at h; exact ⟨[], by simp [h], rfl, by simp [ofBits, h]⟩
  | succ n ih =>
    cases l with
    | nil => simp [takeBits] at h
    | cons b l =>
      obtain ⟨front, h1, h2, h3⟩ := ih _ _ h
      exact ⟨b :: front, by simp [h1], by simp [h2], by simp [ofBits, h3]⟩

theorem takeBits_none_iff (n x : Nat) (l : List Bool) : takeBits n x l = none ↔ l.length < n := by
  induction n generalizing x l with
  | zero => simp [takeBits]
  | succ n ih =>
    cases l with
    | nil => simp [takeBits]
    | cons b l => simp [takeBits, ih]

/-- The same, with the field's bits named by its value. -/
theorem takeBits_some_field (n v : Nat) (l rest : List Bool) (h : takeBits n 0 l = some (v, rest)) :
    l = bitsOf n v ++ rest ∧ v < 2 ^ n := by
  obtain ⟨front, h1, h2, h3⟩ := takeBits_some n 0 v l rest h
  subst h3 h2
  exact ⟨by rw [bitsOf_ofBits, h1], ofBits_lt front⟩

end Sys2Proof
end

