-- ==== Sys2Proof/Laws/PerInstr.lean ====
section
/-! SUPPORT. The round trip of the encoder and the decoder, one lemma for each instruction. -/

namespace Sys2Proof.Laws.Encoding

/-- A well-formed instruction's encoding, whatever follows it in the stream, decodes to that instruction and leaves what
follows. -/
def Statement (i : Instr) : Prop :=
  ∀ (w : Wire) (rest : List Bool), i.wf w = true → decode i.family w (encode w i ++ rest) = .ok (i, rest)

/-- A command word of 32 bits is read as one number. -/
theorem decode_command (w : Wire) (v : Word) (rest : List Bool) :
    decode .command w (bitsOf 32 v.toNat ++ rest) = .ok (decodeCommand v, rest) := by
  simp [decode, decodeFirst, takeBits_field 32 v.toNat rest v.isLt]

theorem byte_field (n : Nat) (v : BitVec n) (rest : List Bool) : takeBits n 0 (bitsOf n v.toNat ++ rest) = some (v.toNat, rest) :=
  takeBits_field n v.toNat rest v.isLt

theorem rleEnc : Statement .rleEnc := fun w rest _ => decode_command w _ rest
theorem rleDec : Statement .rleDec := fun w rest _ => decode_command w _ rest
theorem lzssEnc : Statement .lzssEnc := fun w rest _ => decode_command w _ rest
theorem lzssDec : Statement .lzssDec := fun w rest _ => decode_command w _ rest
theorem egEnc : Statement .egEnc := fun w rest _ => decode_command w _ rest
theorem egDec : Statement .egDec := fun w rest _ => decode_command w _ rest
theorem mtfEnc : Statement .mtfEnc := fun w rest _ => decode_command w _ rest
theorem mtfDec : Statement .mtfDec := fun w rest _ => decode_command w _ rest
theorem lzpEnc : Statement .lzpEnc := fun w rest _ => decode_command w _ rest
theorem lzpDec : Statement .lzpDec := fun w rest _ => decode_command w _ rest

theorem reservedCodec5 (dir : Bool) : Statement (.reservedCodec5 dir) := by
  intro w rest _; cases dir <;> exact decode_command w _ rest

theorem reservedCodec6 (dir : Bool) : Statement (.reservedCodec6 dir) := by
  intro w rest _; cases dir <;> exact decode_command w _ rest

theorem reservedCodec7 (dir : Bool) : Statement (.reservedCodec7 dir) := by
  intro w rest _; cases dir <;> exact decode_command w _ rest

/-- The three fields of a command word are read back from it. -/
theorem commandFields_read (high : BitVec 28) (dir : Bool) (codec : BitVec 3) :
    commandHigh (commandFields high dir codec) = high ∧ commandDir (commandFields high dir codec) = dir
      ∧ commandCodec (commandFields high dir codec) = codec := by
  have h1 := high.isLt
  have h2 := codec.isLt
  have h3 : dir.toNat ≤ 1 := Bool.toNat_le dir
  have hw : (commandFields high dir codec).toNat = high.toNat * 16 + dir.toNat * 8 + codec.toNat := by
    simp only [commandFields, BitVec.toNat_ofNat]
    exact Nat.mod_eq_of_lt (by omega)
  refine ⟨?_, ?_, ?_⟩
  · apply BitVec.eq_of_toNat_eq
    simp only [commandHigh, BitVec.extractLsb'_toNat, hw, Nat.shiftRight_eq_div_pow]
    omega
  · have h : (commandDir (commandFields high dir codec)).toNat = dir.toNat := by
      simp only [commandDir, BitVec.getLsbD, hw, Nat.testBit_eq_decide_div_mod_eq]
      rcases dir with _ | _
      · simp; omega
      · simp; omega
    revert h
    cases commandDir (commandFields high dir codec) <;> cases dir <;> simp
  · apply BitVec.eq_of_toNat_eq
    simp only [commandCodec, BitVec.extractLsb'_toNat, hw, Nat.shiftRight_eq_div_pow]
    omega

theorem reservedHighbits (high : BitVec 28) (dir : Bool) (codec : BitVec 3) :
    Statement (.reservedHighbits high dir codec) := by
  intro w rest hw
  have hh : high ≠ 0#28 := by simpa [Instr.wf] using hw
  obtain ⟨e1, e2, e3⟩ := commandFields_read high dir codec
  refine (decode_command w _ rest).trans ?_
  simp [commandWord, decodeCommand, e1, e2, e3, hh]

theorem lzssLiteral (v : Byte) : Statement (.lzssLiteral v) := by
  intro w rest _
  simp [decode, Instr.family, decodeFirst, encode, decodeLzss, byte_field]

theorem lzssReference (pos : BitVec 15) (len : BitVec 8) : Statement (.lzssReference pos len) := by
  intro w rest hw
  simp only [Instr.wf, Bool.and_eq_true, decide_eq_true_eq] at hw
  simp [decode, Instr.family, decodeFirst, encode, decodeLzss, takeBits_field _ _ _ hw.1, takeBits_field _ _ _ hw.2]

theorem rleLiteralBlock (c : Byte) : Statement (.rleLiteralBlock c) := by
  intro w rest hw
  simp only [Instr.wf, decide_eq_true_eq] at hw
  simp [decode, Instr.family, decodeFirst, encode, decodeRle, byte_field, hw]

theorem rleRunBlock (c b : Byte) : Statement (.rleRunBlock c b) := by
  intro w rest hw
  simp only [Instr.wf, decide_eq_true_eq] at hw
  simp [decode, Instr.family, decodeFirst, encode, decodeRle, byte_field, Nat.not_lt.2 hw]

theorem egSymbol0 : Statement .egSymbol0 := fun _ _ _ => rfl
theorem egSymbol1 : Statement .egSymbol1 := fun _ _ _ => rfl
theorem egSymbol2 : Statement .egSymbol2 := fun _ _ _ => rfl
theorem egSymbol3 : Statement .egSymbol3 := fun _ _ _ => rfl
theorem egSymbol4 : Statement .egSymbol4 := fun _ _ _ => rfl
theorem egSymbol5 : Statement .egSymbol5 := fun _ _ _ => rfl
theorem egSymbol6 : Statement .egSymbol6 := fun _ _ _ => rfl
theorem egSymbol7 : Statement .egSymbol7 := fun _ _ _ => rfl
theorem egSymbol8 : Statement .egSymbol8 := fun _ _ _ => rfl
theorem egSymbol9 : Statement .egSymbol9 := fun _ _ _ => rfl
theorem egSymbol10 : Statement .egSymbol10 := fun _ _ _ => rfl
theorem egSymbol11 : Statement .egSymbol11 := fun _ _ _ => rfl
theorem egSymbol12 : Statement .egSymbol12 := fun _ _ _ => rfl
theorem egSymbol13 : Statement .egSymbol13 := fun _ _ _ => rfl
theorem egSymbol14 : Statement .egSymbol14 := fun _ _ _ => rfl
theorem egSymbol15 : Statement .egSymbol15 := fun _ _ _ => rfl
theorem egTerminal : Statement .egTerminal := fun _ _ _ => rfl
theorem egInvalidPrefix : Statement .egInvalidPrefix := fun _ _ _ => rfl

theorem egInvalidValue (suffix : BitVec 4) : Statement (.egInvalidValue suffix) := by
  intro w rest hw
  simp only [Instr.wf, decide_eq_true_eq] at hw
  have hlt := suffix.isLt
  have e : gammaInstr (2 ^ 4 + suffix.toNat) = .egInvalidValue suffix := by
    obtain ⟨k, hk⟩ : ∃ k, suffix.toNat = k := ⟨_, rfl⟩
    have hs : suffix = BitVec.ofNat 4 k := by rw [← hk]; simp
    rw [hs] at hw ⊢
    have : k < 16 := by omega
    interval_cases k <;> first | rfl | simp at hw
  simp [decode, Instr.family, decodeFirst, encode, decodeEg, byte_field]
  simpa using e

theorem mtfRank (r : Byte) : Statement (.mtfRank r) := by
  intro w rest _
  simp [decode, Instr.family, decodeFirst, encode, byte_field]

theorem lzpBlock (m : Byte) : Statement (.lzpBlock m) := by
  intro w rest _
  simp [decode, Instr.family, decodeFirst, encode, byte_field]

end Sys2Proof.Laws.Encoding
end

