-- ==== Sys2Proof/Laws/BitCodecs.lean ====
section
/-! SUPPORT. The bit packer, LZSS, Elias-Gamma and the fetch of wire units: every step function completes, keeps the invariant and lowers
the measure. -/

namespace Sys2Proof.Machine


/-- No bit of the accumulator stands at the mask or below it. -/
def Clear (o m : Byte) : Prop := o &&& (m ||| (m - 1#8)) = 0#8

/-- The eight masks. -/
theorem oneHot_cases {m : Byte} (h : OneHot m) : m = 0x80#8 ∨ m = 0x40#8 ∨ m = 0x20#8 ∨ m = 0x10#8 ∨ m = 0x08#8 ∨ m = 0x04#8 ∨ m = 0x02#8 ∨ m = 0x01#8 := by
  obtain ⟨i, hi, rfl⟩ := h
  interval_cases i <;> decide

/-- One bit put into an accumulator that does not become full. -/
theorem pack_step (b : Bool) (o m : Byte) (hm : OneHot m) (ho : Clear o m) (hz : m >>> 1 ≠ 0#8) :
    OneHot (m >>> 1) ∧ Clear (if b then o ||| m else o) (m >>> 1) := by
  constructor
  · rcases oneHot_shift m (.inr hm) with h | h
    · exact absurd h hz
    · exact h
  · unfold Clear at *
    rcases oneHot_cases hm with rfl | rfl | rfl | rfl | rfl | rfl | rfl | rfl <;> revert ho hz <;> revert o <;> cases b <;> decide

/-- What a run of `PutBit` calls leaves (40_stream_bitpacker R180). -/
theorem packBits_spec (bits : List Bool) (o m : Byte) (hm : OneHot m) (ho : Clear o m) :
    ((packBits bits o m).pending = none → OneHot (packBits bits o m).omask ∧ Clear (packBits bits o m).obits (packBits bits o m).omask) ∧
    (∀ rest, (packBits bits o m).pending = some rest → (packBits bits o m).omask = 0#8) ∧
    (bitsLeft m ≤ bits.length → (packBits bits o m).pending ≠ none) := by
  induction bits generalizing o m with
  | nil =>
    refine ⟨fun _ => ⟨hm, ho⟩, by simp [packBits], ?_⟩
    intro h
    have := oneHot_ne_zero m hm
    simp [bitsLeft, this] at h
  | cons b rest ih =>
    unfold packBits
    dsimp only
    split
    · rename_i hz
      refine ⟨by simp, by simp [hz], by simp⟩
    · rename_i hz
      obtain ⟨h1, h2⟩ := pack_step b o m hm ho hz
      obtain ⟨g1, g2, g3⟩ := ih _ _ h1 h2
      refine ⟨g1, g2, fun h => g3 ?_⟩
      have := bitsLeft_shift m (oneHot_ne_zero m hm)
      simp at h; omega

/-- A run of `PutBit` calls pushes at a point in order, or goes on with fewer than eight bits put. -/
theorem reach_putBits {op n bits onPush onDone s} (h : Live op s) (hop : ∀ l, (onPush l).op = op) (acc : AccPlain s.work)
    (haccp : ∀ l w, AccumulatorsOk (onPush l) w ↔ ((w.imask = 0#8 ∨ OneHot w.imask) ∧ w.omask = 0#8))
    (hwork : ∀ l o m, WorkOk (onPush l) { s with work := { s.work with obits := o, omask := m } })
    (hdone : ∀ o m, AccPlain { s.work with obits := o, omask := m } → bits.length < 8 →
      Reach n (onDone { s with work := { s.work with obits := o, omask := m } })) :
    Reach n (putBits bits onPush onDone s) := by
  obtain ⟨hi, hm, ho⟩ := acc
  obtain ⟨h1, h2, h3⟩ := packBits_spec bits s.work.obits s.work.omask hm ho
  unfold putBits
  dsimp only
  split
  · rename_i rest hr
    refine reach_push (p := onPush rest) (by rw [hop]; exact h.work _) ?_ (hwork _ _ _)
    rw [haccp]; exact ⟨hi, h2 _ hr⟩
  · rename_i hr
    refine hdone _ _ ⟨hi, h1 hr⟩ ?_
    by_contra hc
    exact h3 (by have := bitsLeft_le s.work.omask; omega) hr

theorem reach_flushThenFinish {p n s} (h : Live p.op s) (acc : AccumulatorsOk p s.work) (w : WorkOk p s) :
    Reach n (flushThenFinish p s) := by
  unfold flushThenFinish; split
  · exact reach_push (p := p) h acc w
  · exact reach_finish h

theorem reach_flushed {op n s} (h : Live op s) : Reach n (flushed s) := reach_finish (h.work _)

theorem acc_emptyOut {w : Work} (hi : w.imask = 0#8 ∨ OneHot w.imask) : AccPlain { w with obits := 0#8, omask := 0x80#8 } :=
  ⟨hi, ⟨0, by omega, (by decide : (0x80#8 : Byte) = 0x80#8 >>> 0)⟩, (by decide : (0#8 : Byte) &&& (0x80#8 ||| (0x80#8 - 1#8)) = 0#8)⟩

/-! ## LZSS -/

/-- The legal parameters of LZSS. -/
structure LzssP (q : Params) : Prop where
  ei6 : 6 ≤ q.ei
  ei15 : q.ei ≤ 15
  ej1 : 1 ≤ q.ej
  ejei : q.ej ≤ q.ei
  sum : q.ei + q.ej ≤ 16
  p2 : 2 ≤ q.p
  p255 : q.p ≤ 255
  ff : q.lookahead ≤ q.windowSize
theorem lzss_params {s} (h : Live .lzssEnc s) : LzssP s.params := by
  obtain ⟨a,b,c,d,e,f,g,i,_⟩ := h.params; exact ⟨a,b,c,d,e,f,g,i⟩
theorem lzss_params' {s} (h : Live .lzssDec s) : LzssP s.params := by
  obtain ⟨a,b,c,d,e,f,g,i,_⟩ := h.params; exact ⟨a,b,c,d,e,f,g,i⟩
theorem LzssP.fpos {q} (h : LzssP q) : 3 ≤ q.lookahead := by
  have : 2 ≤ 2 ^ q.ej := by
    calc 2 = 2 ^ 1 := rfl
      _ ≤ 2 ^ q.ej := Nat.pow_le_pow_right (by omega) h.ej1
  have := h.p2
  unfold Params.lookahead; omega

theorem reach_lzssFillDone {again n s} (h : Live .lzssEnc s) (acc : AccPlain s.work) (w : WindowWritten s)
    (hb : s.work.bufferend ≤ 2 * s.params.windowSize)
    (hc : again = true → CursorOk s) (hf : s.params.windowSize - s.params.lookahead ≤ s.work.bufferend) (hn : 1 < n) :
    Reach n (.next (lzssFillDone again s)) := by
  have hq := lzss_params h
  have := hq.fpos
  have := hq.ff
  unfold lzssFillDone
  cases again with
  | true => exact reach_goto (p := .lzssMain) h acc (hc rfl) (by simpa [mu] using hn)
  | false =>
    refine reach_goto (p := .lzssMain) (h.work _) acc ⟨w, ?_⟩ (by simpa [mu] using hn)
    simp; omega

/-- A WIN byte stays listed, and the written one is. -/
theorem find_store_win (a b v) (m : Ram) (hm : Ram.wf .win m) (h : Ram.find b m ≠ none ∨ b = a) : Ram.find b (Ram.store .win a v m) ≠ none := by
  unfold Ram.store
  simp only [unlisted, reduceCtorEq, if_false]
  rw [find_insert m a b v hm.1]
  by_cases hb : b = a
  · simp [hb]
  · rw [if_neg hb]; simpa [hb] using h

theorem reach_lzssFillStep {again s} (h : Live .lzssEnc s) (acc : AccPlain s.work) (w : WorkOk (.lzssFill again) s) :
    Reach (mu (.lzssFill again) s.work) (lzssFillStep again s) := by
  have hww : WindowWritten s := by cases again with | true => exact w.1.1 | false => exact w.1
  have hb : s.work.bufferend < 2 * s.params.windowSize := by cases again with | true => exact w.2 | false => exact w.2.2
  have hf : s.params.windowSize - s.params.lookahead ≤ s.work.bufferend := by
    cases again with
    | true => obtain ⟨⟨_, h1, h2, h3, h4⟩, _⟩ := w; omega
    | false => exact w.2.1
  have hc : again = true → CursorOk s := by intro ha; subst ha; exact w.1
  unfold lzssFillStep; split
  · exact reach_lzssFillDone h acc hww (by omega) hc hf (by simp [mu, *])
  · rename_i v hv
    refine reach_memWrite (by simpa [usedPart] using hb) ?_
    dsimp only
    let t : State := { s.poke .win s.work.bufferend v with work := { (s.poke .win s.work.bufferend v).work with bufferend := (s.poke .win s.work.bufferend v).work.bufferend + 1 } }
    have ht : Live .lzssEnc t := (h.poke _ _ _).work _
    have htw : t.work = { s.work with bufferend := s.work.bufferend + 1 } := by simp [t]
    have htp : t.params = s.params := by simp [t]
    have acct : AccPlain t.work := by rw [htw]; exact acc
    have hwt : WindowWritten t := by
      intro a ha
      rw [htw] at ha; dsimp only at ha
      have : t.win = Ram.store .win s.work.bufferend v s.win := by simp [t, State.poke]
      rw [this]
      refine find_store_win _ _ _ _ (by simpa using h.rams .win) ?_
      by_cases hab : a = s.work.bufferend
      · exact .inr hab
      · exact .inl (hww a (by omega))
    have hct : again = true → CursorOk t := by
      intro ha
      obtain ⟨_, h1, h2, h3, h4⟩ := hc ha
      refine ⟨hwt, ?_, ?_, ?_, ?_⟩ <;> rw [htw] <;> try rw [htp] <;> dsimp only <;> omega
      dsimp only; omega
    change Reach _ (if t.work.bufferend < 2 * t.params.windowSize then .next (t.pull (.lzssFill again)) else .next (lzssFillDone again t))
    split
    · rename_i hlt
      refine reach_pull (p := .lzssFill again) ht acct ?_ (by simp [mu, hv])
      cases again with
      | true => exact ⟨hct rfl, hlt⟩
      | false => exact ⟨hwt, by rw [htw, htp]; dsimp only; omega, hlt⟩
    · refine reach_lzssFillDone ht acct hwt ?_ hct ?_ (by simp [mu, hv])
      · rw [htw, htp]; dsimp only; omega
      · rw [htw, htp]; dsimp only; omega

theorem reach_lzssFillHead_true {n s} (h : Live .lzssEnc s) (acc : AccPlain s.work) (w : CursorOk s) (hn : 2 < n) :
    Reach n (.next (lzssFillHead true s)) := by
  unfold lzssFillHead; split
  · exact reach_pull (p := .lzssFill true) h acc ⟨w, by assumption⟩ (by simp [mu]; omega)
  · exact reach_goto (p := .lzssMain) h acc w (by simp [mu]; omega)

/-- The slide keeps the cursor invariant (41_lzss R206). -/
theorem cursor_slide {s} (h : Live .lzssEnc s) (w : CursorOk s) (l1 : 1 ≤ s.work.mlen) (l2 : s.work.mlen ≤ s.params.lookahead)
    (l3 : s.work.r + s.work.mlen ≤ s.work.bufferend)
    (hr : 2 * s.params.windowSize - s.params.lookahead ≤ s.work.r + s.work.mlen) : CursorOk s.advanceCursor.slideWindow := by
  have hq := lzss_params h
  have := hq.fpos
  have := hq.ff
  obtain ⟨h0, h1, h2, h3, h4⟩ := w
  refine ⟨?_, ?_⟩
  · intro a ha
    simp [State.slideWindow, State.advanceCursor] at ha ⊢
    rw [find_slide]
    split
    · exact h0 _ (by omega)
    · exact h0 _ (by omega)
  · simp [State.slideWindow, State.advanceCursor]; omega

theorem reach_lzssAfterUnit {n s} (h : Live .lzssEnc s) (acc : AccPlain s.work) (w : CursorOk s) (l1 : 1 ≤ s.work.mlen)
    (l2 : s.work.mlen ≤ s.params.lookahead) (l3 : s.work.r + s.work.mlen ≤ s.work.bufferend) (hn : 2 < n) :
    Reach n (lzssAfterUnit s) := by
  have hl : Live .lzssEnc s.advanceCursor := h.work _
  unfold lzssAfterUnit; dsimp only; split
  · rename_i hr
    have hs : Live .lzssEnc s.advanceCursor.slideWindow := by
      refine hl.inside (inside_slideWindow _) fun sp => ?_
      have := hl.rams sp
      cases sp with
      | win => simp only [ram_of_fields, slideWindow_fields] at this ⊢; exact wf_slide _ _ this
      | _ => simpa using this
    refine reach_lzssFillHead_true hs acc (cursor_slide h w l1 l2 l3 ?_) hn
    simpa [State.advanceCursor] using hr
  · rename_i hr
    refine reach_goto (p := .lzssMain) hl acc ?_ (by simp [mu]; omega)
    obtain ⟨h0, h1, h2, h3, h4⟩ := w
    refine ⟨h0, ?_⟩
    simp [State.advanceCursor] at hr ⊢; omega

theorem reach_lzssPutStep {bits n s} (h : Live .lzssEnc s) (acc : AccPlain s.work) (w : CursorOk s) (l1 : 1 ≤ s.work.mlen)
    (l2 : s.work.mlen ≤ s.params.lookahead) (l3 : s.work.r + s.work.mlen ≤ s.work.bufferend) (hn : bits.length < 8 → 2 < n) :
    Reach n (lzssPutStep bits s) := by
  unfold lzssPutStep
  refine reach_putBits (op := .lzssEnc) h (fun _ => rfl) acc (fun _ _ => Iff.rfl) ?_ ?_
  · intro l o m; exact ⟨w, l1, l2, l3⟩
  · intro o m ha hl
    exact reach_lzssAfterUnit (h.work _) ha w l1 l2 l3 (hn hl)

theorem extendMatch_le (win : Nat → Byte) (i r left j : Nat) : extendMatch win i r left j ≤ j + left := by
  induction left generalizing j with
  | zero => simp [extendMatch]
  | succ left ih => unfold extendMatch; split; · have := ih (j+1); omega
                    · omega

theorem matchLength_le (win i r f1) (h : 1 ≤ f1) : matchLength win i r f1 ≤ f1 := by
  unfold matchLength; split
  · have := extendMatch_le win i r (f1 - 1) 1; omega
  · omega

/-- The best match is at least one byte long and at most the cap. -/
theorem scanMatches_le (win r f1 left i best) (h : 1 ≤ f1) (hb : 1 ≤ best.2 ∧ best.2 ≤ f1) :
    1 ≤ (scanMatches win r f1 left i best).2 ∧ (scanMatches win r f1 left i best).2 ≤ f1 := by
  induction left generalizing i best with
  | zero => exact hb
  | succ left ih =>
    unfold scanMatches; dsimp only
    apply ih
    split
    · have := matchLength_le win i r f1 h; dsimp only; omega
    · exact hb

theorem lzssUnitBits_length (q c mpos mlen) (h : LzssP q) : 8 ≤ (lzssUnitBits q c mpos mlen).length := by
  unfold lzssUnitBits; split
  · simp [length_bitsOf]
  · simp [length_bitsOf]; have := h.ei6; have := h.ej1; omega

theorem reach_lzssMainStep {n s} (h : Live .lzssEnc s) (acc : AccPlain s.work) (w : CursorOk s) : Reach n (lzssMainStep s) := by
  have hq := lzss_params h
  have hf := hq.fpos
  have hff := hq.ff
  have w' := w
  obtain ⟨h0, h1, h2, h3, h4⟩ := w'
  unfold lzssMainStep; split
  · rename_i hr
    rw [if_pos (by simpa [usedPart] using h4)]
    dsimp only
    obtain ⟨b1, b2⟩ := scanMatches_le (s.peek .win) s.work.r (min s.params.lookahead (s.work.bufferend - s.work.r)) (s.work.r - s.work.s) s.work.s (0,1)
      (by omega) (by simp; omega)
    have hb := lzssUnitBits_length s.params (s.peek .win s.work.r)
      (bestMatch (s.peek .win) s.work.s s.work.r (min s.params.lookahead (s.work.bufferend - s.work.r))).1
      (bestMatch (s.peek .win) s.work.s s.work.r (min s.params.lookahead (s.work.bufferend - s.work.r))).2 hq
    refine reach_lzssPutStep (h.work _) acc w ?_ ?_ ?_ (fun hlt => by omega)
    · dsimp only; split
      · omega
      · exact b1
    · dsimp only; split
      · omega
      · exact le_trans b2 (by omega)
    · dsimp only; split
      · omega
      · unfold bestMatch; omega
  · exact reach_flushThenFinish (p := .lzssFlushed) h acc trivial

theorem mask_lt (x n : Nat) : x &&& (2 ^ n - 1) < 2 ^ n := hash_lt x n

theorem reach_lzssAppend {v n s k} (h : Live .lzssDec s) (hw : s.work.wr < s.params.windowSize)
    (hk : ∀ t, Live .lzssDec t → t.params = s.params → t.work = { s.work with wr := (s.work.wr + 1) &&& (s.params.windowSize - 1) } → Reach n (k t)) :
    Reach n (lzssAppend v s k) := by
  unfold lzssAppend
  refine reach_memWrite (by simpa [usedPart] using hw) ?_
  exact hk _ ((h.poke _ _ _).work _) (by simp) (by simp)

theorem reach_lzssCopyHead {k n s} (h : Live .lzssDec s) (acc : AccPlain s.work) (hw : s.work.wr < s.params.windowSize) (hn : bitsLeft s.work.imask + 2 < n) :
    Reach n (lzssCopyHead k s) := by
  unfold lzssCopyHead; split
  · refine reach_memRead (by simp only [usedPart]; exact mask_lt _ _) ?_
    exact reach_push (p := .lzssCopied k _) h acc hw
  · exact reach_nextUnit (d := .lzss) h acc hw hn

theorem reach_lzssLitDoneStep {v s} (h : Live .lzssDec s) (acc : AccPlain s.work) (hw : s.work.wr < s.params.windowSize) :
    Reach 11 (lzssLitDoneStep v s) := by
  refine reach_lzssAppend h hw fun t ht htp htw => ?_
  refine reach_nextUnit (d := .lzss) ht (by rw [htw]; exact acc) ?_ (by rw [htw]; have := bitsLeft_le s.work.imask; dsimp only; omega)
  simp only [DecoderOk]; rw [htw, htp]; exact mask_lt _ _

theorem reach_lzssCopiedStep {k v s} (h : Live .lzssDec s) (acc : AccPlain s.work) (hw : s.work.wr < s.params.windowSize) :
    Reach 11 (lzssCopiedStep k v s) := by
  refine reach_lzssAppend h hw fun t ht htp htw => ?_
  refine reach_lzssCopyHead ht (by rw [htw]; exact acc) ?_ (by rw [htw]; have := bitsLeft_le s.work.imask; dsimp only; omega)
  rw [htw, htp]; exact mask_lt _ _

/-! ## Elias-Gamma -/

theorem reach_egPutStep {bits last n s} (h : Live .egEnc s) (acc : AccPlain s.work)
    (hn : last = false → bitsLeft s.work.imask + 2 < n) : Reach n (egPutStep bits last s) := by
  refine reach_putBits (op := .egEnc) h (fun _ => rfl) acc (fun _ _ => Iff.rfl) (fun _ _ _ => trivial) ?_
  intro o m ha hl
  cases last with
  | true => exact reach_flushThenFinish (p := .egFlushed) (h.work _) ha trivial
  | false => exact reach_goto (p := .egMain) (h.work _) ha trivial (hn rfl)

theorem acc_dropBit {w : Work} (acc : AccPlain w) : AccPlain { w with imask := w.imask >>> 1 } :=
  ⟨oneHot_shift _ acc.1, acc.2⟩

theorem bool_le (b : Bool) : b.toNat ≤ 1 := Bool.toNat_le b

theorem reach_egRead {left x n s} (h : Live .egEnc s) (acc : AccPlain s.work) (hl : left ≤ 4) (hx : x < 2 ^ (4 - left))
    (hn : (if left = 0 then bitsLeft s.work.imask + 2 else max (bitsLeft s.work.imask + 1) 1) < n) : Reach n (egRead left x s) := by
  unfold egRead
  induction left generalizing x s with
  | zero => exact reach_egPutStep h acc (fun _ => by simpa using hn)
  | succ left ih =>
    unfold getBits
    split
    · exact reach_pull (p := .egSym (left + 1) x) h acc ⟨by omega, hl, hx⟩ (by simp [mu]; simp at hn; omega)
    · rename_i hz
      have hs := bitsLeft_shift s.work.imask hz
      refine ih (s := s.dropBit) (h.work _) (acc_dropBit acc) (by omega) ?_ ?_
      · have : 4 - left = 4 - (left + 1) + 1 := by omega
        rw [this, Nat.pow_succ]
        have := bool_le s.nextBit
        omega
      · simp only [State.dropBit]
        rw [if_neg (by omega)] at hn
        split <;> omega

theorem reach_egSymStep {left x s} (h : Live .egEnc s) (acc : AccPlain s.work) (w : WorkOk (.egSym left x) s) :
    Reach (mu (.egSym left x) s.work) (egSymStep left x s) := by
  obtain ⟨w1, w2, w3⟩ := w
  unfold egSymStep; split
  · exact reach_egPutStep h acc (by simp)
  · rename_i v hv
    refine reach_egRead (h.work _) ⟨.inr ⟨0, by omega, (by decide : (0x80#8 : Byte) = 0x80#8 >>> 0)⟩, acc.2⟩ w2 w3 ?_
    rw [if_neg (by omega)]
    have := bitsLeft_le (0x80#8)
    simp [State.refill, mu, hv]; omega

theorem reach_egOutStep {bits n s} (h : Live .egDec s) (acc : AccPlain s.work) (hn : bitsLeft s.work.imask + 2 < n) : Reach n (egOutStep bits s) := by
  refine reach_putBits (op := .egDec) h (fun _ => rfl) acc (fun _ _ => Iff.rfl) (fun _ _ _ => trivial) ?_
  intro o m ha hl
  exact reach_nextUnit (d := .eg) (h.work _) ha trivial hn

/-! ## Wire units -/

/-- A unit that its decoder has just read has its effect. -/
theorem onUnit_of {d s k} (h : s.seq = .run (.unit d)) : onUnit d s k = k := by unfold onUnit; rw [if_pos h]

theorem reach_egSymbol {sym n s} (h : Live .egDec s) (acc : AccPlain s.work) (hq : s.seq = .run (.unit .eg)) (hn : bitsLeft s.work.imask + 2 < n) :
    Reach n (egSymbol sym s) := by
  unfold egSymbol; rw [onUnit_of hq]
  exact reach_egOutStep (h.work _) acc hn

/-- EVERY WIRE UNIT that its decoder has just read executes. -/
theorem reach_exec_unit {d i n s} (h : Live (Point.op (.unit d)) s) (acc : AccPlain s.work) (hd : DecoderOk d s)
    (hq : s.seq = .run (.unit d)) (hi : i.family = d.family) (hn : bitsLeft s.work.imask + 2 < n) : Reach n (exec i s) := by
  cases d with
  | lzss =>
    cases i <;> simp [Instr.family, Decoder.family] at hi
    · simp only [exec, execLzssLiteral]; rw [onUnit_of hq]
      exact reach_push (p := .lzssLitDone _) h acc hd
    · simp only [exec, execLzssReference]; rw [onUnit_of hq]
      exact reach_lzssCopyHead (h.work _) acc hd hn
  | rle =>
    cases i <;> simp [Instr.family, Decoder.family] at hi
    · simp only [exec, execRleLiteralBlock]; rw [onUnit_of hq]
      exact reach_rleLitHead (h.work _) acc hn
    · simp only [exec, execRleRunBlock]; rw [onUnit_of hq]
      exact reach_rleRunHead (h.work _) acc hn
  | mtf =>
    cases i <;> simp [Instr.family, Decoder.family] at hi
    rename_i r
    simp only [exec, execMtfRank]; rw [onUnit_of hq]
    refine reach_memRead (by simpa [usedPart] using r.isLt) ?_
    exact reach_push (p := .mtfOut _) (h.work _) acc ⟨hd, rfl⟩
  | lzp =>
    cases i <;> simp [Instr.family, Decoder.family] at hi
    simp only [exec, execLzpBlock]; rw [onUnit_of hq]
    exact reach_lzpBitHead (h.work _) acc hd hn
  | eg =>
    cases i <;> simp [Instr.family, Decoder.family] at hi
    case egTerminal =>
      simp only [exec, execEgTerminal]; rw [onUnit_of hq]
      exact reach_flushThenFinish (p := .egOutFlushed) (h.work _) acc trivial
    case egInvalidValue =>
      simp only [exec, execEgInvalidValue]; rw [onUnit_of hq]
      exact reach_raise (h.work _)
    case egInvalidPrefix =>
      simp only [exec, execEgInvalidPrefix]; rw [onUnit_of hq]
      exact reach_raise (h.work _)
    all_goals
      simp only [exec]
      exact reach_egSymbol h acc hq hn

/-- What noting a partial unit leaves. -/
theorem noteUnit_props (d : Decoder) (s : State) : (noteUnit d s).seq = s.seq ∧ (noteUnit d s).work.imask = s.work.imask
   ∧ (noteUnit d s).work.omask = s.work.omask ∧ (noteUnit d s).work.obits = s.work.obits ∧ (noteUnit d s).work.unit = s.work.unit
   ∧ (noteUnit d s).work.wr = s.work.wr ∧ (noteUnit d s).work.hash = s.work.hash ∧ (∀ sp, (noteUnit d s).ram sp = s.ram sp) ∧ (noteUnit d s).epoch = s.epoch
   ∧ (noteUnit d s).eoi = s.eoi ∧ (noteUnit d s).params = s.params := by
  have hr : ∀ sp w, ({ s with work := w } : State).ram sp = s.ram sp := by intro sp w; cases sp <;> rfl
  cases d with
  | lzss => unfold noteUnit; dsimp only; split <;> simp [hr]
  | rle => simp [noteUnit, hr]
  | eg => simp [noteUnit, hr]
  | mtf => simp [noteUnit]
  | lzp => simp [noteUnit]

/-- More bits of a unit: it executes, or the decoder reads on. -/
theorem reach_takeUnitBits {d bits n s} (h : Live (Point.op (.unit d)) s) (acc : AccPlain s.work) (hd : DecoderOk d s)
    (hm : bitsLeft s.work.imask + 2 < n) : Reach n (takeUnitBits d bits s) := by
  unfold takeUnitBits; split
  · rename_i i rest hi
    have hh : Live (Point.op (.unit d)) ({ s with work := { s.work with unit := [] } }.goto (.unit d)) := (h.work _).goto _
    refine reach_exec_unit (d := d) hh acc ?_ rfl (decode_family hi) hm
    cases d <;> exact hd
  · rename_i e he
    have hnone : decodeFirst d.family s.params.wire (s.work.unit ++ bits) = none := by
      unfold decode at he
      split at he
      · simp at he
      · assumption
    obtain ⟨p1, p2, p3, p4, p5, p6, p7, p8, p9, p10, p11⟩ := noteUnit_props d ({ s with work := { s.work with unit := s.work.unit ++ bits } }.goto (.fetch d))
    have hl : Live (Point.op (.fetch d)) (noteUnit d ({ s with work := { s.work with unit := s.work.unit ++ bits } }.goto (.fetch d))) := by
      refine ((h.work _).goto _).same (inside_noteUnit _ _) p8 |> fun h => ?_
      cases d <;> exact h
    refine ⟨_, rfl, inv_run (p := .fetch d) hl (by rw [p1]; rfl) (by rw [p1]; simp) ?_ ⟨?_, ?_⟩, ?_⟩
    · show AccPlain _
      unfold AccPlain; rw [p2, p3, p4]; exact acc
    · have hk := peek_of_rams p8 p9
      cases d with
      | lzss => simp only [DecoderOk]; rw [p6, p11]; exact hd
      | lzp => simp only [DecoderOk]; rw [p7, p11]; exact hd
      | mtf => intro b; obtain ⟨i, hi, hb⟩ := hd b; exact ⟨i, hi, by rw [hk]; exact hb⟩
      | rle => trivial
      | eg => trivial
    · unfold PartialUnit; rw [p5, p11]; exact hnone
    · intro q hq
      rw [p1] at hq; simp at hq; subst hq
      simp only [mu]; rw [p2]; exact hm

end Sys2Proof.Machine
end

