-- ==== Sys2Proof/Laws/Advance.lean ====
section
/-! SUPPORT. ONE POINT OF THE PSEUDOCODE: from a state with the invariant it completes, keeps the invariant and lowers the measure. -/

namespace Sys2Proof.Machine


/-- A state with the invariant is `Live` for the operation of its point. -/
theorem inv_live {p s} (h : Inv s) (hq : s.seq.point = some p) : Live p.op s := by
  have hr := h.running p hq
  have hb : s.status.busy = true := h.busy.2 (by intro h'; rw [h'] at hq; simp [Seq.point] at hq)
  exact ⟨h.build, h.rams, h.lzssCfg, h.rleCfg, h.lzpCfg, hb, (h.busyNotDone hb).1, (h.busyNotDone hb).2, hr.params, hr.codec, hr.dir, hr.statusCodec, hr.statusDir, hr.endSeen⟩

theorem reach_fetchStep {d n s} (h : Live (Point.op (.fetch d)) s) (acc : AccPlain s.work) (w : WorkOk (.fetch d) s)
    (hn : bitsLeft s.work.imask + 1 < n) (hn2 : 1 < n) : Reach n (fetchStep d s) := by
  unfold fetchStep; split
  · rename_i hd
    have hs := bitsLeft_shift s.work.imask hd.2
    have hh : Live (Point.op (.unit d)) s := by cases d <;> exact h
    refine reach_takeUnitBits (s := s.dropBit) (hh.work _) (acc_dropBit acc) ?_ ?_
    · cases d <;> exact w.1
    · simp only [State.dropBit]; omega
  · have hh : Live (Point.op (.fetched d)) s := by cases d <;> exact h
    exact reach_pull (p := .fetched d) hh acc w (by simp [mu]; omega)

theorem reach_fetchEnd {d n s} (h : Live (Point.op (.fetch d)) s) : Reach n (.next (fetchEnd d s)) := by
  cases d <;> simp only [fetchEnd]
  · exact reach_finish h
  · split
    · exact reach_finish h
    · exact reach_raise h
  · exact reach_raise h
  · exact reach_finish h
  · exact reach_finish h

theorem reach_fetchedStep {d s} (h : Live (Point.op (.fetched d)) s) (acc : AccPlain s.work) (w : WorkOk (.fetched d) s) :
    Reach (mu (.fetched d) s.work) (fetchedStep d s) := by
  have hh : Live (Point.op (.unit d)) s := by cases d <;> exact h
  have hf : Live (Point.op (.fetch d)) s := by cases d <;> exact h
  unfold fetchedStep; split
  · exact reach_fetchEnd hf
  · rename_i v hv
    split
    · have hb := bitsLeft_le (0x80#8)
      refine reach_fetchStep (s := s.refill v) (hf.work _) ⟨.inr ⟨0, by omega, (by decide : (0x80#8 : Byte) = 0x80#8 >>> 0)⟩, acc.2⟩ ?_ ?_ ?_
      · refine ⟨?_, w.2⟩
        cases d <;> exact w.1
      · simp [State.refill, mu, hv]; omega
      · simp [mu, hv]
    · have hb := bitsLeft_le s.work.imask
      exact reach_takeUnitBits hh acc w.1 (by simp [mu, hv]; omega)

/-- ONE POINT: never a fault, the invariant kept, the measure falls. -/
theorem reach_advance {p s} (h : Inv s) (hq : s.seq = .run p) : Reach (mu p s.work) (advance p s) := by
  have hp : s.seq.point = some p := by rw [hq]; rfl
  have hl := inv_live h hp
  have hr := h.running p hp
  have acc := hr.accumulators
  have w := hr.work
  have hb := bitsLeft_le s.work.imask
  cases p with
  | fetch d => exact reach_fetchStep hl acc w (by simp [mu]) (by simp [mu])
  | fetched d => exact reach_fetchedStep hl acc w
  | unit d =>
    have hf : Live (Point.op (.fetch d)) s := by cases d <;> exact hl
    exact reach_nextUnit hf acc w (by simp [mu]; omega)
  | rleTop => exact reach_rleTopStep hl acc w
  | rleCount => exact reach_rleCountStep hl acc w
  | rleLits t ret => exact reach_rleLitsStep hl acc w
  | rleRunCmd => exact reach_push (p := .rleRunByte) hl acc w
  | rleRunByte =>
    have := rle_params hl
    exact reach_rleAfterRun hl acc (by rw [w.1]; omega) (fun _ => w.1) (by simp only [mu]; split <;> omega)
  | rleLitByte left => exact reach_rleLitByteStep hl acc
  | rleLitDone left => exact reach_rleLitHead hl acc (by simp [mu]; omega)
  | rleRunDone left v => exact reach_rleRunHead hl acc (by simp [mu]; omega)
  | lzssFill again => exact reach_lzssFillStep hl acc w
  | lzssMain => exact reach_lzssMainStep hl acc w
  | lzssPut bits => exact reach_lzssPutStep (s := s.emptyOut) (hl.work _) (acc_emptyOut acc.1) w.1 w.2.1 w.2.2.1 w.2.2.2 (by simp [mu])
  | lzssFlushed => exact reach_flushed hl
  | lzssLitDone v => exact reach_lzssLitDoneStep hl acc w
  | lzssCopied k v => exact reach_lzssCopiedStep hl acc w
  | egMain => exact reach_egRead hl acc (by omega) (by omega) (by simp [mu])
  | egSym left x => exact reach_egSymStep hl acc w
  | egPut bits last => exact reach_egPutStep (s := s.emptyOut) (hl.work _) (acc_emptyOut acc.1) (fun _ => by simp [mu]; omega)
  | egFlushed => exact reach_flushed hl
  | egOut bits => exact reach_egOutStep (s := s.emptyOut) (hl.work _) (acc_emptyOut acc.1) (by simp [mu]; omega)
  | egOutFlushed => exact reach_flushed hl
  | mtfByte => exact reach_mtfByteStep hl acc w
  | mtfRanked b => exact reach_mtfRankedStep hl acc w
  | mtfOut b => exact reach_mtfOutStep hl acc w
  | lzpByte => exact reach_lzpByteStep hl acc w
  | lzpLits t => exact reach_lzpLitsStep hl acc w
  | lzpLiteral => exact reach_lzpLiteralStep hl acc w
  | lzpOut b => exact reach_lzpOutStep hl acc

end Sys2Proof.Machine
end

