-- ==== Sys2Proof/Laws/Settle.lean ====
section
/-! SUPPORT. How an atomic step unfolds point by point, and which host action a step performs. -/

namespace Sys2Proof.Machine

@[simp] theorem andThen_next (s : State) (k : State → Out) : Out.andThen (.next s) k = k s := rfl

/-- An atomic step from a point begins with that point. -/
theorem engineStep_run {s : State} {p : Point} (h : s.seq = .run p) :
    engineStep s = (advance p s).andThen (settle (settleFuel - 1)) := by
  show settle 32 s = _
  unfold settle; rw [h]; rfl

theorem settle_run {n : Nat} {s : State} {p : Point} (h : s.seq = .run p) :
    settle (n + 1) s = (advance p s).andThen (settle n) := by
  unfold settle; rw [h]

/-- An atomic step stops at a pull, at a push and at the operation's end. -/
theorem settle_pull {n : Nat} {s : State} {p : Point} (h : s.seq = .waitPull p) : settle n s = .next s := by
  cases n <;> unfold settle <;> [rfl; rw [h]]

theorem settle_push {n : Nat} {s : State} {p : Point} {v : Byte} (h : s.seq = .waitPush p v) : settle n s = .next s := by
  cases n <;> unfold settle <;> [rfl; rw [h]]

theorem settle_idle {n : Nat} {s : State} (h : s.seq = .idle) : settle n s = .next s := by
  cases n <;> unfold settle <;> [rfl; rw [h]]

/-- The step of a machine whose script begins with an action performs it. -/
theorem step_of_script {s : State} {a : HostAction} {rest : List HostAction} (h : s.host.script = a :: rest) :
    step s = perform a s := by
  show machineStep s = _
  unfold machineStep; rw [h]

/-- With nothing in the script, a running engine makes its atomic step. -/
theorem step_of_empty_script {s : State} {p : Point} (h : s.host.script = []) (hq : s.seq = .run p) : step s = engineStep s := by
  show machineStep s = _
  unfold machineStep; rw [h]
  show idleStep s = _
  unfold idleStep; rw [hq]

/-- A write to the CMD register executes the command that its word decodes to. -/
theorem step_of_command {s : State} {w : Word} {rest : List HostAction} (h : s.host.script = .write s.build.regBase .word w :: rest) :
    step s = exec (decodeCommand w) s.popped := by
  rw [step_of_script h]
  show hostWrites _ _ _ _ = _
  unfold hostWrites Build.offset
  simp [regAt]

/-- A masked value is a remainder (00_scope R7). -/
theorem and_mask (x n : Nat) : x &&& (2 ^ n - 1) = x % 2 ^ n := Nat.and_two_pow_sub_one_eq_mod x n

end Sys2Proof.Machine
end

