-- ==== Sys2Proof/Tests/Slice0.lean ====
section
/-! SUPPORT. Tests whose expected results are the spec's (the rule stands with each), and for every obligation that has
hypotheses a concrete state that meets them, clause by clause. -/

open Sys2Proof Sys2Proof.Machine Sys2Proof.Claims

namespace Sys2Proof.Tests

/-! ## Well-formedness refuses -/

/-- 30_encoding R122: a reserved word of this form has a bit of [31:4] set. -/
theorem test_wf_highbits : (Instr.reservedHighbits 0#28 true 3#3).wf Wire.default = false := by decide

/-- 30_encoding R125, EI = 11: 2048 is no position. -/
theorem test_wf_position : (Instr.lzssReference 2048#15 1#8).wf Wire.default = false := by decide

/-- 30_encoding R125, EJ = 4: 16 is no length. -/
theorem test_wf_length : (Instr.lzssReference 0#15 16#8).wf Wire.default = false := by decide

/-- 30_encoding R128, RL = 128: command byte 128 is no literal block. -/
theorem test_wf_literalBlock : (Instr.rleLiteralBlock 128#8).wf Wire.default = false := by decide

/-- 30_encoding R128, RL = 128: command byte 129 is no run block. -/
theorem test_wf_runBlock : (Instr.rleRunBlock 129#8 0#8).wf Wire.default = false := by decide

/-- 30_encoding R130: suffix 0001 is the terminal. -/
theorem test_wf_invalidValue : (Instr.egInvalidValue 1#4).wf Wire.default = false := by decide

/-! ## Decoding, word by word -/

/-- 30_encoding R121: the ten commands. -/
theorem test_decode_commands :
    decodeCommand 0x00000000#32 = .rleEnc ∧ decodeCommand 0x00000008#32 = .rleDec
    ∧ decodeCommand 0x00000001#32 = .lzssEnc ∧ decodeCommand 0x00000009#32 = .lzssDec
    ∧ decodeCommand 0x00000002#32 = .egEnc ∧ decodeCommand 0x0000000A#32 = .egDec
    ∧ decodeCommand 0x00000003#32 = .mtfEnc ∧ decodeCommand 0x0000000B#32 = .mtfDec
    ∧ decodeCommand 0x00000004#32 = .lzpEnc ∧ decodeCommand 0x0000000C#32 = .lzpDec := by decide

/-- 30_encoding R122: the reserved words 0x5 to 0x7 and 0xD to 0xF, and words with a high bit. -/
theorem test_decode_reserved :
    decodeCommand 0x00000005#32 = .reservedCodec5 false ∧ decodeCommand 0x0000000D#32 = .reservedCodec5 true
    ∧ decodeCommand 0x00000006#32 = .reservedCodec6 false ∧ decodeCommand 0x0000000E#32 = .reservedCodec6 true
    ∧ decodeCommand 0x00000007#32 = .reservedCodec7 false ∧ decodeCommand 0x0000000F#32 = .reservedCodec7 true
    ∧ decodeCommand 0x00000010#32 = .reservedHighbits 1#28 false 0#3
    ∧ decodeCommand 0x8000000D#32 = .reservedHighbits 0x8000000#28 true 5#3 := by decide

/-- 30_encoding R125: `1` and the byte 0x61; `0`, position 2031, length 1; the shortest reference, EI = 6, EJ = 1. -/
theorem test_decode_lzss :
    decode .lzss Wire.default (bits [1, 0, 1, 1, 0, 0, 0, 0, 1]) = .ok (.lzssLiteral 0x61#8, [])
    ∧ decode .lzss Wire.default (bits [0, 1, 1, 1, 1, 1, 1, 0, 1, 1, 1, 1, 0, 0, 0, 1]) = .ok (.lzssReference 2031#15 1#8, [])
    ∧ decode .lzss ⟨6, 1, 128⟩ (bits [0, 1, 0, 0, 0, 0, 1, 1]) = .ok (.lzssReference 33#15 1#8, []) := by decide

/-- 30_encoding R128: the comparison with RL decides. -/
theorem test_decode_rle :
    decode .rle Wire.default (bits [1, 0, 0, 0, 0, 0, 0, 1]) = .ok (.rleLiteralBlock 0x81#8, [])
    ∧ decode .rle Wire.default (bits [1, 0, 0, 0, 0, 0, 0, 0, 0, 1, 0, 0, 0, 0, 0, 1]) = .ok (.rleRunBlock 0x80#8 0x41#8, [])
    ∧ decode .rle ⟨11, 4, 2⟩ (bits [0, 0, 0, 0, 0, 0, 1, 1]) = .ok (.rleLiteralBlock 3#8, []) := by decide

/-- 30_encoding R129: the code table, the shorter codes. -/
theorem test_decode_eg :
    decode .eg Wire.default (bits [0]) = .ok (.egSymbol0, [])
    ∧ decode .eg Wire.default (bits [1, 0, 0]) = .ok (.egSymbol1, [])
    ∧ decode .eg Wire.default (bits [1, 0, 1]) = .ok (.egSymbol2, [])
    ∧ decode .eg Wire.default (bits [1, 1, 0, 0, 0]) = .ok (.egSymbol3, [])
    ∧ decode .eg Wire.default (bits [1, 1, 0, 0, 1]) = .ok (.egSymbol4, [])
    ∧ decode .eg Wire.default (bits [1, 1, 0, 1, 0]) = .ok (.egSymbol5, [])
    ∧ decode .eg Wire.default (bits [1, 1, 0, 1, 1]) = .ok (.egSymbol6, [])
    ∧ decode .eg Wire.default (bits [1, 1, 1, 0, 0, 0, 0]) = .ok (.egSymbol7, [])
    ∧ decode .eg Wire.default (bits [1, 1, 1, 0, 0, 0, 1]) = .ok (.egSymbol8, []) := by decide

/-- The same, the longer codes. -/
theorem test_decode_eg_long :
    decode .eg Wire.default (bits [1, 1, 1, 0, 0, 1, 0]) = .ok (.egSymbol9, [])
    ∧ decode .eg Wire.default (bits [1, 1, 1, 0, 0, 1, 1]) = .ok (.egSymbol10, [])
    ∧ decode .eg Wire.default (bits [1, 1, 1, 0, 1, 0, 0]) = .ok (.egSymbol11, [])
    ∧ decode .eg Wire.default (bits [1, 1, 1, 0, 1, 0, 1]) = .ok (.egSymbol12, [])
    ∧ decode .eg Wire.default (bits [1, 1, 1, 0, 1, 1, 0]) = .ok (.egSymbol13, [])
    ∧ decode .eg Wire.default (bits [1, 1, 1, 0, 1, 1, 1]) = .ok (.egSymbol14, []) := by decide

/-- The nine-bit codes and the invalid ones (30_encoding R130). -/
theorem test_decode_eg_ends :
    decode .eg Wire.default (bits [1, 1, 1, 1, 0, 0, 0, 0, 0]) = .ok (.egSymbol15, [])
    ∧ decode .eg Wire.default (bits [1, 1, 1, 1, 0, 0, 0, 0, 1]) = .ok (.egTerminal, [])
    ∧ decode .eg Wire.default (bits [1, 1, 1, 1, 0, 0, 0, 1, 0]) = .ok (.egInvalidValue 2#4, [])
    ∧ decode .eg Wire.default (bits [1, 1, 1, 1, 0, 1, 1, 1, 1]) = .ok (.egInvalidValue 15#4, [])
    ∧ decode .eg Wire.default (bits [1, 1, 1, 1, 1]) = .ok (.egInvalidPrefix, []) := by decide

/-- 30_encoding R131, R132: every byte is a rank, every byte is a mask. -/
theorem test_decode_bytes :
    decode .mtf Wire.default (bits [0, 1, 1, 0, 0, 0, 1, 0]) = .ok (.mtfRank 0x62#8, [])
    ∧ decode .lzp Wire.default (bits [1, 1, 0, 0, 0, 0, 0, 0]) = .ok (.lzpBlock 0xC0#8, []) := by decide

/-- What is no unit is rejected by name. -/
theorem test_decode_rejects :
    decode .rle Wire.default [] = .error .noBits ∧ decode .rle Wire.default (bits [0, 0, 0, 0, 0, 0, 1, 1]) = .error .cut
    ∧ decode .lzss Wire.default (bits [0, 0, 0, 0, 0, 0, 0]) = .error .cut := by decide

/-- 20_memory R82 (b), 30_encoding R125: the first byte's bit 7 is the first bit of the stream. -/
theorem test_decode_stream : (decodeBytes .lzss Wire.default [0xB0#8, 0x80#8]).toOption.map (·.1) = some (.lzssLiteral 0x61#8) := by
  decide

/-- The opcode table's words: its patterns, with the length as written or in whole bytes. -/
theorem test_decode_table :
    decodeTableWord 32 0x9 = some .lzssDec ∧ decodeTableWord 16 0x7EF1 = some (.lzssReference 2031#15 1#8)
    ∧ decodeTableWord 16 0x4 = some (.lzssReference 0#15 4#8) ∧ decodeTableWord 9 0x161 = some (.lzssLiteral 0x61#8)
    ∧ decodeTableWord 16 0x161 = some (.lzssLiteral 0x61#8) ∧ decodeTableWord 1 0 = some .egSymbol0
    ∧ decodeTableWord 3 0b101 = some .egSymbol2 ∧ decodeTableWord 8 0b11011 = some .egSymbol6
    ∧ decodeTableWord 16 0b111100001 = some .egTerminal ∧ decodeTableWord 8 0x62 = some (.mtfRank 0x62#8) := by decide

/-! ## One step on a small state -/

/-- The default parameters, latched (00_scope R6). -/
def defaults : Params :=
  { ei := 11, ej := 4, p := 2, fill := 0x20#8, rl := 128, rover := 1, hashOrder := 16, blockLength := 8 }

/-- The working registers with both accumulators empty (40_stream_bitpacker R160). -/
def empty : Work := { Work.zero with omask := 0x80#8 }

/-- The operation `op` running with the control state `q` and working registers `w`. -/
def on (op : Op) (q : Seq) (w : Work := empty) : State :=
  { State.reset with
    status := ⟨true, false, false, .ok, op.codecField, op.dirField⟩
    opCodec := op.codecField, opDir := op.dirField, params := defaults, seq := q, work := w }

/-- The same after the input port has answered End. -/
def sawEnd (s : State) : State := { s with eoi := true, status := { s.status with eoi := true } }

/-- The same with a host action next. -/
def hostSays (a : HostAction) (s : State) : State := { s with host := { s.host with script := [a] } }

/-- A field of the next state, none when there is none. -/
def nextField {α : Type} (o : Out) (f : State → α) : Option α :=
  match o with
  | .next t => some (f t)
  | .fault _ => none
  | .refused _ => none

/-- STATUS after a command word is written to the machine that reset left. -/
def statusAfter (w : Nat) : Option Word := nextField (step (State.reset.withFetchWord 32 w)) fun t => t.status.toWord

/-- 40_stream_bitpacker R160: BUSY, CODEC and DIR; its worked example is `lzss.dec`. -/
theorem test_commands_start :
    statusAfter 0x0 = some 0x001#32 ∧ statusAfter 0x8 = some 0x801#32 ∧ statusAfter 0x1 = some 0x101#32 ∧ statusAfter 0x9 = some 0x901#32
    ∧ statusAfter 0x2 = some 0x201#32 ∧ statusAfter 0xA = some 0xA01#32 ∧ statusAfter 0x3 = some 0x301#32
    ∧ statusAfter 0xB = some 0xB01#32 ∧ statusAfter 0x4 = some 0x401#32 ∧ statusAfter 0xC = some 0xC01#32 := by decide

/-- 30_encoding R122, 10_state R32: DONE, RESULT 3, CODEC and DIR as written. -/
theorem test_reserved_end :
    statusAfter 0x5 = some 0x532#32 ∧ statusAfter 0xD = some 0xD32#32 ∧ statusAfter 0x6 = some 0x632#32 ∧ statusAfter 0xE = some 0xE32#32
    ∧ statusAfter 0x7 = some 0x732#32 ∧ statusAfter 0xF = some 0xF32#32 ∧ statusAfter 0x10 = some 0x032#32
    ∧ statusAfter 0x80000009 = some 0x932#32 := by decide

/-- 40_stream_bitpacker R161's worked example: EJ = 12 with EI = 11 is refused without a pull. -/
theorem test_illegal_lzss :
    nextField (exec .lzssEnc { State.reset with lzssCfg := 0x002002CB#32 }) (fun t => (t.status.result, t.seq))
      = some (.invalidParameters, .idle) := by decide

/-- 41_lzss R222: the literal is pushed. -/
theorem test_lzss_literal :
    nextField (exec (.lzssLiteral 0x61#8) (on .lzssDec (.run (.unit .lzss)))) (·.seq)
      = some (.waitPush (.lzssLitDone 0x61#8) 0x61#8) := by decide

/-- 41_lzss R221, R223: a reference to the filled part copies FILL. -/
theorem test_lzss_reference :
    nextField (step (State.reset.withFetchWord 16 0x0001)) (·.seq) = some (.waitPush (.lzssCopied 0 0x20#8) 0x20#8) := by decide

/-- 42_rle R261: command 0x81 with RL = 128 has one payload byte. -/
theorem test_rle_literal_block :
    nextField (exec (.rleLiteralBlock 0x81#8) (on .rleDec (.run (.unit .rle)))) (·.seq) = some (.waitPull (.rleLitByte 1)) := by
  decide

/-- 42_rle R262: command 0x80 with ROVER = 1 is 130 copies. -/
theorem test_rle_run_block :
    nextField (exec (.rleRunBlock 0x80#8 0x41#8) (on .rleDec (.run (.unit .rle)))) (fun t => (t.work.n, t.seq))
      = some (130, .waitPush (.rleRunDone 129 0x41#8) 0x41#8) := by decide

/-- 43_elias_gamma R304: the symbol is the high nibble of an empty accumulator. -/
theorem test_eg_symbols :
    [Instr.egSymbol0, .egSymbol1, .egSymbol2, .egSymbol3, .egSymbol4, .egSymbol5, .egSymbol6, .egSymbol7, .egSymbol8, .egSymbol9,
      .egSymbol10, .egSymbol11, .egSymbol12, .egSymbol13, .egSymbol14, .egSymbol15].map
      (fun i => nextField (exec i (on .egDec (.run (.unit .eg)))) (·.work.obits))
    = [0x00#8, 0x10#8, 0x20#8, 0x30#8, 0x40#8, 0x50#8, 0x60#8, 0x70#8, 0x80#8, 0x90#8, 0xA0#8, 0xB0#8, 0xC0#8, 0xD0#8, 0xE0#8,
      0xF0#8].map some := by decide

/-- 43_elias_gamma R302, R303; 60_exceptions R370: the terminal ends with OK, the invalid codes with CorruptStream. -/
theorem test_eg_ends :
    nextField (exec .egTerminal (on .egDec (.run (.unit .eg)))) (·.status.toWord) = some 0xA02#32
    ∧ nextField (exec (.egInvalidValue 2#4) (on .egDec (.run (.unit .eg)))) (·.status.toWord) = some 0xA42#32
    ∧ nextField (exec .egInvalidPrefix (on .egDec (.run (.unit .eg)))) (·.status.toWord) = some 0xA42#32 := by decide

/-- 43_elias_gamma R302: a half byte is flushed at the terminal. -/
theorem test_eg_terminal_flushes :
    nextField (exec .egTerminal (on .egDec (.run (.unit .eg)) { empty with obits := 0x60#8, omask := 0x08#8 })) (·.seq)
      = some (.waitPush .egOutFlushed 0x60#8) := by decide

/-- 43_elias_gamma R300: at the start, and between two codes, the unary count is 0, whatever an earlier stream left in it. -/
theorem test_eg_count_starts_at_zero :
    nextField (exec .egDec { State.reset with work := { Work.zero with gcount := 5 } }) (·.work.gcount) = some 0
    ∧ nextField (exec .egSymbol6 (on .egDec (.run (.unit .eg)))) (·.work.gcount) = some 0 := by decide

/-- 41_lzss R220: with EI = 7 the first eight bits of a literal leave `dpos`; those of a reference give it. -/
theorem test_lzss_position_of_references :
    let s := fun v : Byte => { on .lzssDec (.run (.fetched .lzss)) { empty with rv := some v } with params := { defaults with ei := 7 } }
    nextField (engineStep (s 0xB0#8)) (·.work.dpos) = some 0 ∧ nextField (engineStep (s 0x30#8)) (·.work.dpos) = some 0x30 := by decide

/-- 70_reset R402: late answers to the requests that two resets withdrew are ignored, one while a new operation waits on the other
port, one between two port transactions, where a late `Full` does not end the new operation. -/
theorem test_late_answers_ignored :
    let s := { on .mtfEnc (.waitPull .mtfByte) with
      host := { HostSide.empty with withdrawn := [.push, .pull], script := [.answerPush .ok] } }
    let u := { on .mtfEnc (.run .mtfByte) with
      host := { HostSide.empty with withdrawn := [.pull, .push], script := [.answerPush .full] } }
    nextField (step s) (fun t => (t.seq, t.host.withdrawn, t.writeCount)) = some (.waitPull .mtfByte, [.pull], 0#32)
    ∧ nextField (step u) (fun t => (t.seq, t.host.withdrawn, t.host.script)) = some (.run .mtfByte, [.pull], []) := by decide

/-- 30_encoding R136, 95_test_vectors P4: `roundtrip` on CODEC 2 is two commands, 0x2 and 0xA, the second fed with the output of
the first, and a comparison. -/
theorem test_roundtrip_lines :
    roundtrip Build.default .eg [] 64 64
      = [.connectInput [], .connectOutput 64, .write 0x00 .word 0x2#32, .waitDone, .read 0x04 .word, .read 0x18 .word,
        .connectEncoded, .connectOutput 64, .write 0x00 .word 0xA#32, .waitDone, .read 0x04 .word, .read 0x18 .word,
        .compareOutput []] := by decide

/-- 30_encoding R136: the two bytes `F0 80` of an output array are the next transform's input; they differ from the bytes
`F0`. -/
theorem test_roundtrip_steps :
    let s := fun a => { State.reset with
      writeCount := 2#32, host := { HostSide.empty with output := some ⟨64, 2, [(0, 0xF0#8), (1, 0x80#8)]⟩, script := [a] } }
    nextField (step (s .connectEncoded)) (·.host.input) = some (some [0xF0#8, 0x80#8])
    ∧ nextField (step (s (.compareOutput [0xF0#8]))) (·.host.compared) = some [false]
    ∧ nextField (step (s (.compareOutput [0xF0#8, 0x80#8]))) (·.host.compared) = some [true] := by decide

/-- 44_mtf R320, R330: in the identity table rank 0x62 is the byte 0x62. -/
theorem test_mtf_rank :
    nextField (exec (.mtfRank 0x62#8) (on .mtfDec (.run (.unit .mtf)))) (·.seq) = some (.waitPush (.mtfOut 0x62#8) 0x62#8) := by decide

/-- 45_lzp R340, R351: mask 0xFF in a cleared table predicts 0. -/
theorem test_lzp_block :
    nextField (exec (.lzpBlock 0xFF#8) (on .lzpDec (.run (.unit .lzp)))) (·.seq) = some (.waitPush (.lzpOut 0#8) 0#8)
    ∧ nextField (exec (.lzpBlock 0xC0#8) (on .lzpDec (.run (.unit .lzp)))) (·.seq) = some (.waitPull .lzpLiteral) := by decide

/-- 40_stream_bitpacker R160, R165: a command placed in the machine that reset left runs as its next step. -/
theorem test_step_runs_command :
    step (State.reset.withFetchWord 32 0x2)
      = exec .egEnc { State.reset with host := { State.reset.host with script := [] } } := rfl

/-- 30_encoding R129: a code placed in EG.DEC is the one unit that the step takes, its symbol 6 in the high nibble. -/
theorem test_step_runs_code :
    nextField (step (State.reset.withFetchWord 8 0b11011)) (fun t => (t.seq, t.work.obits)) = some (.waitPull (.fetched .eg), 0x60#8) := by
  decide

/-- 44_mtf R320: promoting rank 2 of the identity gives 2, 0, 1, 3. -/
theorem test_promote : (List.range 4).map ((promote 2 2#8 State.reset).peek .mtft) = [2#8, 0#8, 1#8, 3#8] := by decide

/-- 41_lzss R202, 90_conflicts C1: the leftmost of two equal matches. -/
theorem test_leftmost_match : bestMatch (fun a => BitVec.ofNat 8 (a % 4)) 0 8 3 = (0, 3) := by decide

/-! ## The hypotheses of the obligations are met -/

/-- What a list of RAMs with nothing listed satisfies. -/
theorem rams_of_empty (s : State) (h : s.win = [] ∧ s.lzpt = [] ∧ s.mtft = [] ∧ s.rleb = [] ∧ s.litb = []) :
    ∀ sp, Ram.wf sp (s.ram sp) := by
  obtain ⟨h1, h2, h3, h4, h5⟩ := h
  intro sp
  cases sp <;> simp only [State.ram, h1, h2, h3, h4, h5] <;> exact wf_nil _

/-- The identity table is a permutation. -/
theorem permutation_of_empty (s : State) (h : s.mtft = []) : Permutation s := by
  intro b
  refine ⟨b.toNat, b.isLt, ?_⟩
  simp [State.peek, State.ram, h, Ram.find, unlisted]

/-- The test states are running operations. -/
theorem live_on (op : Op) (q : Seq) (w : Work) (hp : ParamsOk op defaults Build.default) : Live op (on op q w) where
  build := by show State.reset.build.Legal; unfold Build.Legal; decide
  rams := rams_of_empty _ ⟨rfl, rfl, rfl, rfl, rfl⟩
  lzssCfg := by show State.reset.lzssCfg &&& ~~~lzssCfgMask = 0#32; decide
  rleCfg := by show State.reset.rleCfg &&& ~~~rleCfgMask = 0#32; decide
  lzpCfg := by show State.reset.lzpCfg &&& ~~~lzpCfgMask = 0#32; decide
  busy := rfl
  done := rfl
  result := rfl
  params := hp
  codec := rfl
  dir := rfl
  statusCodec := rfl
  statusDir := rfl
  endSeen := rfl

/-- The empty accumulators are in order. -/
theorem empty_ok : OneHot empty.omask ∧ empty.obits &&& (empty.omask ||| (empty.omask - 1#8)) = 0#8 :=
  ⟨⟨0, by omega, by decide⟩, by decide⟩

/-- The default parameters are legal for every operation in the default build. -/
theorem defaults_ok (op : Op) : ParamsOk op defaults Build.default := by
  cases op <;> simp only [ParamsOk] <;> decide

/-- EG.DEC between two codes, its pull answered End: a state that meets the invariant. -/
def gammaCut : State := on .egDec (.run (.fetched .eg))

theorem gammaCut_inv : Inv gammaCut :=
  inv_run (p := .fetched .eg) (live_on .egDec _ _ trivial) rfl (by intro h; cases h) ⟨.inl rfl, empty_ok⟩ ⟨trivial, rfl⟩

/-- MTF.ENC waiting for a byte, its pull outstanding: another. -/
def mtfWaiting (script : List HostAction) : State :=
  { on .mtfEnc (.waitPull .mtfByte) with host := { HostSide.empty with script := script } }

theorem mtfWaiting_inv (script : List HostAction) : Inv (mtfWaiting script) := by
  refine inv_run (p := .mtfByte) ?_ rfl (by intro h; cases h) ⟨.inl rfl, empty_ok⟩ (permutation_of_empty _ rfl)
  have h := live_on .mtfEnc (.waitPull .mtfByte) empty trivial
  exact ⟨h.build, rams_of_empty _ ⟨rfl, rfl, rfl, rfl, rfl⟩, h.lzssCfg, h.rleCfg, h.lzpCfg, h.busy, h.done, h.result, h.params, h.codec,
    h.dir, h.statusCodec, h.statusDir, h.endSeen⟩

/-- The idle machine after an operation has seen End: a third. -/
def endSeen : State := { State.reset with status := ⟨false, true, true, .ok, 3#3, false⟩, opCodec := 3#3, eoi := true }

theorem endSeen_inv : Inv endSeen where
  build := by unfold Build.Legal; decide
  rams := rams_of_empty _ ⟨rfl, rfl, rfl, rfl, rfl⟩
  lzssCfg := by decide
  rleCfg := by decide
  lzpCfg := by decide
  busy := by simp [endSeen, State.reset]
  busyNotDone := by simp [endSeen]
  noPullAfterEnd := by simp [endSeen, State.reset]
  running := by simp [endSeen, State.reset, Seq.point]

theorem witness_ResetRegisterValues : State.reset ∈ [State.reset, gammaCut.hardwareReset] := by simp

/-- A reset while a pull waits, and late answers of both kinds: to an idle engine, and to one that waits on the other port. -/
theorem witness_HardwareResetWithdrawsTheRequest :
    let late := fun (s : State) (k : PortKind) => { s with host := { s.host with withdrawn := [k] } }
    let pushing := on .egDec (.waitPush .egOutFlushed 0x60#8)
    let running := on .mtfEnc (.run .mtfByte)
    (mtfWaiting [.hardwareReset]).host.script = .hardwareReset :: []
    ∧ (∀ s ∈ [State.reset, pushing, running], (late (hostSays (.answerPull .endOfInput) s) .pull).host.script = .answerPull .endOfInput :: []
      ∧ .pull ∈ (late (hostSays (.answerPull .endOfInput) s) .pull).host.withdrawn)
    ∧ State.reset.seq = .idle ∧ pushing.seq = .waitPush .egOutFlushed 0x60#8 ∧ running.seq = .run .mtfByte
    ∧ (late (mtfWaiting [.answerPush .ok]) .push).seq = .waitPull .mtfByte
    ∧ .push ∈ (late (mtfWaiting [.answerPush .ok]) .push).host.withdrawn := by decide

theorem witness_HostReadsGiveTheRegister :
    State.reset.build.Legal
    ∧ (hostSays (.read (State.reset.build.regBase + Reg.caps.offset) .word) State.reset).host.script
      = .read (State.reset.build.regBase + Reg.caps.offset) .word :: [] := ⟨by unfold Build.Legal; decide, rfl⟩

theorem witness_HostWritesTakeEffect :
    (hostSays (.write (State.reset.build.regBase + 0x08) .word 0xFFFFFFFF#32) State.reset).host.script = .write 0x08 .word 0xFFFFFFFF#32 :: []
    ∧ (hostSays (.write (State.reset.build.regBase + 0x0C) .word 0#32) State.reset).host.script = .write 0x0C .word 0#32 :: []
    ∧ (hostSays (.write (State.reset.build.regBase + 0x10) .word 0#32) State.reset).host.script = .write 0x10 .word 0#32 :: []
    ∧ 0x1C ∈ [0x04, 0x14, 0x18, 0x1C] := by decide

/-- The last byte offset inside the window, the last word offset with another width, the first address above the window, and one
below it. -/
theorem witness_MisshapenAccessesRefused :
    (hostSays (.read 31 .word) State.reset).host.script = .read 31 .word :: [] ∧ State.reset.build.regBase ≤ 31
    ∧ 31 < State.reset.build.regBase + 32 ∧ (31 - State.reset.build.regBase) % 4 ≠ 0 ∧ AccessWidth.half ≠ AccessWidth.word
    ∧ State.reset.build.regBase + 32 ≤ 32 ∧ 63 < (⟨15, 16, 64⟩ : Build).regBase := by decide

theorem witness_CommandWhileBusyIgnored :
    gammaCut.status.busy = true ∧ Instr.egEnc.family = .command
    ∧ (hostSays (.write gammaCut.build.regBase .word 0x2#32) gammaCut).host.script = .write gammaCut.build.regBase .word 0x2#32 :: [] := by
  decide

theorem witness_AcceptanceWrites : State.reset.status.busy = false := rfl

/-- The reserved words next to the legal ones, and the largest. -/
theorem witness_ReservedWordsEndAtOnce :
    State.reset.status.busy = false
    ∧ ∀ w ∈ [0x5#32, 0x7#32, 0xD#32, 0xF#32, 0x10#32, 0xFFFFFFFF#32],
      w ∉ [0x0#32, 0x8#32, 0x1#32, 0x9#32, 0x2#32, 0xA#32, 0x3#32, 0xB#32, 0x4#32, 0xC#32] := ⟨rfl, by simp⟩

/-- RL = 1 and 129; EI = 5; EJ = 0; P = 1; F = N + 1; HASH_ORDER = 17; BLOCK_LENGTH = 0 and 9; and legal parameters that a
smaller build does not hold. -/
theorem witness_ParametersAreCheckedInOrder :
    State.reset.status.busy = false ∧ ¬ RleLegal 0x1#32 ∧ ¬ RleLegal 0x81#32 ∧ ¬ LzssLegal 0x200245#32 ∧ ¬ LzssLegal 0x20020B#32
    ∧ ¬ LzssLegal 0x20014B#32 ∧ ¬ LzssLegal 0x202256#32 ∧ ¬ LzpLegal 0x811#32 ∧ ¬ LzpLegal 0x010#32 ∧ ¬ LzpLegal 0x910#32
    ∧ (LzssLegal 0x20024B#32 ∧ (⟨10, 15, 0⟩ : Build).eiMax < field 0x20024B#32 3 0)
    ∧ (LzpLegal 0x810#32 ∧ (⟨10, 15, 0⟩ : Build).hashOrderMax < field 0x810#32 4 0) := by
  unfold RleLegal LzssLegal LzpLegal; decide

/-- RL at both ends. -/
theorem witness_RleCommandsStart : State.reset.status.busy = false ∧ RleLegal 0x2#32 ∧ RleLegal 0x180#32 := by
  unfold RleLegal; decide

/-- The default; and EI = 6, EJ = 5, P = 33, where F = N. -/
theorem witness_LzssCommandsStart :
    State.reset.status.busy = false ∧ (LzssLegal 0x20024B#32 ∧ field 0x20024B#32 3 0 ≤ State.reset.build.eiMax)
    ∧ LzssLegal 0x202156#32 ∧ field 0x202156#32 3 0 ≤ State.reset.build.eiMax := by unfold LzssLegal; decide

theorem witness_GammaAndMtfCommandsStart : State.reset.status.busy = false := rfl

/-- HASH_ORDER and BLOCK_LENGTH at both ends. -/
theorem witness_LzpCommandsStart :
    State.reset.status.busy = false ∧ (LzpLegal 0x810#32 ∧ field 0x810#32 4 0 ≤ State.reset.build.hashOrderMax)
    ∧ LzpLegal 0x100#32 ∧ field 0x100#32 4 0 ≤ State.reset.build.hashOrderMax := by unfold LzpLegal; decide

theorem witness_PullAnswersTakeEffect :
    ∀ a ∈ [PullAnswer.byte 0xFF#8, .endOfInput, .error],
      (mtfWaiting [.answerPull a]).seq = .waitPull .mtfByte ∧ (mtfWaiting [.answerPull a]).host.script = .answerPull a :: [] := by decide

theorem witness_PushAnswersTakeEffect :
    ∀ a ∈ [PushAnswer.ok, .full, .error],
      (hostSays (.answerPush a) (on .egDec (.waitPush .egOutFlushed 0x60#8))).seq = .waitPush .egOutFlushed 0x60#8
      ∧ (hostSays (.answerPush a) (on .egDec (.waitPush .egOutFlushed 0x60#8))).host.script = .answerPush a :: [] := by decide

theorem witness_PullAfterEndAsksNothing :
    gammaCut.eoi = false ∧ Inv endSeen ∧ endSeen.eoi = true ∧ ∃ t, step endSeen = .next t ∧ t.eoi = true :=
  ⟨rfl, endSeen_inv, rfl, _, rfl, rfl⟩

theorem witness_StrayAnswersRefused :
    (hostSays (.answerPull .endOfInput) (on .egDec (.waitPush .egOutFlushed 0x60#8))).seq = .waitPush .egOutFlushed 0x60#8
    ∧ ((hostSays (.answerPull .endOfInput) State.reset).seq = .idle
      ∧ .pull ∉ (hostSays (.answerPull .endOfInput) State.reset).host.withdrawn)
    ∧ (mtfWaiting [.answerPush .ok]).seq = .waitPull .mtfByte
    ∧ ((hostSays (.answerPush .ok) State.reset).seq = .idle ∧ .push ∉ (hostSays (.answerPush .ok) State.reset).host.withdrawn)
    ∧ (hostSays (.answerPush .ok) (on .rleEnc (.run .rleTop))).seq = .run .rleTop
    ∧ .push ∉ (hostSays (.answerPush .ok) (on .rleEnc (.run .rleTop))).host.withdrawn := by decide

/-- Input left and none left; room in the output and none left. -/
theorem witness_AdapterAnswers :
    (mtfWaiting []).host.script = [] ∧ (mtfWaiting [.adapterAnswers]).host.script = .adapterAnswers :: []
    ∧ (mtfWaiting []).seq = .waitPull .mtfByte
    ∧ ({ HostSide.empty with input := some [0x61#8] }).input = some (0x61#8 :: []) ∧ ({ HostSide.empty with input := some [] }).input = some []
    ∧ (on .egDec (.waitPush .egOutFlushed 0x60#8)).seq = .waitPush .egOutFlushed 0x60#8
    ∧ (⟨1, 0, []⟩ : OutArray).accepted < (⟨1, 0, []⟩ : OutArray).cap ∧ (⟨1, 1, []⟩ : OutArray).cap ≤ (⟨1, 1, []⟩ : OutArray).accepted := by
  decide

theorem witness_CountersFollowTheAnswers : ∃ t, step (mtfWaiting [.answerPull (.byte 0x61#8)]) = .next t := ⟨_, rfl⟩

theorem witness_OnlyTheHostReconfigures :
    ∃ t, step (mtfWaiting [.write 0x08 .word 0#32]) = .next t ∧ (mtfWaiting [.write 0x08 .word 0#32]).status.busy = true
      ∧ t.status.busy = true := ⟨_, rfl, rfl, rfl⟩

theorem witness_OperationsEndWithDone :
    ∃ t, step (mtfWaiting [.answerPull .error]) = .next t ∧ (mtfWaiting [.answerPull .error]).status.busy = true
      ∧ t.status.busy = false := ⟨_, rfl, rfl, rfl⟩

theorem witness_CorruptStreamOnlyFromTwoDecoders :
    Inv gammaCut ∧ ∃ t, step gammaCut = .next t ∧ t.status.result = .corruptStream ∧ gammaCut.status.result ≠ .corruptStream :=
  ⟨gammaCut_inv, _, rfl, rfl, by decide⟩

/-- Nothing held; seven bits in all; eight; and seven bits held. -/
theorem witness_PutBitsPacksBytes :
    Holds [] 0#8 0x80#8 ∧ (([] : List Bool) ++ bits [1, 0, 0, 0, 0, 0, 0]).length < 8 ∧ 8 ≤ (([] : List Bool) ++ bits [1, 0, 0, 0, 0, 0, 0, 0]).length
    ∧ Holds (bits [1, 0, 0, 0, 0, 0, 1]) 0x82#8 0x01#8 := by unfold Holds; decide

/-- An exhausted accumulator, a full one, and a request of exactly what is left. -/
theorem witness_GetBitsTakesFromTheMaskDown :
    (empty.imask = 0x80#8 >>> (8 - 0) ∧ 0 < 4) ∧ ({ empty with imask := 0x80#8 }).imask = 0x80#8 >>> (8 - 8) ∧ 8 ≤ 8
    ∧ ({ empty with imask := 0x08#8 }).imask = 0x80#8 >>> (8 - 4) ∧ 4 ≤ 4 := by decide

theorem witness_MatchSearchLongestLeftmost : 1 ≤ 1 := Nat.le_refl 1

/-- LZSS.ENC at its first unit, one byte buffered. -/
def lzssFirst : State := on .lzssEnc (.run .lzssMain) { empty with r := 2031, s := 0, bufferend := 2032 }

theorem witness_LzssEncoderEmitsTheUnit :
    ParamsOk .lzssEnc lzssFirst.params lzssFirst.build ∧ lzssFirst.work.r < lzssFirst.work.bufferend
    ∧ lzssFirst.work.bufferend ≤ 2 * 2 ^ lzssFirst.params.ei := ⟨defaults_ok .lzssEnc, by decide, by decide⟩

/-- The last byte of the window. -/
theorem witness_LzssWindowFills :
    let s := on .lzssEnc (.run (.lzssFill false)) { empty with rv := some 0x61#8, bufferend := 4095 }
    Ram.wf .win s.win ∧ s.work.bufferend < 2 * 2 ^ s.params.ei ∧ s.work.rv = some 0x61#8 ∧ s.eoi = false ∧ empty.rv = none := by decide

/-- One below the slide, and at it, with a written byte in the upper half. -/
theorem witness_WindowSlides :
    defaults.lookahead ≤ defaults.windowSize ∧ 4096 ≤ 2 * defaults.windowSize
    ∧ 4077 + 1 < 2 * 2 ^ defaults.ei - (2 ^ defaults.ej + (defaults.p - 1)) ∧ 2 * 2 ^ defaults.ei - (2 ^ defaults.ej + (defaults.p - 1)) ≤ 4078 + 1
    ∧ 0 < 2 ^ defaults.ei ∧ Ram.find (0 + 2 ^ defaults.ei) [(2048, 0x61#8)] ≠ none := by decide

theorem witness_LzssEncoderEnds :
    (on .lzssEnc (.run .lzssMain)).seq = .run .lzssMain
    ∧ (on .lzssEnc (.run .lzssMain)).work.bufferend ≤ (on .lzssEnc (.run .lzssMain)).work.r
    ∧ ∀ x ∈ [(Op.lzssEnc, Point.lzssFlushed), (.egEnc, .egFlushed), (.egDec, .egOutFlushed)],
      x.2 ∈ [Point.lzssFlushed, .egFlushed, .egOutFlushed] ∧ (on x.1 (.run x.2)).seq = .run x.2 := by decide

theorem witness_LzssUnitsExecute :
    (on .lzssDec (.run (.unit .lzss))).seq = .run (.unit .lzss) ∧ 2 ≤ (on .lzssDec (.run (.unit .lzss))).params.p := by decide

/-- The last write cursor; a copy step before the last, and the last. -/
theorem witness_LzssDictionaryFollowsTheOutput :
    let s := on .lzssDec (.run (.lzssCopied 0 0#8)) { empty with wr := 2047, dlen := 0 }
    Ram.wf .win s.win ∧ s.work.wr < 2 ^ s.params.ei ∧ 0 + 1 < s.work.dlen + s.params.p ∧ s.work.dlen + s.params.p ≤ 1 + 1 := by decide

/-- An empty buffer, and one byte below the full one, with a byte that differs, one that repeats, and End. -/
theorem witness_RleLiteralIsBuffered :
    ∀ j ∈ [0, 126],
      let s := fun rv prev => on .rleEnc (.run .rleTop) { empty with rv := rv, prev := prev, j := j }
      let e := sawEnd (s none (some 0x61#8))
      (s (some 0x61#8) none).seq = .run .rleTop ∧ Ram.wf .rleb (s (some 0x61#8) none).rleb
        ∧ (s (some 0x61#8) none).work.j + 2 ≤ (s (some 0x61#8) none).params.rl ∧ (s (some 0x61#8) none).work.rv = some 0x61#8
        ∧ (s (some 0x61#8) none).work.prev ≠ some 0x61#8 ∧ (s (some 0x61#8) none).eoi = false
        ∧ (s (some 0x61#8) (some 0x61#8)).work.prev = some 0x61#8
        ∧ e.seq = .run .rleTop ∧ e.work.rv = none ∧ e.eoi = true := by decide

/-- The last literal of two; every return, after End where it can be; the rest of a short run that fits and that does not. -/
theorem witness_RleBlocksArePushedInOrder :
    let s := fun p => on .rleEnc (.run p) { empty with prev := some 0x61#8, j := 2, full := true }
    1 < (s (.rleLits 1 .toRun)).work.j ∧ (s (.rleLits 1 .toRun)).work.j + 1 ≤ defaults.rl
    ∧ (∀ ret ∈ [FlushReturn.afterAppend, .toRun, .atEnd, .afterRepeat 127],
      (s (.rleLits 2 ret)).seq = .run (.rleLits (s .rleTop).work.j ret) ∧ (s (.rleLits 2 ret)).eoi = false)
    ∧ (sawEnd (s (.rleLits 2 .atEnd))).seq = .run (.rleLits (s .rleTop).work.j .atEnd)
    ∧ ((s .rleTop).work.prev = some 0x61#8 ∧ Ram.wf .rleb (s .rleTop).rleb ∧ 2 ≤ (s .rleTop).params.rl)
    ∧ 126 + 1 < defaults.rl ∧ defaults.rl ≤ 127 + 1
    ∧ ((s .rleRunCmd).seq = .run .rleRunCmd ∧ (s .rleRunCmd).work.prev = some 0x61#8)
    ∧ ((s .rleRunByte).seq = .run .rleRunByte ∧ (s .rleRunByte).work.full = true)
    ∧ (on .rleEnc (.run .rleRunByte)).work.full = false := by decide

/-- A counted byte below the full count and at it; a run of two and a run of one that a byte or End ends, with room in the
literal buffer and without. -/
theorem witness_RleRunIsCountedAndEmitted :
    let s := fun (k j : Nat) (rv : Option Byte) =>
      on .rleEnc (.run .rleCount) { empty with rv := rv, prev := some 0x61#8, k := k, j := j }
    ParamsOk .rleEnc defaults Build.default
    ∧ (∀ k ∈ [1, 128], ∀ j ∈ [0, 126], ∀ rv ∈ [some 0x61#8, some 0x62#8, none],
      (s k j rv).seq = .run .rleCount ∧ (s k j rv).eoi = false ∧ (sawEnd (s k j rv)).seq = .run .rleCount ∧ Ram.wf .rleb (s k j rv).rleb
      ∧ (s k j rv).work.j + 2 ≤ defaults.rl ∧ (s k j rv).work.prev ≠ none ∧ 1 ≤ (s k j rv).work.k
      ∧ (s k j rv).work.k < defaults.rl + defaults.rover)
    ∧ ((s 127 0 (some 0x61#8)).work.rv = (s 127 0 (some 0x61#8)).work.prev ∧ 127 + 1 < defaults.rl + defaults.rover
      ∧ 128 + 1 = defaults.rl + defaults.rover)
    ∧ ((s 2 0 none).work.rv ≠ (s 2 0 none).work.prev ∧ defaults.rover < 2)
    ∧ 1 ≤ defaults.rover ∧ (s 1 0 none).work.full = false ∧ 125 + 1 + 1 < defaults.rl ∧ defaults.rl ≤ 126 + 1 + 1 := by
  refine ⟨defaults_ok .rleEnc, ?_, by decide, by decide, by decide⟩
  intro k hk j hj rv _
  simp only [List.mem_cons, List.not_mem_nil, or_false] at hk hj
  refine ⟨rfl, rfl, rfl, wf_nil _, ?_, Option.some_ne_none _, ?_, ?_⟩
  · show j + 2 ≤ 128; omega
  · show 1 ≤ k; omega
  · show k < 128 + 1; omega

theorem witness_RleUnitsExecute :
    (on .rleDec (.run (.unit .rle))).seq = .run (.unit .rle) ∧ (on .rleDec (.run (.unit .rle))).eoi = false
    ∧ (on .rleDec (.run (.unit .rle))).params.rl < (129#8 : Byte).toNat := by decide

theorem witness_RleBlocksRunOut :
    (on .rleDec (.run (.rleLitByte 1)) { empty with rv := some 0x61#8 }).work.rv = some 0x61#8
    ∧ ((sawEnd (on .rleDec (.run (.rleLitByte 1)))).work.rv = none ∧ (sawEnd (on .rleDec (.run (.rleLitByte 1)))).eoi = true)
    ∧ (on .rleDec (.run (.rleLitDone (0 + 1)))).seq = .run (.rleLitDone (0 + 1))
    ∧ (on .rleDec (.run (.rleRunDone (0 + 1) 0#8))).seq = .run (.rleRunDone (0 + 1) 0#8)
    ∧ (on .rleDec (.run (.rleRunDone 0 0#8))).eoi = false := by decide

theorem witness_GammaEncoderWritesTheTable :
    ({ empty with rv := some 0x61#8 }).rv = some 0x61#8 ∧ ({ empty with imask := 0x08#8 }).imask = 0x08#8
    ∧ (on .egEnc (.run .egMain)).work.imask = 0x00#8 ∧ (on .egEnc (.run .egMain)).eoi = false ∧ empty.rv = none := by decide

/-- The two places a symbol is put at, and the last place in the byte. -/
theorem witness_GammaSymbolsExecute :
    (on .egDec (.run (.unit .eg))).seq = .run (.unit .eg)
    ∧ ∀ x ∈ [(0, 0x80#8), (4, 0x08#8), (7, 0x01#8)], x.1 < 8 ∧ x.2 = 0x80#8 >>> x.1 := by decide

theorem witness_GammaTerminalAndInvalidCodesExecute : (on .egDec (.run (.unit .eg))).seq = .run (.unit .eg) := rfl

/-- The first rank and the last. -/
theorem witness_PromotionMovesToFront :
    (∀ sp, Ram.wf sp (State.reset.ram sp)) ∧ 255 < 256 ∧ State.reset.peek .mtft 0 = 0#8 ∧ State.reset.peek .mtft 255 = 255#8 :=
  ⟨rams_of_empty _ ⟨rfl, rfl, rfl, rfl, rfl⟩, by decide⟩

theorem witness_MtfEncoderPushesTheRank :
    Permutation (on .mtfEnc (.run .mtfByte)) ∧ (on .mtfEnc (.run .mtfByte) { empty with rv := some 0x61#8 }).work.rv = some 0x61#8
    ∧ (Permutation (sawEnd (on .mtfEnc (.run .mtfByte))) ∧ (sawEnd (on .mtfEnc (.run .mtfByte))).seq = .run .mtfByte
      ∧ (sawEnd (on .mtfEnc (.run .mtfByte))).work.rv = none)
    ∧ (on .mtfEnc (.run (.mtfRanked 0#8))).seq = .run (.mtfRanked 0#8) ∧ (on .mtfEnc (.run (.mtfRanked 0#8))).eoi = false :=
  ⟨permutation_of_empty _ rfl, rfl, ⟨permutation_of_empty _ rfl, rfl, rfl⟩, rfl, rfl⟩

theorem witness_MtfRankExecutes :
    (on .mtfDec (.run (.unit .mtf))).seq = .run (.unit .mtf) ∧ (on .mtfDec (.run (.mtfOut 0#8))).seq = .run (.mtfOut 0#8)
    ∧ (on .mtfDec (.run (.mtfOut 0#8))).eoi = false := by decide

theorem witness_MtfDirectionsStayInStep :
    let e := on .mtfEnc (.run .mtfByte) { empty with rv := some 0x61#8 }
    let d := on .mtfDec (.run (.fetched .mtf))
    (∀ sp, Ram.wf sp (e.ram sp)) ∧ (∀ sp, Ram.wf sp (d.ram sp)) ∧ Permutation e ∧ (∀ a, a < 256 → d.peek .mtft a = e.peek .mtft a)
    ∧ e.seq = .run .mtfByte ∧ e.work.rv = some 0x61#8 ∧ e.eoi = false ∧ d.seq = .run (.fetched .mtf) ∧ d.work.unit = [] ∧ d.eoi = false :=
  ⟨rams_of_empty _ ⟨rfl, rfl, rfl, rfl, rfl⟩, rams_of_empty _ ⟨rfl, rfl, rfl, rfl, rfl⟩, permutation_of_empty _ rfl, fun _ _ => rfl, rfl, rfl, rfl,
    rfl, rfl, rfl⟩

/-- LZP.ENC with a byte to predict: `b` is a hit when it is 0, in a cleared table. -/
def lzpByteRead (b : Byte) : State := on .lzpEnc (.run .lzpByte) { empty with rv := some b }

theorem lzpByteRead_running (b : Byte) : Running .lzpByte (lzpByteRead b) :=
  Live.running (p := .lzpByte) (live_on .lzpEnc _ _ (defaults_ok .lzpEnc)) ⟨.inl rfl, empty_ok⟩
    ⟨Nat.two_pow_pos 16, Nat.le_refl 0, (by decide : 0 < 8)⟩

/-- A hit and a miss. -/
theorem witness_LzpEncoderPredicts :
    ∀ b ∈ [0#8, 0x61#8], (lzpByteRead b).seq = .run .lzpByte ∧ (lzpByteRead b).work.rv = some b ∧ (lzpByteRead b).eoi = false
      ∧ Running .lzpByte (lzpByteRead b) ∧ ∀ sp, Ram.wf sp ((lzpByteRead b).ram sp) :=
  fun b _ => ⟨rfl, rfl, rfl, lzpByteRead_running b, rams_of_empty _ ⟨rfl, rfl, rfl, rfl, rfl⟩⟩

theorem witness_LzpBlockIsEmitted :
    1 ≤ defaults.blockLength ∧ (on .lzpEnc (.run .lzpByte)).work.rv = none
    ∧ (let s := on .lzpEnc (.run (.lzpLits 7)) { empty with nlit := 8 }
      s.seq = .run (.lzpLits 7) ∧ 7 < s.work.nlit ∧ s.work.nlit ≤ s.params.blockLength)
    ∧ (on .lzpEnc (.run (.lzpLits 0))).work.nlit ≤ 0 := by decide

theorem witness_LzpBlockExecutes :
    let s := fun p rv => on .lzpDec (.run p) { empty with rv := rv }
    (∀ sp, Ram.wf sp ((s .lzpLiteral none).ram sp)) ∧ (s .lzpLiteral none).work.hash < 2 ^ defaults.hashOrder
    ∧ ((s (.unit .lzp) none).seq = .run (.unit .lzp) ∧ 1 ≤ defaults.blockLength ∧ (s (.unit .lzp) none).eoi = false)
    ∧ (s .lzpLiteral (some 0x61#8)).work.rv = some 0x61#8
    ∧ ((sawEnd (s .lzpLiteral none)).seq = .run .lzpLiteral ∧ (sawEnd (s .lzpLiteral none)).work.rv = none)
    ∧ (s (.lzpOut 0x61#8) none).seq = .run (.lzpOut 0x61#8) ∧ (s (.lzpOut 0x61#8) none).eoi = false :=
  ⟨rams_of_empty _ ⟨rfl, rfl, rfl, rfl, rfl⟩, by decide, ⟨rfl, by decide, rfl⟩, rfl, ⟨rfl, rfl⟩, rfl, rfl⟩

/-- A hit met by a set mask bit, and a miss met by the literal. -/
theorem witness_LzpDirectionsStayInStep :
    ∀ x ∈ [(0#8, 1#8), (0x61#8, 0#8)],
      let e := lzpByteRead x.1
      let d := on .lzpDec (.run .lzpLiteral) { empty with rv := some x.1, lmask := x.2 }
      (∀ sp, Ram.wf sp (e.ram sp)) ∧ (∀ sp, Ram.wf sp (d.ram sp)) ∧ Running .lzpByte e ∧ d.params.hashOrder = e.params.hashOrder
      ∧ d.work.hash = e.work.hash ∧ (∀ a, d.peek .lzpt a = e.peek .lzpt a) ∧ e.seq = .run .lzpByte ∧ e.work.rv = some x.1
      ∧ e.eoi = false ∧ d.eoi = false
      ∧ (decide (e.peek .lzpt e.work.hash = x.1) = true → d.work.bi < d.params.blockLength ∧ d.work.lmask.getLsbD d.work.bi = true)
      ∧ (decide (e.peek .lzpt e.work.hash = x.1) = false → d.seq = .run .lzpLiteral ∧ d.work.rv = some x.1) := by
  intro x hx
  refine ⟨rams_of_empty _ ⟨rfl, rfl, rfl, rfl, rfl⟩, rams_of_empty _ ⟨rfl, rfl, rfl, rfl, rfl⟩, lzpByteRead_running _, rfl, rfl, fun _ => rfl, rfl,
    rfl, rfl, rfl, ?_, fun _ => ⟨rfl, rfl⟩⟩
  simp only [List.mem_cons, List.not_mem_nil, or_false] at hx
  rcases hx with rfl | rfl <;> decide

theorem witness_DecodersMeetTheEnd :
    ∀ d ∈ [Decoder.lzss, .rle, .eg, .mtf, .lzp], (on .egDec (.run (.fetched d))).seq = .run (.fetched d) ∧ empty.rv = none := by decide

/-- A command; the last bit of a code in the accumulator; a byte whose first bit completes a code; a byte that is a rank; a byte
that is less than a unit; an empty accumulator inside a code, and a run block without its payload; a point of an encoder; a
waiting engine; an engine step. -/
theorem witness_StepRunsTheDecodedInstruction :
    (∀ p, (mtfWaiting []).seq ≠ .run p)
    ∧ (hostSays (.write State.reset.build.regBase .word 0x2#32) State.reset).host.script = .write State.reset.build.regBase .word 0x2#32 :: []
    ∧ (let s := on .egDec (.run (.fetch .eg)) { empty with ibits := 0#8, imask := 0x01#8 }
      s.host.script = [] ∧ s.seq = .run (.fetch .eg) ∧ s.work.imask ≠ 0#8
        ∧ (decode .eg s.params.wire (s.work.unit ++ [decide (s.work.ibits &&& s.work.imask ≠ 0#8)])).toOption = some (.egSymbol0, []))
    ∧ (let s := on .egDec (.run (.fetched .eg)) { empty with rv := some 0x80#8, unit := bits [1, 0] }
      (decode .eg s.params.wire (s.work.unit ++ [(0x80#8 : Byte).getLsbD 7])).toOption = some (.egSymbol2, []))
    ∧ (let s := on .mtfDec (.run (.fetched .mtf)) { empty with rv := some 0x62#8 }
      (decode .mtf s.params.wire (s.work.unit ++ bitsOf 8 (0x62#8 : Byte).toNat)).toOption = some (.mtfRank 0x62#8, []))
    ∧ (decode .rle defaults.wire (([] : List Bool) ++ bitsOf 8 (0x80#8 : Byte).toNat)).toOption = none
    ∧ (∀ x ∈ [(Op.egDec, Decoder.eg, { empty with unit := bits [1, 1] }), (.rleDec, .rle, { empty with unit := bitsOf 8 0x80 })],
      let s := on x.1 (.run (.fetch x.2.1)) { x.2.2 with imask := 0#8 }
      s.host.script = [] ∧ s.seq = .run (.fetch x.2.1) ∧ s.work.imask = 0#8 ∧ s.eoi = false)
    ∧ (on .lzssEnc (.run .lzssMain)).seq = .run .lzssMain ∧ (on .lzssEnc (.run .lzssMain)).host.script = []
    ∧ (hostSays .engineSteps (on .lzssEnc (.run .lzssMain))).host.script = .engineSteps :: [] :=
  ⟨fun _ h => (nomatch h), by decide⟩

theorem witness_UnitsBelongToTheirDecoder :
    (Instr.mtfRank 0#8).family = Decoder.mtf.family ∧ State.reset.seq ≠ .run (.unit .mtf) := by decide

/-- The largest position and length of the default widths. -/
theorem witness_EncodingsDecodeBack : (Instr.lzssReference 2047#15 15#8).wf Wire.default = true := by decide

theorem witness_DecodedBitsEncodeBack :
    Wire.default.ei ≤ 15 ∧ Wire.default.ej ≤ 8 ∧ decode .eg Wire.default (bits [1, 0, 1]) = .ok (.egSymbol2, []) := by decide

/-- The shortest reference, with all seven padding bits. -/
theorem witness_LzssPaddingIsNoUnit : 6 ≤ (⟨6, 1, 128⟩ : Wire).ei ∧ 1 ≤ (⟨6, 1, 128⟩ : Wire).ej ∧ 7 ≤ 7 := by decide

theorem witness_UsedPartsFitTheRams : Build.default.Legal ∧ ParamsOk .lzssEnc defaults Build.default :=
  ⟨by unfold Build.Legal; decide, defaults_ok .lzssEnc⟩

theorem witness_InvariantIsKept :
    Inv (mtfWaiting [.answerPull (.byte 0x61#8)]) ∧ ∃ t, step (mtfWaiting [.answerPull (.byte 0x61#8)]) = .next t :=
  ⟨mtfWaiting_inv _, _, rfl⟩

theorem witness_StepsNeverFault :
    Inv (mtfWaiting [.read 1 .word]) ∧ step (mtfWaiting [.read 1 .word]) = .refused .registerAccessShape
    ∧ Inv (mtfWaiting [.answerPush .ok]) ∧ step (mtfWaiting [.answerPush .ok]) = .refused .answerWithoutRequest :=
  ⟨mtfWaiting_inv _, rfl, mtfWaiting_inv _, rfl⟩

theorem witness_AtomicStepsComplete : Inv gammaCut ∧ gammaCut.seq = .run (.fetched .eg) := ⟨gammaCut_inv, rfl⟩

end Sys2Proof.Tests
end

/-! Register accesses: where a register stands in the window, what a read or a write of it does, and the places of the
fields in STATUS. -/

namespace Sys2Proof.Machine

/-! ## The register window -/

/-- An offset inside the window is found again from its address (20_memory R97). -/
@[simp] theorem offset_regBase_add (b : Build) (off : Nat) :
    b.offset (b.regBase + off) = if off < 32 then some off else none := by
  unfold Build.offset
  by_cases h : off < 32
  · rw [if_pos ⟨by omega, by omega⟩, if_pos h]; congr 1; omega
  · rw [if_neg (by omega), if_neg h]

/-- The offset of an address in the window leads back to the address. -/
theorem addr_of_offset {b : Build} {addr off : Nat} (h : b.offset addr = some off) : addr = b.regBase + off := by
  unfold Build.offset at h
  split at h
  · simp only [Option.some.injEq] at h; omega
  · simp at h

@[simp] theorem regAt_offset (r : Reg) : regAt r.offset = some r := by cases r <;> rfl

theorem offset_lt (r : Reg) : r.offset < 32 := by cases r <;> decide

/-- Each offset of a register is that register's own (10_state R30). -/
theorem offset_of_regAt {off : Nat} {r : Reg} (h : regAt off = some r) : off = r.offset := by
  unfold regAt at h
  split at h <;> simp only [Option.some.injEq, reduceCtorEq] at h <;> subst h <;> rfl

/-- A word read of a register records its value and does nothing else (20_memory R90). -/
theorem hostReads_register (s : State) (r : Reg) :
    hostReads (s.build.regBase + r.offset) .word s
      = .next { s with host := { s.host with reads := s.host.reads ++ [(r.offset, s.readReg r)] } } := by
  unfold hostReads
  simp [offset_lt r]

/-- A word write to a register other than CMD does what `writeReg` says (20_memory R90). -/
theorem hostWrites_register (s : State) (r : Reg) (v : Word) (hr : r ≠ .cmd) :
    hostWrites (s.build.regBase + r.offset) .word v s = .next (s.writeReg r v) := by
  unfold hostWrites
  cases r with
  | cmd => exact absurd rfl hr
  | _ => simp [regAt, Reg.offset]

/-- The state a first script action is performed in is the old one with the rest of the script. -/
theorem popped_of_script {s : State} {a : HostAction} {rest : List HostAction} (h : s.host.script = a :: rest) :
    s.popped = Claims.after rest s := by
  simp [State.popped, Claims.after, h]

/-- The step of such a read. -/
theorem step_of_read {s : State} {r : Reg} {rest : List HostAction}
    (h : s.host.script = .read (s.build.regBase + r.offset) .word :: rest) :
    step s = .next { s with host := { s.host with
      script := rest, reads := s.host.reads ++ [(r.offset, s.readReg r)] } } := by
  have hread : (Claims.after rest s).readReg r = s.readReg r := by cases r <;> rfl
  calc step s = hostReads (s.build.regBase + r.offset) .word s.popped := step_of_script h
    _ = _ := hostReads_register s.popped r
    _ = _ := by rw [popped_of_script h, hread]; rfl

/-- The step of such a write. -/
theorem step_of_register_write {s : State} {r : Reg} {v : Word} {rest : List HostAction} (hr : r ≠ .cmd)
    (h : s.host.script = .write (s.build.regBase + r.offset) .word v :: rest) :
    step s = .next ((Claims.after rest s).writeReg r v) := by
  rw [← popped_of_script h]
  exact (step_of_script h).trans (hostWrites_register s.popped r v hr)

/-! ## STATUS as a word -/

/-- The sum that STATUS is fits a word (10_state R32). -/
theorem toWord_toNat (st : Status) :
    st.toWord.toNat = st.busy.toNat + 2 * st.done.toNat + 4 * st.eoi.toNat + 16 * st.result.code.toNat
      + 256 * st.codec.toNat + 2048 * st.dir.toNat := by
  have := st.busy.toNat_le
  have := st.done.toNat_le
  have := st.eoi.toNat_le
  have := st.dir.toNat_le
  unfold Status.toWord
  rw [BitVec.toNat_ofNat]
  omega

/-- A bit of a word read off its value. -/
theorem getLsbD_eq_of_toNat {w : Word} {i : Nat} {b : Bool} (h : w.toNat / 2 ^ i % 2 = b.toNat) : w.getLsbD i = b := by
  rw [BitVec.getLsbD, Nat.testBit_eq_decide_div_mod_eq, h]
  cases b <;> rfl

/-- A field of a word read off its value. -/
theorem extractLsb'_eq_of_toNat {w : Word} {lo n : Nat} {v : BitVec n} (h : w.toNat / 2 ^ lo % 2 ^ n = v.toNat) :
    w.extractLsb' lo n = v := by
  apply BitVec.eq_of_toNat_eq
  rw [BitVec.extractLsb'_toNat, Nat.shiftRight_eq_div_pow, h]

/-- Where each field of STATUS stands in its word (10_state R32). -/
theorem toWord_fields (st : Status) :
    st.toWord.getLsbD 0 = st.busy ∧ st.toWord.getLsbD 1 = st.done ∧ st.toWord.getLsbD 2 = st.eoi
    ∧ st.toWord.getLsbD 3 = false ∧ st.toWord.extractLsb' 4 4 = st.result.code ∧ st.toWord.extractLsb' 8 3 = st.codec
    ∧ st.toWord.getLsbD 11 = st.dir ∧ st.toWord.extractLsb' 12 20 = 0#20 := by
  have := st.busy.toNat_le
  have := st.done.toNat_le
  have := st.eoi.toNat_le
  have := st.dir.toNat_le
  refine ⟨getLsbD_eq_of_toNat ?_, getLsbD_eq_of_toNat ?_, getLsbD_eq_of_toNat ?_, getLsbD_eq_of_toNat ?_,
    extractLsb'_eq_of_toNat ?_, extractLsb'_eq_of_toNat ?_, getLsbD_eq_of_toNat ?_, extractLsb'_eq_of_toNat ?_⟩
  all_goals simp only [toWord_toNat, Bool.toNat_false, BitVec.toNat_ofNat]; omega

/-- Settles O3: a read goes through the register's offset; STATUS is its fields side by side. -/
theorem hostReadsGiveTheRegister : Obligations.HostReadsGiveTheRegister := by
  unfold Obligations.HostReadsGiveTheRegister
  refine ⟨fun s r rest hb h => ?_, fun st => ?_⟩
  · rw [step_of_read h]
    obtain ⟨_, hei, hho⟩ := hb
    cases r with
    | caps =>
      have hcaps : s.readReg .caps = BitVec.ofNat 32 (s.build.eiMax + 256 * s.build.hashOrderMax) := by
        show BitVec.ofNat 32 (s.build.eiMax % 16 + 256 * (s.build.hashOrderMax % 32)) = _
        rw [Nat.mod_eq_of_lt (by omega), Nat.mod_eq_of_lt (by omega)]
      rw [hcaps]
    | _ => rfl
  · obtain ⟨hbusy, hdone, heoi, h3, hresult, hcodec, hdir, hrest⟩ := toWord_fields st
    refine ⟨hbusy, hdone, heoi, h3, ?_, hcodec, hdir, hrest⟩
    rw [hresult]
    cases st.result <;> rfl

/-- Settles O4: each configuration register stores through its mask, the others ignore the write. -/
theorem hostWritesTakeEffect : Obligations.HostWritesTakeEffect := by
  unfold Obligations.HostWritesTakeEffect
  intro s v rest
  refine ⟨step_of_register_write (r := .lzssCfg) (by decide), step_of_register_write (r := .rleCfg) (by decide),
    step_of_register_write (r := .lzpCfg) (by decide), fun off hoff => ?_⟩
  simp only [List.mem_cons, List.not_mem_nil, or_false] at hoff
  rcases hoff with rfl | rfl | rfl | rfl
  · exact step_of_register_write (r := .status) (by decide)
  · exact step_of_register_write (r := .readCount) (by decide)
  · exact step_of_register_write (r := .writeCount) (by decide)
  · exact step_of_register_write (r := .caps) (by decide)

end Sys2Proof.Machine

/-! The ten commands as one: an operation's CODEC, CMD word and first step; what a CMD write can do; and the kinds of
step the whole machine makes. -/

namespace Sys2Proof.Machine

/-! ## Commands -/

/-- The CODEC of an operation (00_scope R2). -/
def Op.codec : Op → Codec
  | .rleEnc | .rleDec => .rle
  | .lzssEnc | .lzssDec => .lzss
  | .egEnc | .egDec => .eliasGamma
  | .mtfEnc | .mtfDec => .mtf
  | .lzpEnc | .lzpDec => .lzp

/-- The command that starts an operation (30_encoding R121). -/
def Op.command : Op → Instr
  | .rleEnc => .rleEnc
  | .rleDec => .rleDec
  | .lzssEnc => .lzssEnc
  | .lzssDec => .lzssDec
  | .egEnc => .egEnc
  | .egDec => .egDec
  | .mtfEnc => .mtfEnc
  | .mtfDec => .mtfDec
  | .lzpEnc => .lzpEnc
  | .lzpDec => .lzpDec

/-- An operation's first step (40_stream_bitpacker R164). -/
def Op.start : Op → State → Out
  | .rleEnc => rleEncStart
  | .rleDec => rleDecStart
  | .lzssEnc => lzssEncStart
  | .lzssDec => lzssDecStart
  | .egEnc => egEncStart
  | .egDec => egDecStart
  | .mtfEnc => mtfEncStart
  | .mtfDec => mtfDecStart
  | .lzpEnc => lzpEncStart
  | .lzpDec => lzpDecStart

/-- An operation's state after acceptance and latching, before its first step (40_stream_bitpacker R160, R161). -/
def State.launched (op : Op) (s : State) : State := latch op.codec (s.accept (commandWord op.command))

theorem exec_op_command (op : Op) (s : State) :
    exec op.command s = runCommand (commandWord op.command) op.codec op.start s := by
  cases op <;> rfl

/-- The CMD word of an operation names its CODEC and direction (30_encoding R121). -/
theorem commandWord_op (op : Op) :
    commandCodec (commandWord op.command) = op.codecField ∧ commandDir (commandWord op.command) = op.dirField := by
  cases op <;> decide

/-- Every instruction of the command grammar starts an operation or is a reserved word (30_encoding R121, R122). -/
theorem exec_command_cases {i : Instr} (hi : i.family = .command) :
    (∃ op : Op, i = op.command) ∨ ∃ w, ∀ s, exec i s = refuseCommand w s := by
  cases i with
  | rleEnc => exact .inl ⟨.rleEnc, rfl⟩
  | rleDec => exact .inl ⟨.rleDec, rfl⟩
  | lzssEnc => exact .inl ⟨.lzssEnc, rfl⟩
  | lzssDec => exact .inl ⟨.lzssDec, rfl⟩
  | egEnc => exact .inl ⟨.egEnc, rfl⟩
  | egDec => exact .inl ⟨.egDec, rfl⟩
  | mtfEnc => exact .inl ⟨.mtfEnc, rfl⟩
  | mtfDec => exact .inl ⟨.mtfDec, rfl⟩
  | lzpEnc => exact .inl ⟨.lzpEnc, rfl⟩
  | lzpDec => exact .inl ⟨.lzpDec, rfl⟩
  | reservedCodec5 dir => exact .inr ⟨commandFields 0#28 dir 5#3, fun _ => rfl⟩
  | reservedCodec6 dir => exact .inr ⟨commandFields 0#28 dir 6#3, fun _ => rfl⟩
  | reservedCodec7 dir => exact .inr ⟨commandFields 0#28 dir 7#3, fun _ => rfl⟩
  | reservedHighbits high dir codec => exact .inr ⟨commandFields high dir codec, fun _ => rfl⟩
  | _ => simp [Instr.family] at hi

/-- Every CMD word decodes into the command grammar (30_encoding R121, R122). -/
theorem decodeCommand_family (v : Word) : (decodeCommand v).family = .command := by
  unfold decodeCommand
  split
  · rfl
  · split <;> rfl

/-- What a CMD write does: nothing while BUSY; else it is turned away at once with an error, or its operation makes its
first step (40_stream_bitpacker R160 to R164; 70_reset R410). -/
inductive CommandOutcome (s : State) : State → Prop
  | ignored : s.status.busy = true → CommandOutcome s s
  | turnedAway (w : Word) (e : Result) : s.status.busy = false → CommandOutcome s ((s.accept w).raise e)
  | started (op : Op) {t : State} : s.status.busy = false → legal op.codec s = true → fits op.codec s = true →
      op.start (s.launched op) = .next t → CommandOutcome s t

/-- Every command and reserved word has one of these outcomes. -/
theorem exec_command_outcome {i : Instr} (hi : i.family = .command) (s : State) :
    Out.ensures (exec i s) (CommandOutcome s) := by
  obtain ⟨op, rfl⟩ | ⟨w, hw⟩ := exec_command_cases hi
  · rw [exec_op_command]
    unfold runCommand
    cases hb : s.status.busy
    · cases hl : legal op.codec s
      · exact ensures_next (.turnedAway _ _ hb)
      · cases hf : fits op.codec s
        · exact ensures_next (.turnedAway _ _ hb)
        · exact fun t ht => .started op hb hl hf ht
    · exact ensures_next (.ignored hb)
  · rw [hw]
    unfold refuseCommand
    cases hb : s.status.busy
    · exact ensures_next (.turnedAway w _ hb)
    · exact ensures_next (.ignored hb)

/-- An operation's first step is framed like any engine step. -/
theorem ensures_start (op : Op) (s : State) : (op.start s).ensures (EngineFrame s) := by
  cases op with
  | rleEnc => exact ensures_next ((inside_work s _).trans (inside_pull _ _)).frame
  | rleDec => exact ensures_next (inside_firstPull s _).frame
  | lzssEnc =>
    exact ensures_next (((inside_fillWindow s).trans (inside_work _ _)).trans (inside_lzssFillHead _ _)).frame
  | lzssDec =>
    exact ensures_next (((inside_fillWindow s).trans (inside_work _ _)).trans (inside_firstPull _ _)).frame
  | egEnc => exact ensures_egRead 4 0 s
  | egDec => exact ensures_next (inside_firstPull s _).frame
  | mtfEnc => exact ensures_next ((inside_identityTable s).trans (inside_pull _ _)).frame
  | mtfDec => exact ensures_next ((inside_identityTable s).trans (inside_firstPull _ _)).frame
  | lzpEnc => exact ensures_next ((inside_clearPredictor s).then_frame (frame_lzpNewBlock _))
  | lzpDec => exact ensures_next ((inside_clearPredictor s).trans (inside_firstPull _ _)).frame

/-! ## The kinds of step -/

/-- THE KINDS OF STEP of the whole machine (20_memory R92): the host's side alone moves, the engine makes its atomic step, a
port is answered, the host writes CMD or another register, or it resets. `h` is the host's side by then, with the bytes
delivered so far unchanged. -/
inductive Move (s : State) : State → Prop
  | hostOnly (h : HostSide) : h.delivered = s.host.delivered → Move s { s with host := h }
  | engine (h : HostSide) {t : State} : h.delivered = s.host.delivered → engineStep { s with host := h } = .next t → Move s t
  | pullAnswered (h : HostSide) (p : Point) (a : PullAnswer) : h.delivered = s.host.delivered → s.seq = .waitPull p →
      Move s (({ s with host := h } : State).pullAnswered p a)
  | pushAnswered (h : HostSide) (p : Point) (v : Byte) (a : PushAnswer) : h.delivered = s.host.delivered →
      s.seq = .waitPush p v → Move s (({ s with host := h } : State).pushAnswered p v a)
  | command (v : Word) (rest : List HostAction) {t : State} : s.host.script = .write s.build.regBase .word v :: rest →
      CommandOutcome s.popped t → Move s t
  | register (r : Reg) (v : Word) (rest : List HostAction) :
      s.host.script = .write (s.build.regBase + r.offset) .word v :: rest → Move s (s.popped.writeReg r v)
  | reset (rest : List HostAction) : s.host.script = .hardwareReset :: rest → Move s s.popped.hardwareReset

theorem adapterStep_move {s : State} {h : HostSide} (hd : h.delivered = s.host.delivered) :
    Move s (adapterStep { s with host := h }) := by
  unfold adapterStep
  split
  · rename_i p hq
    split
    · rename_i bytes _
      cases bytes with
      | nil => exact .pullAnswered h p .endOfInput hd hq
      | cons b rest => exact .pullAnswered { h with input := some rest } p (.byte b) hd hq
    · exact .hostOnly h hd
  · rename_i p v hq
    split
    · rename_i out _
      unfold adapterPush
      split
      · exact .pushAnswered { h with output := some _ } p v .ok hd hq
      · exact .pushAnswered h p v .full hd hq
    · exact .hostOnly h hd
  · exact .hostOnly h hd
  · exact .hostOnly h hd

theorem idleStep_move (s : State) : (idleStep s).ensures (Move s) := by
  unfold idleStep
  split
  · exact fun t ht => .engine s.host rfl ht
  · exact ensures_next (.hostOnly s.host rfl)
  · exact ensures_next (adapterStep_move rfl)
  · exact ensures_next (adapterStep_move rfl)

/-- An action that comes after a request is performed, or the engine moves first. -/
theorem afterRequest_move {late : Bool} {act : State → Out} {s : State} (h : (act s.popped).ensures (Move s)) :
    (afterRequest late act s).ensures (Move s) := by
  unfold afterRequest
  split
  · split
    · exact h
    · exact fun t ht => .engine s.host rfl ht
  · exact h
  · exact h
  · exact h

theorem unrequestedAnswer_move (k : PortKind) (s : State) : (unrequestedAnswer k s.popped).ensures (Move s) := by
  obtain ⟨_, h⟩ | ⟨_, h⟩ := unrequestedAnswer_cases k s.popped <;> rw [h]
  · exact ensures_next (.hostOnly _ rfl)
  · exact ensures_refused

theorem hostAnswersPull_move (a : PullAnswer) (s : State) : (hostAnswersPull a s.popped).ensures (Move s) := by
  unfold hostAnswersPull
  split
  · rename_i p hq
    exact ensures_next (.pullAnswered _ p a rfl hq)
  · exact unrequestedAnswer_move _ s
  · exact unrequestedAnswer_move _ s
  · exact unrequestedAnswer_move _ s

theorem hostAnswersPush_move (a : PushAnswer) (s : State) : (hostAnswersPush a s.popped).ensures (Move s) := by
  unfold hostAnswersPush
  split
  · rename_i p v hq
    exact ensures_next (.pushAnswered _ p v a rfl hq)
  · exact unrequestedAnswer_move _ s
  · exact unrequestedAnswer_move _ s
  · exact unrequestedAnswer_move _ s

theorem hostReads_move (addr : Nat) (width : AccessWidth) (s : State) : (hostReads addr width s.popped).ensures (Move s) := by
  unfold hostReads
  split
  · exact ensures_next (.hostOnly _ rfl)
  · split
    · exact ensures_next (.hostOnly _ rfl)
    · exact ensures_refused

theorem hostWrites_move {addr : Nat} {width : AccessWidth} {v : Word} {rest : List HostAction} {s : State}
    (h : s.host.script = .write addr width v :: rest) : (hostWrites addr width v s.popped).ensures (Move s) := by
  unfold hostWrites
  split
  · exact ensures_next (.hostOnly _ rfl)
  · rename_i off hoff
    have haddr : addr = s.build.regBase + off := addr_of_offset hoff
    split
    · rename_i hr
      have hoff0 : off = 0 := offset_of_regAt hr
      subst haddr hoff0
      exact ensures_mono (exec_command_outcome (decodeCommand_family v) _) fun t ht => .command v rest h ht
    · rename_i r _ hr
      have hoffr : off = r.offset := offset_of_regAt hr
      subst haddr hoffr
      exact ensures_next (.register r v rest h)
    · exact ensures_refused

theorem perform_move {a : HostAction} {rest : List HostAction} {s : State} (h : s.host.script = a :: rest) :
    (perform a s).ensures (Move s) := by
  cases a with
  | write addr width v => exact hostWrites_move h
  | read addr width => exact hostReads_move addr width s
  | answerPull ans => exact afterRequest_move (hostAnswersPull_move ans s)
  | answerPush ans => exact afterRequest_move (hostAnswersPush_move ans s)
  | adapterAnswers =>
    have hm : Move s (adapterStep s.popped) := adapterStep_move (h := s.popped.host) rfl
    exact afterRequest_move (act := fun s => .next (adapterStep s)) (ensures_next hm)
  | engineSteps => exact fun t ht => .engine s.popped.host rfl ht
  | waitDone =>
    unfold perform
    dsimp only
    split
    · exact hostReads_move _ _ s
    · exact idleStep_move s
  | connectInput bytes => exact ensures_next (.hostOnly _ rfl)
  | connectOutput cap => exact ensures_next (.hostOnly _ rfl)
  | connectEncoded => exact ensures_next (.hostOnly _ rfl)
  | compareOutput bytes => exact ensures_next (.hostOnly _ rfl)
  | hardwareReset => exact ensures_next (.reset rest h)

/-- EVERY STEP IS OF ONE OF THESE KINDS. -/
theorem step_move {s t : State} (h : step s = .next t) : Move s t := by
  cases hs : s.host.script with
  | nil =>
    have hi : step s = idleStep s := by
      show machineStep s = _
      unfold machineStep
      rw [hs]
    exact idleStep_move s t (hi ▸ h)
  | cons a rest => exact perform_move hs t (step_of_script hs ▸ h)

end Sys2Proof.Machine

/-! The invariant: after reset, at the end of an operation, at a command's start, after a port's answer, and so after every step. -/

namespace Sys2Proof.Machine

/-! ## At rest -/

/-- The invariant of an idle state asks nothing of the working registers. -/
theorem inv_idle {s : State} (hb : s.build.Legal) (hr : ∀ sp, Ram.wf sp (s.ram sp)) (hlzss : s.lzssCfg &&& ~~~lzssCfgMask = 0#32)
    (hrle : s.rleCfg &&& ~~~rleCfgMask = 0#32) (hlzp : s.lzpCfg &&& ~~~lzpCfgMask = 0#32) (hbusy : s.status.busy = false)
    (hq : s.seq = .idle) : Inv s where
  build := hb
  rams := hr
  lzssCfg := hlzss
  rleCfg := hrle
  lzpCfg := hlzp
  busy := by simp [hbusy, hq]
  busyNotDone := by simp [hbusy]
  noPullAfterEnd := by simp [hq]
  running := by simp [hq, Seq.point]

/-- The invariant holds after reset of any legal build, whatever the host's side (70_reset R400). -/
theorem inv_reset {b : Build} (hb : b.Legal) (epoch : Nat) (host : HostSide) :
    Inv { State.reset with build := b, epoch := epoch, host := host } := by
  have hlzss : State.reset.lzssCfg &&& ~~~lzssCfgMask = 0#32 := by decide
  have hrle : State.reset.rleCfg &&& ~~~rleCfgMask = 0#32 := by decide
  have hlzp : State.reset.lzpCfg &&& ~~~lzpCfgMask = 0#32 := by decide
  exact inv_idle hb (fun sp => by cases sp <;> exact wf_nil _) hlzss hrle hlzp rfl rfl

/-- The invariant holds when a command is turned away. -/
theorem inv_turnedAway {s : State} (h : Inv s) (w : Word) (e : Result) : Inv ((s.accept w).raise e) :=
  inv_idle h.build (fun sp => by have := h.rams sp; cases sp <;> exact this) h.lzssCfg h.rleCfg h.lzpCfg rfl rfl

/-- Settles O57: the case of the default build, before any reset has happened. -/
theorem invariantAtReset : Obligations.InvariantAtReset :=
  inv_reset (b := Build.default) (by unfold Build.Legal; decide) 0 HostSide.empty

/-! ## What the host may change at any time -/

/-- The host's side and the stored configuration do not enter into what runs (10_state R41). -/
theorem inv_reconfigured {s : State} (h : Inv s) {lzss rle lzp : Word} (host : HostSide)
    (hlzss : lzss &&& ~~~lzssCfgMask = 0#32) (hrle : rle &&& ~~~rleCfgMask = 0#32) (hlzp : lzp &&& ~~~lzpCfgMask = 0#32) :
    Inv { s with lzssCfg := lzss, rleCfg := rle, lzpCfg := lzp, host := host } where
  build := h.build
  rams := fun sp => by have := h.rams sp; cases sp <;> exact this
  lzssCfg := hlzss
  rleCfg := hrle
  lzpCfg := hlzp
  busy := h.busy
  busyNotDone := h.busyNotDone
  noPullAfterEnd := h.noPullAfterEnd
  running := fun p hp => by
    obtain ⟨hparams, hcodec, hdir, hsc, hsd, hend, hacc, hwork⟩ := h.running p hp
    exact ⟨hparams, hcodec, hdir, hsc, hsd, hend, hacc,
      workOk_congr (fun sp => by cases sp <;> rfl) rfl rfl s.work.rv rfl hwork⟩

theorem inv_host {s : State} (h : Inv s) (host : HostSide) : Inv { s with host := host } :=
  inv_reconfigured h host h.lzssCfg h.rleCfg h.lzpCfg

/-- A stored configuration has no reserved bit (10_state R33 to R35). -/
theorem and_mask_reserved (v m : Word) : v &&& m &&& ~~~m = 0#32 := by
  rw [BitVec.and_assoc, BitVec.and_not_self]
  exact BitVec.and_zero

theorem inv_writeReg {s : State} (h : Inv s) (r : Reg) (v : Word) : Inv (s.writeReg r v) := by
  cases r with
  | lzssCfg => exact inv_reconfigured h s.host (and_mask_reserved v _) h.rleCfg h.lzpCfg
  | rleCfg => exact inv_reconfigured h s.host h.lzssCfg (and_mask_reserved v _) h.lzpCfg
  | lzpCfg => exact inv_reconfigured h s.host h.lzssCfg h.rleCfg (and_mask_reserved v _)
  | cmd | status | readCount | writeCount | caps => exact h

/-! ## The engine -/

theorem Reach.ensures_inv {n : Nat} {o : Out} (h : Reach n o) : o.ensures Inv := by
  obtain ⟨t, rfl, hinv, _⟩ := h
  exact ensures_next hinv

theorem settle_inv (fuel : Nat) {s : State} (h : Inv s) : (settle fuel s).ensures Inv := by
  induction fuel generalizing s with
  | zero => exact ensures_next h
  | succ fuel ih =>
    unfold settle
    split
    · rename_i p hq
      exact ensures_andThen (reach_advance h hq).ensures_inv fun _ ht => ih ht
    · exact ensures_next h
    · exact ensures_next h
    · exact ensures_next h

/-! ## A port's answer -/

/-- Counters, the last pull's result, the host's side and the control state are no part of `Live`. -/
theorem Live.answered {op : Op} {s : State} (h : Live op s) (rc wc : Word) (rv : Option Byte) (host : HostSide) (q : Seq) :
    Live op { s with readCount := rc, writeCount := wc, work := { s.work with rv := rv }, host := host, seq := q } :=
  { h with rams := fun sp => by have := h.rams sp; cases sp <;> exact this }

/-- End is noted in STATUS and in the latch together (20_memory R86). -/
theorem Live.sawEnd {op : Op} {s : State} (h : Live op s) : Live op { s with eoi := true, status := s.status.sawEnd } :=
  { h with rams := fun sp => by have := h.rams sp; cases sp <;> exact this
           endSeen := rfl }

/-- An answered request goes on at the point where it waited. -/
theorem inv_resumed {p : Point} {s t : State} (h : Inv s) (hp : s.seq.point = some p) (ht : Live p.op t) (hq : t.seq = .run p)
    (hr : ∀ sp, t.ram sp = s.ram sp) (he : t.epoch = s.epoch) (hparams : t.params = s.params) (rv : Option Byte)
    (hw : t.work = { s.work with rv := rv }) : Inv t := by
  have hrun := h.running p hp
  refine inv_run ht (by rw [hq]; rfl) (by simp [hq]) ?_ (workOk_congr hr he hparams rv hw hrun.work)
  rw [hw]
  exact acc_rv rv hrun.accumulators

theorem inv_pullAnswered {p : Point} {s : State} (h : Inv s) (hq : s.seq = .waitPull p) (a : PullAnswer) :
    Inv (s.pullAnswered p a) := by
  have hp : s.seq.point = some p := by rw [hq]; rfl
  have hl := inv_live h hp
  cases a with
  | byte v =>
    exact inv_resumed h hp (hl.answered _ _ (some v) _ _) rfl (fun sp => by cases sp <;> rfl) rfl rfl (some v) rfl
  | endOfInput =>
    exact inv_resumed h hp (hl.sawEnd.answered _ _ none _ _) rfl (fun sp => by cases sp <;> rfl) rfl rfl none rfl
  | error => exact inv_end hl _

theorem inv_pushAnswered {p : Point} {v : Byte} {s : State} (h : Inv s) (hq : s.seq = .waitPush p v) (a : PushAnswer) :
    Inv (s.pushAnswered p v a) := by
  have hp : s.seq.point = some p := by rw [hq]; rfl
  have hl := inv_live h hp
  cases a with
  | ok =>
    exact inv_resumed h hp (hl.answered _ _ s.work.rv _ _) rfl (fun sp => by cases sp <;> rfl) rfl rfl s.work.rv rfl
  | full => exact inv_end hl _
  | error => exact inv_end hl _

/-! ## A command's start -/

/-- The checks of an accepted command are the bounds of the latched parameters (40_stream_bitpacker R162, R163). -/
theorem paramsOk_latch {op : Op} {s : State} (hl : legal op.codec s = true) (hf : fits op.codec s = true) :
    ParamsOk op (latch op.codec s).params s.build := by
  have hp : lzssP s.lzssCfg < 256 := (s.lzssCfg.extractLsb' 8 8).isLt
  have hrover : rleRover s.rleCfg < 256 := (s.rleCfg.extractLsb' 8 8).isLt
  cases op with
  | rleEnc | rleDec =>
    simp [legal, Op.codec] at hl
    simp [ParamsOk, latch, Op.codec]
    omega
  | lzssEnc | lzssDec =>
    simp [legal, fits, Op.codec] at hl hf
    simp [ParamsOk, latch, Op.codec, Params.lookahead, Params.windowSize]
    omega
  | lzpEnc | lzpDec =>
    simp [legal, fits, Op.codec] at hl hf
    simp [ParamsOk, latch, Op.codec]
    omega
  | egEnc | egDec | mtfEnc | mtfDec => trivial

/-- Acceptance writes no configuration register. -/
@[simp] theorem legal_accept (c : Codec) (w : Word) (s : State) : legal c (s.accept w) = legal c s := by
  cases c <;> rfl

@[simp] theorem fits_accept (c : Codec) (w : Word) (s : State) : fits c (s.accept w) = fits c s := by
  cases c <;> rfl

/-- An accepted command that passes its checks runs. -/
theorem live_launched {op : Op} {s : State} (h : Inv s) (hl : legal op.codec s = true) (hf : fits op.codec s = true) :
    Live op (s.launched op) := by
  obtain ⟨hcodec, hdir⟩ := commandWord_op op
  have hparams := paramsOk_latch (op := op) (s := s.accept (commandWord op.command)) (by simpa using hl) (by simpa using hf)
  unfold State.launched
  constructor
  case params => simpa using hparams
  case rams =>
    intro sp
    have := h.rams sp
    cases sp <;> simpa using this
  case codec => simpa using hcodec
  case dir => simpa using hdir
  all_goals simp [h.build, h.lzssCfg, h.rleCfg, h.lzpCfg]

/-- Acceptance empties both accumulators (40_stream_bitpacker R160). -/
theorem acc_launched (op : Op) (s : State) : AccPlain (s.launched op).work := by
  have hw : (s.launched op).work = (s.accept (commandWord op.command)).work := by simp [State.launched]
  rw [hw]
  exact acc_emptyOut (w := { s.work with ibits := 0x00#8, imask := 0x00#8 }) (.inl rfl)

/-- The identity table is a permutation (44_mtf R320). -/
theorem permutation_identityTable (s : State) : Permutation s.identityTable := fun b =>
  ⟨b.toNat, b.isLt, by simp [peek_mtft, Ram.find]⟩

/-- The filled dictionary is written up to the place where the fill goes on (41_lzss R201). -/
theorem windowWritten_fill (s : State) : WindowWritten { s.fillWindow with
    work := { s.fillWindow.work with bufferend := s.params.windowSize - s.params.lookahead } } := by
  intro a ha
  have ha' : a < s.params.windowSize - s.params.lookahead := ha
  show Ram.find a (Ram.filled s.params.fill (s.params.windowSize - s.params.lookahead) 0) ≠ none
  rw [find_filled, if_pos ⟨by omega, by omega⟩]
  simp

theorem Live.fillWindow {op : Op} {s : State} (h : Live op s) : Live op s.fillWindow :=
  h.inside (inside_fillWindow s) fun sp => by
    have := h.rams sp
    cases sp with
    | win => exact wf_filled _ _ _
    | _ => exact this

theorem Live.identityTable {op : Op} {s : State} (h : Live op s) : Live op s.identityTable :=
  h.inside (inside_identityTable s) fun sp => by
    have := h.rams sp
    cases sp with
    | mtft => exact wf_nil _
    | _ => exact this

theorem Live.clearPredictor {op : Op} {s : State} (h : Live op s) : Live op s.clearPredictor :=
  h.inside (inside_clearPredictor s) fun sp => by
    have := h.rams sp
    cases sp with
    | lzpt => exact wf_nil _
    | _ => exact this

/-- A window has room for a byte (00_scope R6). -/
theorem windowSize_pos (q : Params) : 0 < q.windowSize := Nat.two_pow_pos q.ei

theorem reach_lzssEncStart {n : Nat} {s : State} (h : Live .lzssEnc s) (acc : AccPlain s.work) (hn : 3 < n) :
    Reach n (lzssEncStart s) := by
  have hN := windowSize_pos s.params
  have hlt : s.params.windowSize - s.params.lookahead < 2 * s.params.windowSize := by omega
  unfold lzssEncStart lzssFillHead
  dsimp only
  rw [if_pos (by exact hlt)]
  exact reach_pull (p := .lzssFill false) (h.fillWindow.work _) acc ⟨windowWritten_fill s, le_refl _, hlt⟩
    (by simp [mu]; omega)

theorem reach_lzssDecStart {n : Nat} {s : State} (h : Live .lzssDec s) (acc : AccPlain s.work) (hn : 1 < n) :
    Reach n (lzssDecStart s) := by
  have hN := windowSize_pos s.params
  have hF := (lzss_params' h).fpos
  refine reach_firstPull (d := .lzss) (h.fillWindow.work _) acc ?_ hn
  show s.params.windowSize - s.params.lookahead < s.params.windowSize
  omega

/-- EVERY OPERATION'S FIRST STEP completes and establishes the invariant. -/
theorem reach_start {op : Op} {s : State} (h : Live op s) (acc : AccPlain s.work) : Reach 12 (op.start s) := by
  have hz : 0 < 2 ^ s.params.hashOrder := Nat.two_pow_pos _
  cases op with
  | rleEnc =>
    exact reach_pull (p := .rleTop) (h.work _) acc ⟨by have := rle_params h; simp; omega, fun _ => rfl⟩ (by simp [mu])
  | rleDec => exact reach_firstPull (d := .rle) h acc trivial (by omega)
  | lzssEnc => exact reach_lzssEncStart h acc (by omega)
  | lzssDec => exact reach_lzssDecStart h acc (by omega)
  | egEnc =>
    have := bitsLeft_le s.work.imask
    exact reach_egRead h acc (by omega) (by omega) (by simp; omega)
  | egDec => exact reach_firstPull (d := .eg) h acc trivial (by omega)
  | mtfEnc => exact reach_pull (p := .mtfByte) h.identityTable acc (permutation_identityTable s) (by simp [mu])
  | mtfDec => exact reach_firstPull (d := .mtf) h.identityTable acc (permutation_identityTable s) (by omega)
  | lzpEnc => exact reach_lzpNewBlock h.clearPredictor acc hz (by omega)
  | lzpDec => exact reach_firstPull (d := .lzp) h.clearPredictor acc hz (by omega)

theorem inv_commandOutcome {s t : State} (h : Inv s) (ho : CommandOutcome s t) : Inv t := by
  cases ho with
  | ignored hb => exact h
  | turnedAway w e hb => exact inv_turnedAway h w e
  | started op hb hl hf hs => exact (reach_start (live_launched h hl hf) (acc_launched op s)).ensures_inv t hs

/-- Settles O58: every kind of step keeps the invariant. -/
theorem invariantIsKept : Obligations.InvariantIsKept := by
  unfold Obligations.InvariantIsKept
  intro s t h hst
  cases step_move hst with
  | hostOnly host hd => exact inv_host h host
  | engine host hd he => exact settle_inv _ (inv_host h host) t he
  | pullAnswered host p a hd hq => exact inv_pullAnswered (inv_host h host) hq a
  | pushAnswered host p v a hd hq => exact inv_pushAnswered (inv_host h host) hq a
  | command v rest hs ho => exact inv_commandOutcome (inv_host h _) ho
  | register r v rest hs => exact inv_writeReg (inv_host h _) r v
  | reset rest hs => exact inv_reset h.build _ _

end Sys2Proof.Machine

/-! What each kind of step leaves alone: the configuration, the running operation, the counters and the output. -/

namespace Sys2Proof.Machine

/-- Build and configuration registers are the same. -/
structure ConfigKept (s t : State) : Prop where
  build : t.build = s.build
  lzssCfg : t.lzssCfg = s.lzssCfg
  rleCfg : t.rleCfg = s.rleCfg
  lzpCfg : t.lzpCfg = s.lzpCfg

/-- Which operation runs, and with which parameters, is the same (10_state R41). -/
structure OperationKept (s t : State) : Prop where
  params : t.params = s.params
  opCodec : t.opCodec = s.opCodec
  opDir : t.opDir = s.opDir
  codec : t.status.codec = s.status.codec
  dir : t.status.dir = s.status.dir

/-- Both counters and the delivered bytes are the same (10_state R36; 20_memory R83). -/
structure CountsKept (s t : State) : Prop where
  readCount : t.readCount = s.readCount
  writeCount : t.writeCount = s.writeCount
  delivered : t.host.delivered = s.host.delivered

/-- The host's side is no part of the configuration. -/
theorem ConfigKept.of_host {s t : State} {host : HostSide} (h : ConfigKept { s with host := host } t) : ConfigKept s t :=
  ⟨h.build, h.lzssCfg, h.rleCfg, h.lzpCfg⟩

/-- The host's side is no part of the operation. -/
theorem OperationKept.of_host {s t : State} {host : HostSide} (h : OperationKept { s with host := host } t) :
    OperationKept s t :=
  ⟨h.params, h.opCodec, h.opDir, h.codec, h.dir⟩

theorem EngineFrame.configKept {s t : State} (h : EngineFrame s t) : ConfigKept s t :=
  ⟨h.build, h.lzssCfg, h.rleCfg, h.lzpCfg⟩

theorem EngineFrame.operationKept {s t : State} (h : EngineFrame s t) : OperationKept s t := by
  obtain hst | ⟨_, res, hst⟩ := h.status
  · exact ⟨h.params, h.opCodec, h.opDir, by rw [hst], by rw [hst]⟩
  · exact ⟨h.params, h.opCodec, h.opDir, by simp [hst], by simp [hst]⟩

theorem pullAnswered_configKept (s : State) (p : Point) (a : PullAnswer) : ConfigKept s (s.pullAnswered p a) := by
  cases a <;> exact ⟨rfl, rfl, rfl, rfl⟩

theorem pushAnswered_configKept (s : State) (p : Point) (v : Byte) (a : PushAnswer) :
    ConfigKept s (s.pushAnswered p v a) := by
  cases a <;> exact ⟨rfl, rfl, rfl, rfl⟩

theorem pullAnswered_operationKept (s : State) (p : Point) (a : PullAnswer) : OperationKept s (s.pullAnswered p a) := by
  cases a <;> exact ⟨rfl, rfl, rfl, rfl, rfl⟩

theorem pushAnswered_operationKept (s : State) (p : Point) (v : Byte) (a : PushAnswer) :
    OperationKept s (s.pushAnswered p v a) := by
  cases a <;> exact ⟨rfl, rfl, rfl, rfl, rfl⟩

/-- Acceptance and latching write no configuration register and not the host's side. -/
theorem launched_frame (op : Op) (s : State) :
    ConfigKept s (s.launched op) ∧ (s.launched op).host = s.host ∧ (s.launched op).readCount = 0#32
    ∧ (s.launched op).writeCount = 0#32 := by
  unfold State.launched
  exact ⟨⟨by simp, by simp, by simp, by simp⟩, by simp, by simp, by simp⟩

/-- A CMD write stores to no configuration register (40_stream_bitpacker R160). -/
theorem CommandOutcome.configKept {s t : State} (h : CommandOutcome s t) : ConfigKept s t := by
  cases h with
  | ignored hb => exact ⟨rfl, rfl, rfl, rfl⟩
  | turnedAway w e hb => exact ⟨rfl, rfl, rfl, rfl⟩
  | started op hb hl hf hs =>
    have hf := ensures_start op _ t hs
    obtain ⟨hc, _⟩ := launched_frame op s
    exact ⟨hf.build.trans hc.build, hf.lzssCfg.trans hc.lzssCfg, hf.rleCfg.trans hc.rleCfg, hf.lzpCfg.trans hc.lzpCfg⟩

/-- A CMD write while BUSY changes nothing (70_reset R410). -/
theorem CommandOutcome.eq_of_busy {s t : State} (h : CommandOutcome s t) (hb : s.status.busy = true) : t = s := by
  cases h with
  | ignored _ => rfl
  | turnedAway w e hn => simp [hb] at hn
  | started op hn hl hf hs => simp [hb] at hn

/-- A CMD write while not BUSY clears both counters (40_stream_bitpacker R160). -/
theorem CommandOutcome.cleared {s t : State} (h : CommandOutcome s t) (hb : s.status.busy = false) :
    t.readCount = 0#32 ∧ t.writeCount = 0#32 ∧ t.host = s.host := by
  cases h with
  | ignored hn => simp [hb] at hn
  | turnedAway w e _ => exact ⟨rfl, rfl, rfl⟩
  | started op _ hl hf hs =>
    have hf := ensures_start op _ t hs
    obtain ⟨_, hhost, hrc, hwc⟩ := launched_frame op s
    exact ⟨hf.readCount.trans hrc, hf.writeCount.trans hwc, hf.host.trans hhost⟩

/-- No step but the host's register write or a reset changes build or configuration. -/
theorem Move.config {s t : State} (h : Move s t) :
    ConfigKept s t
    ∨ (∃ r v rest, s.host.script = .write (s.build.regBase + Reg.offset r) .word v :: rest ∧ t = s.popped.writeReg r v)
    ∨ ∃ rest, s.host.script = .hardwareReset :: rest ∧ t = s.popped.hardwareReset := by
  cases h with
  | hostOnly host hd => exact .inl ⟨rfl, rfl, rfl, rfl⟩
  | engine host hd he => exact .inl (ensures_engineStep _ t he).configKept.of_host
  | pullAnswered host p a hd hq => exact .inl (pullAnswered_configKept _ p a).of_host
  | pushAnswered host p v a hd hq => exact .inl (pushAnswered_configKept _ p v a).of_host
  | command v rest hs ho => exact .inl ho.configKept.of_host
  | register r v rest hs => exact .inr (.inl ⟨r, v, rest, hs, rfl⟩)
  | reset rest hs => exact .inr (.inr ⟨rest, hs, rfl⟩)

/-- While an operation runs, no step changes which it is or its parameters (70_reset R410, R411). -/
theorem Move.operationKept {s t : State} (h : Move s t) (hs : s.status.busy = true) (ht : t.status.busy = true) :
    OperationKept s t := by
  cases h with
  | hostOnly host hd => exact ⟨rfl, rfl, rfl, rfl, rfl⟩
  | engine host hd he => exact (ensures_engineStep _ t he).operationKept.of_host
  | pullAnswered host p a hd hq => exact (pullAnswered_operationKept _ p a).of_host
  | pushAnswered host p v a hd hq => exact (pushAnswered_operationKept _ p v a).of_host
  | command v rest hscr ho =>
    rw [ho.eq_of_busy hs]
    exact ⟨rfl, rfl, rfl, rfl, rfl⟩
  | register r v rest hscr => cases r <;> exact ⟨rfl, rfl, rfl, rfl, rfl⟩
  | reset rest hscr => exact absurd ht Bool.false_ne_true

/-- Settles O20: only a register write or a reset leaves `ConfigKept`, and each register write stores to one register. -/
theorem onlyTheHostReconfigures : Obligations.OnlyTheHostReconfigures := by
  unfold Obligations.OnlyTheHostReconfigures
  intro s t hst
  have hm := step_move hst
  have hrun : s.status.busy = true → t.status.busy = true → t.params = s.params ∧ t.opCodec = s.opCodec
      ∧ t.opDir = s.opDir ∧ t.status.codec = s.status.codec ∧ t.status.dir = s.status.dir := fun hs ht =>
    have hk := hm.operationKept hs ht
    ⟨hk.params, hk.opCodec, hk.opDir, hk.codec, hk.dir⟩
  obtain hk | ⟨r, v, rest, hs, rfl⟩ | ⟨rest, hs, rfl⟩ := hm.config
  · exact ⟨hk.build, .inr ⟨.inl hk.lzssCfg, .inl hk.rleCfg, .inl hk.lzpCfg⟩, hrun⟩
  · cases r with
    | lzssCfg => exact ⟨rfl, .inr ⟨.inr ⟨v, rest, hs⟩, .inl rfl, .inl rfl⟩, hrun⟩
    | rleCfg => exact ⟨rfl, .inr ⟨.inl rfl, .inr ⟨v, rest, hs⟩, .inl rfl⟩, hrun⟩
    | lzpCfg => exact ⟨rfl, .inr ⟨.inl rfl, .inl rfl, .inr ⟨v, rest, hs⟩⟩, hrun⟩
    | cmd | status | readCount | writeCount | caps => exact ⟨rfl, .inr ⟨.inl rfl, .inl rfl, .inl rfl⟩, hrun⟩
  · exact ⟨rfl, .inl ⟨rest, hs⟩, hrun⟩

/-- What a step does to the counters and the delivered bytes: nothing, one byte in, one byte out, or both counters fall to 0
(20_memory R86, R87; 60_exceptions R380). -/
theorem Move.counts {s t : State} (h : Move s t) :
    CountsKept s t
    ∨ (∃ p v, s.seq = .waitPull p ∧ t.seq = .run p ∧ t.work.rv = some v ∧ t.readCount = s.readCount + 1#32
        ∧ t.writeCount = s.writeCount ∧ t.host.delivered = s.host.delivered)
    ∨ (∃ p v, s.seq = .waitPush p v ∧ t.seq = .run p ∧ t.readCount = s.readCount
        ∧ t.writeCount = s.writeCount + 1#32 ∧ t.host.delivered = s.host.delivered ++ [v])
    ∨ (t.readCount = 0#32 ∧ t.writeCount = 0#32 ∧ t.host.delivered = s.host.delivered
        ∧ ((s.status.busy = false ∧ ∃ v rest, s.host.script = .write s.build.regBase .word v :: rest)
          ∨ ∃ rest, s.host.script = .hardwareReset :: rest)) := by
  cases h with
  | hostOnly host hd => exact .inl ⟨rfl, rfl, hd⟩
  | engine host hd he =>
    have hf := ensures_engineStep { s with host := host } t he
    exact .inl ⟨hf.readCount, hf.writeCount, (congrArg HostSide.delivered hf.host).trans hd⟩
  | pullAnswered host p a hd hq =>
    cases a with
    | byte v => exact .inr (.inl ⟨p, v, hq, rfl, rfl, rfl, rfl, hd⟩)
    | endOfInput => exact .inl ⟨rfl, rfl, hd⟩
    | error => exact .inl ⟨rfl, rfl, hd⟩
  | pushAnswered host p v a hd hq =>
    cases a with
    | ok => exact .inr (.inr (.inl ⟨p, v, hq, rfl, rfl, rfl, congrArg (· ++ [v]) hd⟩))
    | full => exact .inl ⟨rfl, rfl, hd⟩
    | error => exact .inl ⟨rfl, rfl, hd⟩
  | command v rest hs ho =>
    cases hb : s.status.busy with
    | true =>
      rw [ho.eq_of_busy hb]
      exact .inl ⟨rfl, rfl, rfl⟩
    | false =>
      obtain ⟨hrc, hwc, hhost⟩ := ho.cleared hb
      have hd : t.host.delivered = s.popped.host.delivered := by rw [hhost]
      exact .inr (.inr (.inr ⟨hrc, hwc, hd, .inl ⟨rfl, v, rest, hs⟩⟩))
  | register r v rest hs => cases r <;> exact .inl ⟨rfl, rfl, rfl⟩
  | reset rest hs => exact .inr (.inr (.inr ⟨rfl, rfl, rfl, .inr ⟨rest, hs⟩⟩))

/-- Settles O19: the four things a step can do to the counters. -/
theorem countersFollowTheAnswers : Obligations.CountersFollowTheAnswers := by
  unfold Obligations.CountersFollowTheAnswers
  intro s t hst
  obtain hk | ⟨p, v, hq, hq', hrv, hrc, hwc, hd⟩ | ⟨p, v, hq, hq', hrc, hwc, hd⟩ | ⟨hrc, hwc, hd, hcl⟩ := (step_move hst).counts
  · exact ⟨.inl ⟨hk.delivered, .inl hk.writeCount⟩, .inl hk.readCount⟩
  · exact ⟨.inl ⟨hd, .inl hwc⟩, .inr (.inr ⟨p, v, hq, hq', hrv, hrc⟩)⟩
  · exact ⟨.inr ⟨p, v, hq, hq', hd, hwc⟩, .inl hrc⟩
  · exact ⟨.inl ⟨hd, .inr ⟨hwc, hcl⟩⟩, .inr (.inl ⟨hrc, hcl⟩)⟩

/-! ## RAM sizes -/

/-- Settles O56: the two variable sizes are powers bounded by the build's, the others are bounded by the checks. -/
theorem usedPartsFitTheRams : Obligations.UsedPartsFitTheRams := by
  unfold Obligations.UsedPartsFitTheRams
  intro op q b sp _ hq
  have hwindow (h : q.ei ≤ b.eiMax) : q.windowSize ≤ 2 ^ b.eiMax := Nat.pow_le_pow_right (by omega) h
  have htable (h : q.hashOrder ≤ b.hashOrderMax) : 2 ^ q.hashOrder ≤ 2 ^ b.hashOrderMax := Nat.pow_le_pow_right (by omega) h
  cases op with
  | lzssEnc =>
    obtain ⟨-, -, -, -, -, -, -, -, hei⟩ := hq
    have := hwindow hei
    cases sp <;> simp [usedPart, ramSize]; omega
  | lzssDec =>
    obtain ⟨-, -, -, -, -, -, -, -, hei⟩ := hq
    have := hwindow hei
    cases sp <;> simp [usedPart, ramSize]; omega
  | lzpEnc =>
    obtain ⟨-, -, hbl, hho⟩ := hq
    cases sp <;> simp [usedPart, ramSize, hbl, htable hho]
  | lzpDec =>
    obtain ⟨-, -, -, hho⟩ := hq
    cases sp <;> simp [usedPart, ramSize, htable hho]
  | rleEnc =>
    obtain ⟨-, hrl, -⟩ := hq
    cases sp <;> simp [usedPart, ramSize]; omega
  | rleDec | egEnc | egDec | mtfEnc | mtfDec => cases sp <;> simp [usedPart, ramSize]

end Sys2Proof.Machine

/-! Memory and ports: what a step can refuse and why none faults, what an access outside the register window or of a wrong
shape does, and the effect of each port answer, given by the host or by the adapter. -/

namespace Sys2Proof.Machine

/-! ## Accesses by their place and shape -/

/-- An address of the window is at its distance from the window's base (20_memory R97). -/
theorem offset_inside {b : Build} {addr : Nat} (hlo : b.regBase ≤ addr) (hhi : addr < b.regBase + 32) :
    b.offset addr = some (addr - b.regBase) := if_pos ⟨hlo, hhi⟩

theorem offset_outside {b : Build} {addr : Nat} (h : addr < b.regBase ∨ b.regBase + 32 ≤ addr) : b.offset addr = none :=
  if_neg (by omega)

/-- The multiples of 4 are the places of the window where a register stands (10_state R30). -/
theorem regAt_eq_none_iff {off : Nat} (h : off < 32) : regAt off = none ↔ off % 4 ≠ 0 := by
  revert off
  decide

/-- Every access lies outside the window, is misshapen, or is a word access to a register (20_memory R90, R97). -/
theorem access_cases (b : Build) (addr : Nat) (width : AccessWidth) :
    (addr < b.regBase ∨ b.regBase + 32 ≤ addr)
    ∨ (b.regBase ≤ addr ∧ addr < b.regBase + 32 ∧ (width ≠ .word ∨ (addr - b.regBase) % 4 ≠ 0))
    ∨ ∃ r : Reg, addr = b.regBase + r.offset ∧ width = .word := by
  by_cases hout : addr < b.regBase ∨ b.regBase + 32 ≤ addr
  · exact .inl hout
  by_cases hshape : width ≠ .word ∨ (addr - b.regBase) % 4 ≠ 0
  · exact .inr (.inl ⟨by omega, by omega, hshape⟩)
  · obtain ⟨hwidth, halign⟩ := not_or.1 hshape
    obtain ⟨r, hr⟩ := Option.ne_none_iff_exists'.1 (mt (regAt_eq_none_iff (by omega)).1 halign)
    have hoff : addr - b.regBase = r.offset := offset_of_regAt hr
    exact .inr (.inr ⟨r, by omega, not_not.1 hwidth⟩)

theorem hostReads_outside {s : State} {addr : Nat} (width : AccessWidth)
    (h : addr < s.build.regBase ∨ s.build.regBase + 32 ≤ addr) : hostReads addr width s = .next s := by
  unfold hostReads
  rw [offset_outside h]

theorem hostWrites_outside {s : State} {addr : Nat} (width : AccessWidth) (v : Word)
    (h : addr < s.build.regBase ∨ s.build.regBase + 32 ≤ addr) : hostWrites addr width v s = .next s := by
  unfold hostWrites
  rw [offset_outside h]

theorem hostReads_misshapen {s : State} {addr : Nat} {width : AccessWidth} (hlo : s.build.regBase ≤ addr)
    (hhi : addr < s.build.regBase + 32) (h : width ≠ .word ∨ (addr - s.build.regBase) % 4 ≠ 0) :
    hostReads addr width s = .refused .registerAccessShape := by
  unfold hostReads
  rw [offset_inside hlo hhi]
  obtain hwidth | halign := h
  · cases width <;> simp at hwidth ⊢
  · simp [(regAt_eq_none_iff (by omega)).2 halign]

theorem hostWrites_misshapen {s : State} {addr : Nat} {width : AccessWidth} (v : Word) (hlo : s.build.regBase ≤ addr)
    (hhi : addr < s.build.regBase + 32) (h : width ≠ .word ∨ (addr - s.build.regBase) % 4 ≠ 0) :
    hostWrites addr width v s = .refused .registerAccessShape := by
  unfold hostWrites
  rw [offset_inside hlo hhi]
  obtain hwidth | halign := h
  · cases width <;> simp at hwidth ⊢
  · simp [(regAt_eq_none_iff (by omega)).2 halign]

/-- A word write to CMD executes the command that its word decodes to (40_stream_bitpacker R160). -/
theorem hostWrites_cmd (s : State) (v : Word) :
    hostWrites (s.build.regBase + Reg.offset .cmd) .word v s = exec (decodeCommand v) s := by
  unfold hostWrites
  simp [offset_lt]

/-! ## What moves when -/

/-- With nothing in the script, what moves without the host moves. -/
theorem step_of_nil {s : State} (h : s.host.script = []) : step s = idleStep s := by
  show machineStep s = _
  unfold machineStep
  rw [h]

/-- Outside RUN only the adapter can move without the host (20_memory R98). -/
theorem idleStep_of_not_run {s : State} (hq : ∀ p, s.seq ≠ .run p) : idleStep s = .next (adapterStep s) := by
  cases h : s.seq with
  | run p => exact absurd h (hq p)
  | _ => simp only [idleStep, adapterStep, h]

/-- Outside RUN an action that comes after a request is performed at once (20_memory R92). -/
theorem afterRequest_of_not_run {late : Bool} {act : State → Out} {s : State} (hq : ∀ p, s.seq ≠ .run p) :
    afterRequest late act s = act s.popped := by
  cases h : s.seq with
  | run p => exact absurd h (hq p)
  | _ => simp only [afterRequest, h]

/-! ## What completes -/

/-- The outcome is a next state. -/
def Out.Completes (o : Out) : Prop := ∃ t, o = .next t

theorem completes_next (t : State) : Out.Completes (.next t) := ⟨t, rfl⟩

theorem Reach.completes {n : Nat} {o : Out} (h : Reach n o) : o.Completes := by
  obtain ⟨t, rfl, _⟩ := h
  exact completes_next t

/-- However many points it may pass, the engine completes: each point does, and leads to a state that meets the invariant. -/
theorem settle_completes (fuel : Nat) {s : State} (h : Inv s) : (settle fuel s).Completes := by
  induction fuel generalizing s with
  | zero => exact completes_next s
  | succ fuel ih =>
    cases hq : s.seq with
    | run p =>
      obtain ⟨t, ht, hinv, _⟩ := reach_advance h hq
      rw [settle_run hq, ht]
      exact ih hinv
    | idle => rw [settle_idle hq]; exact completes_next s
    | waitPull p => rw [settle_pull hq]; exact completes_next s
    | waitPush p v => rw [settle_push hq]; exact completes_next s

theorem engineStep_completes {s : State} (h : Inv s) : (engineStep s).Completes := settle_completes _ h

theorem idleStep_completes {s : State} (h : Inv s) : (idleStep s).Completes := by
  unfold idleStep
  split
  · exact engineStep_completes h
  · exact completes_next _
  · exact completes_next _
  · exact completes_next _

/-- Every command and reserved word completes: it is ignored, turned away, or makes its operation's first step. -/
theorem exec_command_completes {i : Instr} (hi : i.family = .command) {s : State} (h : Inv s) :
    Out.Completes (exec i s) := by
  obtain ⟨op, rfl⟩ | ⟨w, hw⟩ := exec_command_cases hi
  · rw [exec_op_command]
    unfold runCommand
    cases s.status.busy
    · cases hl : legal op.codec s
      · exact completes_next _
      · cases hf : fits op.codec s
        · exact completes_next _
        · exact (reach_start (live_launched h hl hf) (acc_launched op s)).completes
    · exact completes_next _
  · rw [hw]
    unfold refuseCommand
    cases s.status.busy <;> exact completes_next _

/-! ## What is refused -/

/-- The host's two errors that a step refuses: a misshapen access inside the window (20_memory R90, I5) and an answer to a
port that has no outstanding request and none withdrawn (70_reset R414, I4). -/
inductive HostError (s : State) : Refusal → Prop
  | access (addr : Nat) (width : AccessWidth) (v : Word) (rest : List HostAction) :
      (s.host.script = .read addr width :: rest ∨ s.host.script = .write addr width v :: rest) →
      s.build.regBase ≤ addr → addr < s.build.regBase + 32 → (width ≠ .word ∨ (addr - s.build.regBase) % 4 ≠ 0) →
      HostError s .registerAccessShape
  | pullAnswer (a : PullAnswer) (rest : List HostAction) : s.host.script = .answerPull a :: rest →
      (s.seq = .idle ∨ ∃ p v, s.seq = .waitPush p v) → .pull ∉ s.host.withdrawn → HostError s .answerWithoutRequest
  | pushAnswer (a : PushAnswer) (rest : List HostAction) : s.host.script = .answerPush a :: rest →
      (s.seq = .idle ∨ ∃ p, s.seq = .waitPull p) → .push ∉ s.host.withdrawn → HostError s .answerWithoutRequest

/-- The outcome completes or is a refusal for a host's error. -/
def Out.Sound (o : Out) (s : State) : Prop := o.Completes ∨ ∃ r, o = .refused r ∧ HostError s r

theorem sound_next {s t : State} : Out.Sound (.next t) s := .inl (completes_next t)

theorem sound_refused {s : State} {r : Refusal} (h : HostError s r) : Out.Sound (.refused r) s := .inr ⟨r, rfl, h⟩

theorem sound_read {s : State} {addr : Nat} {width : AccessWidth} {rest : List HostAction}
    (h : s.host.script = .read addr width :: rest) : (hostReads addr width s.popped).Sound s := by
  obtain hout | ⟨hlo, hhi, hshape⟩ | ⟨r, rfl, rfl⟩ := access_cases s.build addr width
  · rw [hostReads_outside (s := s.popped) width hout]
    exact sound_next
  · rw [hostReads_misshapen (s := s.popped) hlo hhi hshape]
    exact sound_refused (.access addr width 0#32 rest (.inl h) hlo hhi hshape)
  · exact .inl ⟨_, hostReads_register s.popped r⟩

theorem sound_write {s : State} {addr : Nat} {width : AccessWidth} {v : Word} {rest : List HostAction} (hinv : Inv s)
    (h : s.host.script = .write addr width v :: rest) : (hostWrites addr width v s.popped).Sound s := by
  obtain hout | ⟨hlo, hhi, hshape⟩ | ⟨r, rfl, rfl⟩ := access_cases s.build addr width
  · rw [hostWrites_outside (s := s.popped) width v hout]
    exact sound_next
  · rw [hostWrites_misshapen (s := s.popped) v hlo hhi hshape]
    exact sound_refused (.access addr width v rest (.inr h) hlo hhi hshape)
  · by_cases hr : r = .cmd
    · subst hr
      have hcmd : hostWrites (s.build.regBase + Reg.offset .cmd) .word v s.popped = exec (decodeCommand v) s.popped :=
        hostWrites_cmd s.popped v
      rw [hcmd]
      exact .inl (exec_command_completes (decodeCommand_family v) (inv_host hinv _))
    · exact .inl ⟨_, hostWrites_register s.popped r v hr⟩

/-- An answer without a request is sound when it is a host's error unless it is late. -/
theorem sound_unrequested {k : PortKind} {s : State} (h : k ∉ s.host.withdrawn → HostError s .answerWithoutRequest) :
    (unrequestedAnswer k s.popped).Sound s := by
  obtain ⟨_, he⟩ | ⟨hk, he⟩ := unrequestedAnswer_cases k s.popped <;> rw [he]
  · exact sound_next
  · exact sound_refused (h hk)

/-- An action that comes after a request is performed outside RUN, and in RUN if it is late; else the engine moves first. -/
theorem sound_afterRequest {late : Bool} {act : State → Out} {s : State} (hinv : Inv s)
    (h : (∀ p, s.seq = .run p → late = true) → (act s.popped).Sound s) : (afterRequest late act s).Sound s := by
  by_cases hrun : ∃ p, s.seq = .run p
  · obtain ⟨p, hq⟩ := hrun
    unfold afterRequest
    rw [hq]
    cases late with
    | true => exact h fun _ _ => rfl
    | false => exact .inl (engineStep_completes hinv)
  · rw [afterRequest_of_not_run (not_exists.1 hrun)]
    exact h fun p hq => absurd ⟨p, hq⟩ hrun

theorem sound_answerPull {s : State} {a : PullAnswer} {rest : List HostAction} (hinv : Inv s)
    (h : s.host.script = .answerPull a :: rest) :
    (afterRequest (s.awaitsLate .pull) (hostAnswersPull a) s).Sound s := by
  refine sound_afterRequest hinv fun hlate => ?_
  unfold hostAnswersPull
  cases hq : s.popped.seq with
  | waitPull p => exact sound_next
  | waitPush p v => exact sound_unrequested (.pullAnswer a rest h (.inr ⟨p, v, hq⟩))
  | idle => exact sound_unrequested (.pullAnswer a rest h (.inl hq))
  | run p => exact sound_unrequested fun hk => absurd ((awaitsLate_iff _ _).1 (hlate p hq)) hk

theorem sound_answerPush {s : State} {a : PushAnswer} {rest : List HostAction} (hinv : Inv s)
    (h : s.host.script = .answerPush a :: rest) :
    (afterRequest (s.awaitsLate .push) (hostAnswersPush a) s).Sound s := by
  refine sound_afterRequest hinv fun hlate => ?_
  unfold hostAnswersPush
  cases hq : s.popped.seq with
  | waitPush p v => exact sound_next
  | waitPull p => exact sound_unrequested (.pushAnswer a rest h (.inr ⟨p, hq⟩))
  | idle => exact sound_unrequested (.pushAnswer a rest h (.inl hq))
  | run p => exact sound_unrequested fun hk => absurd ((awaitsLate_iff _ _).1 (hlate p hq)) hk

theorem perform_sound {s : State} {a : HostAction} {rest : List HostAction} (hinv : Inv s)
    (h : s.host.script = a :: rest) : (perform a s).Sound s := by
  cases a with
  | write addr width v => exact sound_write hinv h
  | read addr width => exact sound_read h
  | answerPull a => exact sound_answerPull hinv h
  | answerPush a => exact sound_answerPush hinv h
  | adapterAnswers => exact sound_afterRequest (act := fun s => .next (adapterStep s)) hinv fun _ => sound_next
  | engineSteps => exact .inl (engineStep_completes (inv_host hinv _))
  | waitDone =>
    unfold perform
    dsimp only
    split
    · exact .inl ⟨_, hostReads_register s.popped .status⟩
    · exact .inl (idleStep_completes hinv)
  | connectInput bytes => exact sound_next
  | connectOutput cap => exact sound_next
  | connectEncoded => exact sound_next
  | compareOutput bytes => exact sound_next
  | hardwareReset => exact sound_next

/-- EVERY STEP from a state that meets the invariant completes, or is refused for a host's error. -/
theorem step_sound {s : State} (hinv : Inv s) : Out.Sound (step s) s := by
  cases h : s.host.script with
  | nil =>
    rw [step_of_nil h]
    exact .inl (idleStep_completes hinv)
  | cons a rest =>
    rw [step_of_script h]
    exact perform_sound hinv h

/-- Settles O59: a step completes or is refused for a host's error, so it never faults. -/
theorem stepsNeverFault : Obligations.StepsNeverFault := by
  unfold Obligations.StepsNeverFault
  intro s hinv
  obtain ⟨t, ht⟩ | ⟨r, hr, he⟩ := step_sound hinv
  · exact ⟨fun f hf => by simp [ht] at hf, fun r hr => by simp [ht] at hr⟩
  · refine ⟨fun f hf => by simp [hr] at hf, fun r' hr' => ?_⟩
    obtain rfl : r = r' := by simpa [hr] using hr'
    cases he with
    | access addr width v rest hs hlo hhi hshape => exact .inl ⟨rfl, addr, width, v, rest, hs, hlo, hhi, hshape⟩
    | pullAnswer a rest hs hq hk => exact .inr ⟨rfl, rest, .inl ⟨⟨a, hs⟩, hq, hk⟩⟩
    | pushAnswer a rest hs hq hk => exact .inr ⟨rfl, rest, .inr ⟨⟨a, hs⟩, hq, hk⟩⟩

/-- Settles O5: the shape of an access is looked at only inside the window. -/
theorem misshapenAccessesRefused : Obligations.MisshapenAccessesRefused := by
  unfold Obligations.MisshapenAccessesRefused
  intro s addr width v rest a ha hs
  rw [step_of_script hs, ← popped_of_script hs]
  simp only [List.mem_cons, List.not_mem_nil, or_false] at ha
  obtain rfl | rfl := ha
  · exact ⟨hostReads_misshapen (s := s.popped), hostReads_outside (s := s.popped) width⟩
  · exact ⟨hostWrites_misshapen (s := s.popped) v, hostWrites_outside (s := s.popped) width v⟩

/-! ## Port answers -/

/-- Settles O16: the end latch decides in `Pull()`; after a step the invariant keeps latch and pull request apart. -/
theorem pullAfterEndAsksNothing : Obligations.PullAfterEndAsksNothing := by
  unfold Obligations.PullAfterEndAsksNothing
  refine fun s p => ⟨fun he => ?_, fun he => ?_, fun hinv _ t hst he => (invariantIsKept s t hinv hst).noPullAfterEnd he⟩
  · simp [State.pull, he]
  · simp [State.pull, he]

/-- The host's answer to an outstanding pull has its effect at once (20_memory R86). -/
theorem step_of_answerPull {s : State} {p : Point} {a : PullAnswer} {rest : List HostAction} (hq : s.seq = .waitPull p)
    (h : s.host.script = .answerPull a :: rest) : step s = .next ((Claims.after rest s).pullAnswered p a) := by
  have hq' : s.popped.seq = .waitPull p := hq
  calc step s = hostAnswersPull a s.popped := (step_of_script h).trans (afterRequest_of_not_run (by simp [hq]))
    _ = .next (s.popped.pullAnswered p a) := by simp only [hostAnswersPull, hq']
    _ = _ := by rw [popped_of_script h]

/-- The host's answer to an outstanding push has its effect at once (20_memory R87). -/
theorem step_of_answerPush {s : State} {p : Point} {v : Byte} {a : PushAnswer} {rest : List HostAction}
    (hq : s.seq = .waitPush p v) (h : s.host.script = .answerPush a :: rest) :
    step s = .next ((Claims.after rest s).pushAnswered p v a) := by
  have hq' : s.popped.seq = .waitPush p v := hq
  calc step s = hostAnswersPush a s.popped := (step_of_script h).trans (afterRequest_of_not_run (by simp [hq]))
    _ = .next (s.popped.pushAnswered p v a) := by simp only [hostAnswersPush, hq']
    _ = _ := by rw [popped_of_script h]

/-- Settles O14: the step is `pullAnswered`, whose three cases are the statement's. -/
theorem pullAnswersTakeEffect : Obligations.PullAnswersTakeEffect := by
  unfold Obligations.PullAnswersTakeEffect
  intro s p a rest hq hs
  rw [step_of_answerPull hq hs]
  cases a <;> rfl

/-- Settles O15: the step is `pushAnswered`, whose three cases are the statement's. -/
theorem pushAnswersTakeEffect : Obligations.PushAnswersTakeEffect := by
  unfold Obligations.PushAnswersTakeEffect
  intro s p v a rest hq hs
  rw [step_of_answerPush hq hs]
  cases a <;> rfl

/-! ## The adapter -/

/-- The adapter's answer to a pull, when it is connected to the input port (20_memory R98). -/
theorem adapterStep_pull {s : State} {p : Point} {bytes : List Byte} (hq : s.seq = .waitPull p)
    (hin : s.host.input = some bytes) : adapterStep s = adapterPull bytes p s := by
  simp only [adapterStep, hq, hin]

/-- The adapter's answer to a push, when it is connected to the output port (20_memory R98). -/
theorem adapterStep_push {s : State} {p : Point} {v : Byte} {out : OutArray} (hq : s.seq = .waitPush p v)
    (hout : s.host.output = some out) : adapterStep s = adapterPush out p v s := by
  simp only [adapterStep, hq, hout]

/-- `t` is where the adapter's move starts from `s`: the script is empty (log 6) or names that move. -/
def AdapterTurn (s t : State) : Prop :=
  (s.host.script = [] ∧ t = s) ∨ ∃ rest, s.host.script = .adapterAnswers :: rest ∧ t = Claims.after rest s

/-- Outside RUN it is the adapter's turn alone. -/
theorem AdapterTurn.step {s t : State} (h : AdapterTurn s t) (hq : ∀ p, s.seq ≠ .run p) :
    Machine.step s = .next (adapterStep t) := by
  obtain ⟨hs, rfl⟩ | ⟨rest, hs, rfl⟩ := h
  · exact (step_of_nil hs).trans (idleStep_of_not_run hq)
  · rw [← popped_of_script hs]
    exact (step_of_script hs).trans (afterRequest_of_not_run (act := fun s => .next (adapterStep s)) hq)

/-- Only the script differs where the adapter's move starts. -/
theorem AdapterTurn.eq_after {s t : State} (h : AdapterTurn s t) : ∃ script, t = Claims.after script s := by
  obtain ⟨_, ht⟩ | ⟨rest, _, ht⟩ := h
  · exact ⟨s.host.script, ht⟩
  · exact ⟨rest, ht⟩

/-- Settles O18: in each wait the step is the adapter's, which answers by its input or its free capacity. -/
theorem adapterAnswers : Obligations.AdapterAnswers := by
  unfold Obligations.AdapterAnswers
  intro s t ht
  have hturn : AdapterTurn s t := ht
  obtain ⟨script, rfl⟩ := hturn.eq_after
  refine ⟨fun p b rest hq hin => ?_, fun p hq hin => ?_, fun p v out hq hout hcap => ?_, fun p v out hq hout hcap => ?_⟩
  · rw [hturn.step (by simp [hq]), adapterStep_pull (s := Claims.after script s) hq hin]
    rfl
  · rw [hturn.step (by simp [hq]), adapterStep_pull (s := Claims.after script s) hq hin]
    rfl
  · rw [hturn.step (by simp [hq]), adapterStep_push (s := Claims.after script s) hq hout, adapterPush, if_pos hcap]
    rfl
  · rw [hturn.step (by simp [hq]), adapterStep_push (s := Claims.after script s) hq hout, adapterPush,
      if_neg (Nat.not_lt.2 hcap)]
    rfl

end Sys2Proof.Machine

/-! The wire encodings: the round trip in both directions, grammar by grammar; what a unit's first bits tell; and what the
machine does with words and units by their encoding. -/

namespace Sys2Proof

/-! ## From instructions to bits and back -/

/-- Settles O53: each instruction has its own round-trip lemma. -/
theorem encodingsDecodeBack : Obligations.EncodingsDecodeBack := by
  unfold Obligations.EncodingsDecodeBack
  intro w i rest hwf
  suffices h : Laws.Encoding.Statement i from h w rest hwf
  cases i with
  | rleEnc => exact Laws.Encoding.rleEnc
  | rleDec => exact Laws.Encoding.rleDec
  | lzssEnc => exact Laws.Encoding.lzssEnc
  | lzssDec => exact Laws.Encoding.lzssDec
  | egEnc => exact Laws.Encoding.egEnc
  | egDec => exact Laws.Encoding.egDec
  | mtfEnc => exact Laws.Encoding.mtfEnc
  | mtfDec => exact Laws.Encoding.mtfDec
  | lzpEnc => exact Laws.Encoding.lzpEnc
  | lzpDec => exact Laws.Encoding.lzpDec
  | reservedCodec5 dir => exact Laws.Encoding.reservedCodec5 dir
  | reservedCodec6 dir => exact Laws.Encoding.reservedCodec6 dir
  | reservedCodec7 dir => exact Laws.Encoding.reservedCodec7 dir
  | reservedHighbits high dir codec => exact Laws.Encoding.reservedHighbits high dir codec
  | lzssLiteral v => exact Laws.Encoding.lzssLiteral v
  | lzssReference pos len => exact Laws.Encoding.lzssReference pos len
  | rleLiteralBlock c => exact Laws.Encoding.rleLiteralBlock c
  | rleRunBlock c b => exact Laws.Encoding.rleRunBlock c b
  | egSymbol0 => exact Laws.Encoding.egSymbol0
  | egSymbol1 => exact Laws.Encoding.egSymbol1
  | egSymbol2 => exact Laws.Encoding.egSymbol2
  | egSymbol3 => exact Laws.Encoding.egSymbol3
  | egSymbol4 => exact Laws.Encoding.egSymbol4
  | egSymbol5 => exact Laws.Encoding.egSymbol5
  | egSymbol6 => exact Laws.Encoding.egSymbol6
  | egSymbol7 => exact Laws.Encoding.egSymbol7
  | egSymbol8 => exact Laws.Encoding.egSymbol8
  | egSymbol9 => exact Laws.Encoding.egSymbol9
  | egSymbol10 => exact Laws.Encoding.egSymbol10
  | egSymbol11 => exact Laws.Encoding.egSymbol11
  | egSymbol12 => exact Laws.Encoding.egSymbol12
  | egSymbol13 => exact Laws.Encoding.egSymbol13
  | egSymbol14 => exact Laws.Encoding.egSymbol14
  | egSymbol15 => exact Laws.Encoding.egSymbol15
  | egTerminal => exact Laws.Encoding.egTerminal
  | egInvalidValue suffix => exact Laws.Encoding.egInvalidValue suffix
  | egInvalidPrefix => exact Laws.Encoding.egInvalidPrefix
  | mtfRank r => exact Laws.Encoding.mtfRank r
  | lzpBlock m => exact Laws.Encoding.lzpBlock m

/-! ## From bits to instructions and back -/

/-- `i` is a unit of the grammar `f`, well-formed, and the string `l` is its encoding with `rest` after it. -/
def EncodedAs (f : Family) (w : Wire) (l : List Bool) (i : Instr) (rest : List Bool) : Prop :=
  i.family = f ∧ i.wf w = true ∧ l = encode w i ++ rest

/-- Decoding succeeds where the grammar finds a first instruction. -/
theorem decode_ok_iff {f : Family} {w : Wire} {l : List Bool} {r : Instr × List Bool} :
    decode f w l = .ok r ↔ decodeFirst f w l = some r := by
  unfold decode
  split <;> simp_all

/-- What a field of `n` bits gives, as a bit vector that holds `n` bits, is the field that was there. -/
theorem takeBits_ofNat {n k v : Nat} {l rest : List Bool} (hk : n ≤ k) (h : takeBits n 0 l = some (v, rest)) :
    v < 2 ^ n ∧ (BitVec.ofNat k v).toNat = v ∧ l = bitsOf n (BitVec.ofNat k v).toNat ++ rest := by
  obtain ⟨hl, hv⟩ := takeBits_some_field n v l rest h
  have hnat : (BitVec.ofNat k v).toNat = v := by
    rw [BitVec.toNat_ofNat, Nat.mod_eq_of_lt (hv.trans_le (Nat.pow_le_pow_right (by omega) hk))]
  exact ⟨hv, hnat, by rw [hnat, hl]⟩

/-- A command word is made of its three fields (30_encoding R120). -/
theorem commandFields_of_word (v : Word) : commandFields (commandHigh v) (commandDir v) (commandCodec v) = v := by
  apply BitVec.eq_of_toNat_eq
  have hdir : (v.toNat.testBit 3).toNat = v.toNat / 8 % 2 := Nat.toNat_testBit v.toNat 3
  simp only [commandFields, commandHigh, commandDir, commandCodec, BitVec.toNat_ofNat, BitVec.extractLsb'_toNat,
    Nat.shiftRight_eq_div_pow, BitVec.getLsbD, hdir]
  have hv := v.isLt
  omega

/-- The opcode map loses nothing: every word is the CMD value of what it decodes to (30_encoding R121, R122). -/
theorem commandWord_decodeCommand (v : Word) : commandWord (decodeCommand v) = v := by
  conv_rhs => rw [← commandFields_of_word v]
  unfold decodeCommand
  generalize commandHigh v = high, commandDir v = dir, commandCodec v = codec
  by_cases hhigh : high = 0#28
  · subst hhigh
    revert dir codec
    decide
  · rw [if_pos hhigh]
    rfl

theorem wf_decodeCommand (w : Wire) (v : Word) : (decodeCommand v).wf w = true := by
  unfold decodeCommand
  split
  · simpa [Instr.wf] using ‹commandHigh v ≠ 0#28›
  · split <;> rfl

/-- What a word decodes to is sent as the 32 bits of that word. -/
theorem encode_decodeCommand (w : Wire) (v : Word) : encode w (decodeCommand v) = bitsOf 32 v.toNat := by
  have hsent : encode w (decodeCommand v) = bitsOf 32 (commandWord (decodeCommand v)).toNat := by
    unfold decodeCommand
    split
    · rfl
    · split <;> rfl
  rw [hsent, commandWord_decodeCommand]

theorem decodeLzss_encodedAs {w : Wire} {l rest : List Bool} {i : Instr} (hei : w.ei ≤ 15) (hej : w.ej ≤ 8)
    (h : decodeLzss w l = some (i, rest)) : EncodedAs .lzss w l i rest := by
  match l with
  | [] => cases h
  | true :: l =>
    obtain ⟨⟨v, rest⟩, hv, h⟩ := Option.map_eq_some_iff.1 h
    cases h
    obtain ⟨-, -, hl⟩ := takeBits_ofNat le_rfl hv
    exact ⟨rfl, rfl, congrArg (true :: ·) hl⟩
  | false :: l =>
    simp only [decodeLzss] at h
    split at h
    · cases h
    · rename_i pos l' hpos
      obtain ⟨⟨len, rest⟩, hlen, h⟩ := Option.map_eq_some_iff.1 h
      cases h
      obtain ⟨hposlt, hposnat, hl⟩ := takeBits_ofNat hei hpos
      obtain ⟨hlenlt, hlennat, hl'⟩ := takeBits_ofNat hej hlen
      refine ⟨rfl, ?_, ?_⟩
      · simp only [Instr.wf, hposnat, hlennat, hposlt, hlenlt, decide_true, Bool.and_self]
      · rw [hl, hl']
        simp only [encode, List.cons_append, List.append_assoc]

theorem decodeRle_encodedAs {w : Wire} {l rest : List Bool} {i : Instr} (h : decodeRle w l = some (i, rest)) :
    EncodedAs .rle w l i rest := by
  unfold decodeRle at h
  split at h
  · cases h
  · rename_i c l' hc
    obtain ⟨-, hcnat, hl⟩ := takeBits_ofNat (k := 8) le_rfl hc
    split at h
    · rename_i hlit
      cases h
      exact ⟨rfl, by simpa only [Instr.wf, hcnat, decide_eq_true_eq] using hlit, hl⟩
    · rename_i hrun
      obtain ⟨⟨b, rest⟩, hb, h⟩ := Option.map_eq_some_iff.1 h
      cases h
      obtain ⟨-, -, hl'⟩ := takeBits_ofNat (k := 8) le_rfl hb
      refine ⟨rfl, by simpa only [Instr.wf, hcnat, decide_eq_true_eq, not_lt] using hrun, ?_⟩
      rw [hl, hl']
      simp only [encode, List.append_assoc]

/-- A field shows its low bits alone. -/
theorem bitsOf_mod (n v : Nat) : bitsOf n (v % 2 ^ n) = bitsOf n v := by
  simpa only [length_bitsOf, ofBits_bitsOf, Nat.zero_mul, Nat.zero_add] using bitsOf_ofBits (bitsOf n v)

/-- A gamma value with `g` bits below its leading one has the code of `g` ones, a zero and those bits
(43_elias_gamma R290). -/
theorem gammaBits_two_pow_add {g v : Nat} (hv : v < 2 ^ g) :
    gammaBits (2 ^ g + v) = List.replicate g true ++ false :: bitsOf g v := by
  have hlog : (2 ^ g + v).log2 = g := (Nat.log2_eq_iff (by omega)).2 ⟨by omega, by rw [Nat.pow_succ]; omega⟩
  have hlow : bitsOf g (2 ^ g + v) = bitsOf g v := by
    rw [← bitsOf_mod, Nat.add_mod_left, bitsOf_mod]
  rw [gammaBits, hlog, hlow]

/-- Every value of at most five bits has the instruction that its code is the encoding of (30_encoding R129, R130). -/
theorem gammaInstr_encodedAs (w : Wire) (rest : List Bool) {v : Nat} (hpos : 1 ≤ v) (hlt : v < 32) :
    EncodedAs .eg w (gammaBits v ++ rest) (gammaInstr v) rest := by
  interval_cases v <;> exact ⟨rfl, rfl, rfl⟩

/-- With `g` leading ones read before, the code is those ones and the bits taken now. -/
theorem decodeEg_encodedAs {w : Wire} {g : Nat} {l rest : List Bool} {i : Instr} (hg : g ≤ 4)
    (h : decodeEg g l = some (i, rest)) : EncodedAs .eg w (List.replicate g true ++ l) i rest := by
  induction l generalizing g with
  | nil => cases h
  | cons b l ih =>
    cases b with
    | true =>
      unfold decodeEg at h
      split at h
      · rename_i hfour
        cases h
        subst hfour
        exact ⟨rfl, rfl, rfl⟩
      · have hmore := ih (by omega) h
        rwa [List.replicate_succ', List.append_assoc] at hmore
    | false =>
      obtain ⟨⟨v, rest⟩, hv, h⟩ := Option.map_eq_some_iff.1 h
      cases h
      obtain ⟨rfl, hlt⟩ := takeBits_some_field g v l rest hv
      have hcode : List.replicate g true ++ false :: (bitsOf g v ++ rest) = gammaBits (2 ^ g + v) ++ rest := by
        rw [gammaBits_two_pow_add hlt, List.append_assoc, List.cons_append]
      have hfive : 2 ^ g ≤ 2 ^ 4 := Nat.pow_le_pow_right (by omega) hg
      rw [hcode]
      exact gammaInstr_encodedAs w rest (by omega) (by omega)

/-- Settles O54: in each grammar the decoder has taken the encoding's fields from the front, in order. -/
theorem decodedBitsEncodeBack : Obligations.DecodedBitsEncodeBack := by
  unfold Obligations.DecodedBitsEncodeBack
  intro f w l rest i hei hej h
  replace h := decode_ok_iff.1 h
  suffices hcode : EncodedAs f w l i rest from hcode
  cases f with
  | command =>
    obtain ⟨⟨v, rest⟩, hv, h⟩ := Option.map_eq_some_iff.1 h
    cases h
    obtain ⟨-, -, hl⟩ := takeBits_ofNat le_rfl hv
    exact ⟨Machine.decodeCommand_family _, wf_decodeCommand w _, by rw [encode_decodeCommand, hl]⟩
  | lzss => exact decodeLzss_encodedAs hei hej h
  | rle => exact decodeRle_encodedAs h
  | eg => exact decodeEg_encodedAs (g := 0) (by omega) h
  | mtf =>
    obtain ⟨⟨r, rest⟩, hr, h⟩ := Option.map_eq_some_iff.1 h
    cases h
    obtain ⟨-, -, hl⟩ := takeBits_ofNat (k := 8) le_rfl hr
    exact ⟨rfl, rfl, hl⟩
  | lzp =>
    obtain ⟨⟨m, rest⟩, hm, h⟩ := Option.map_eq_some_iff.1 h
    cases h
    obtain ⟨-, -, hl⟩ := takeBits_ofNat (k := 8) le_rfl hm
    exact ⟨rfl, rfl, hl⟩

/-- Settles O52: the decoder evaluates each word. -/
theorem wordsDecode : Obligations.WordsDecode := by
  unfold Obligations.WordsDecode
  decide

/-! ## The length of an LZSS unit -/

/-- A field is read exactly when the string is long enough for it. -/
theorem exists_takeBits_iff {n x : Nat} {l : List Bool} : (∃ r, takeBits n x l = some r) ↔ n ≤ l.length := by
  rw [← Option.ne_none_iff_exists', ne_eq, takeBits_none_iff, not_lt]

theorem decode_lzss_true_iff (w : Wire) (l : List Bool) :
    (∃ r, decode .lzss w (true :: l) = .ok r) ↔ 8 ≤ l.length := by
  simp only [decode_ok_iff, decodeFirst, decodeLzss, ← exists_takeBits_iff (n := 8) (x := 0), Option.map_eq_some_iff]
  exact ⟨fun ⟨_, v, hv, _⟩ => ⟨v, hv⟩, fun ⟨v, hv⟩ => ⟨_, v, hv, rfl⟩⟩

theorem decode_lzss_false_iff (w : Wire) (l : List Bool) :
    (∃ r, decode .lzss w (false :: l) = .ok r) ↔ w.ei + w.ej ≤ l.length := by
  simp only [decode_ok_iff, decodeFirst, decodeLzss]
  split
  · rename_i hpos
    have hshort := (takeBits_none_iff _ _ _).1 hpos
    exact ⟨fun ⟨_, h⟩ => (nomatch h), by omega⟩
  · rename_i pos l' hpos
    obtain ⟨front, rfl, hfront, -⟩ := takeBits_some _ _ _ _ _ hpos
    have hlen : w.ej ≤ l'.length ↔ w.ei + w.ej ≤ (front ++ l').length := by
      rw [List.length_append, hfront]
      omega
    rw [← hlen, ← exists_takeBits_iff (x := 0)]
    simp only [Option.map_eq_some_iff]
    exact ⟨fun ⟨_, v, hv, _⟩ => ⟨v, hv⟩, fun ⟨v, hv⟩ => ⟨_, v, hv, rfl⟩⟩

/-- Settles O55: padding zeros start a reference, which is never that short. -/
theorem lzssPaddingIsNoUnit : Obligations.LzssPaddingIsNoUnit := by
  unfold Obligations.LzssPaddingIsNoUnit
  refine fun w l => ⟨decode_lzss_true_iff w l, decode_lzss_false_iff w l, fun hei hej k hk => ?_⟩
  cases k with
  | zero => exact ⟨_, rfl⟩
  | succ k =>
    rw [List.replicate_succ]
    cases h : decode .lzss w (false :: List.replicate k false) with
    | error e => exact ⟨e, rfl⟩
    | ok r =>
      have hlen := (decode_lzss_false_iff w _).1 ⟨r, h⟩
      rw [List.length_replicate] at hlen
      omega

end Sys2Proof

namespace Sys2Proof.Machine

/-! ## Reserved words -/

/-- A reserved word that is not ignored ends at once (30_encoding R122; 40_stream_bitpacker R161 check 1). -/
theorem refuseCommand_of_not_busy {s : State} (hb : s.status.busy = false) (w : Word) :
    refuseCommand w s = .next (Claims.turnedAway (commandCodec w) (commandDir w) .invalidParameters s) := by
  rw [refuseCommand, hb]
  rfl

theorem refuseCommand_commandFields {s : State} (hb : s.status.busy = false) (high : BitVec 28) (dir : Bool)
    (codec : BitVec 3) :
    refuseCommand (commandFields high dir codec) s = .next (Claims.turnedAway codec dir .invalidParameters s) := by
  obtain ⟨-, hdir, hcodec⟩ := Laws.Encoding.commandFields_read high dir codec
  rw [refuseCommand_of_not_busy hb, hdir, hcodec]

/-- What is no operation's command is refused by its own CMD value (30_encoding R122). -/
theorem exec_reserved {i : Instr} (hi : i.family = .command) (hne : ∀ op : Op, i ≠ op.command) (s : State) :
    exec i s = refuseCommand (commandWord i) s := by
  cases i with
  | rleEnc => exact absurd rfl (hne .rleEnc)
  | rleDec => exact absurd rfl (hne .rleDec)
  | lzssEnc => exact absurd rfl (hne .lzssEnc)
  | lzssDec => exact absurd rfl (hne .lzssDec)
  | egEnc => exact absurd rfl (hne .egEnc)
  | egDec => exact absurd rfl (hne .egDec)
  | mtfEnc => exact absurd rfl (hne .mtfEnc)
  | mtfDec => exact absurd rfl (hne .mtfDec)
  | lzpEnc => exact absurd rfl (hne .lzpEnc)
  | lzpDec => exact absurd rfl (hne .lzpDec)
  | reservedCodec5 dir => cases dir <;> rfl
  | reservedCodec6 dir => cases dir <;> rfl
  | reservedCodec7 dir => cases dir <;> rfl
  | reservedHighbits high dir codec => rfl
  | _ => cases hi

/-- Settles O8: a word that decodes to a command is that command's CMD value, one of the ten. -/
theorem reservedWordsEndAtOnce : Obligations.ReservedWordsEndAtOnce := by
  unfold Obligations.ReservedWordsEndAtOnce
  intro s hb
  refine ⟨fun w hw => ?_, fun d => refuseCommand_commandFields hb 0#28 d 5#3,
    fun d => refuseCommand_commandFields hb 0#28 d 6#3, fun d => refuseCommand_commandFields hb 0#28 d 7#3,
    fun h d c => refuseCommand_commandFields hb h d c⟩
  have hne : ∀ op : Op, decodeCommand w ≠ op.command := by
    intro op hop
    have hword : w = commandWord op.command := by rw [← hop, commandWord_decodeCommand]
    subst hword
    revert hw
    cases op <;> decide
  rw [exec_reserved (decodeCommand_family w) hne, commandWord_decodeCommand]
  exact refuseCommand_of_not_busy hb w

/-! ## Wire units outside their decoder -/

theorem decoder_family_injective : Function.Injective Decoder.family := by
  intro d e
  cases d <;> cases e <;> decide

/-- Every wire unit's effect is guarded by the place where its decoder has just read it (log 9). -/
theorem exec_unit_guarded {i : Instr} {d : Decoder} (hi : i.family = d.family) (s : State) :
    ∃ k, exec i s = onUnit d s k := by
  have guarded {e : Decoder} {k : Out} (he : e.family = d.family) (hk : exec i s = onUnit e s k) :
      ∃ k, exec i s = onUnit d s k := ⟨k, decoder_family_injective he ▸ hk⟩
  cases i with
  | lzssLiteral | lzssReference => exact guarded (e := .lzss) hi rfl
  | rleLiteralBlock | rleRunBlock => exact guarded (e := .rle) hi rfl
  | egSymbol0 | egSymbol1 | egSymbol2 | egSymbol3 | egSymbol4 | egSymbol5 | egSymbol6 | egSymbol7 =>
    exact guarded (e := .eg) hi rfl
  | egSymbol8 | egSymbol9 | egSymbol10 | egSymbol11 | egSymbol12 | egSymbol13 | egSymbol14 | egSymbol15 =>
    exact guarded (e := .eg) hi rfl
  | egTerminal | egInvalidValue | egInvalidPrefix => exact guarded (e := .eg) hi rfl
  | mtfRank => exact guarded (e := .mtf) hi rfl
  | lzpBlock => exact guarded (e := .lzp) hi rfl
  | _ => exact absurd hi.symm (family_ne_command d)

/-- Settles O51: the guard of the unit's effect is not met. -/
theorem unitsBelongToTheirDecoder : Obligations.UnitsBelongToTheirDecoder := by
  unfold Obligations.UnitsBelongToTheirDecoder
  intro s i d hi hq
  obtain ⟨k, hk⟩ := exec_unit_guarded hi s
  rw [hk, onUnit, if_neg hq]

/-! ## The Elias-Gamma encoder -/

/-- The input mask with `m + 1` bits left is the bit of rank `m`. -/
theorem imask_eq_twoPow {m : Nat} (hm : m < 8) : 0x80#8 >>> (8 - (m + 1)) = BitVec.twoPow 8 m := by
  interval_cases m <;> rfl

theorem imask_ne_zero {m : Nat} (hm : m < 8) : 0x80#8 >>> (8 - (m + 1)) ≠ 0#8 := by
  interval_cases m <;> decide

/-- The bit `GetBit` returns with `m + 1` bits left is the one of rank `m` (40_stream_bitpacker R183). -/
theorem nextBit_eq_testBit {s : State} {m : Nat} (hm : m < 8) (hmask : s.work.imask = 0x80#8 >>> (8 - (m + 1))) :
    s.nextBit = s.work.ibits.toNat.testBit m := by
  have hbit : BitVec.twoPow 8 m ≠ 0#8 := imask_eq_twoPow hm ▸ imask_ne_zero hm
  rw [State.nextBit, hmask, imask_eq_twoPow hm, BitVec.and_twoPow, BitVec.testBit_toNat]
  cases s.work.ibits.getLsbD m <;> simp [hbit]

/-- Taking a bit off the front of a field takes the highest of its bits. -/
theorem highBits_succ (x v m n : Nat) (hn : n ≤ m) :
    (2 * x + (v.testBit m).toNat) * 2 ^ n + v % 2 ^ m / 2 ^ (m - n)
      = x * 2 ^ (n + 1) + v % 2 ^ (m + 1) / 2 ^ (m + 1 - (n + 1)) := by
  have hpow : 2 ^ m = 2 ^ n * 2 ^ (m - n) := by rw [← Nat.pow_add, Nat.add_sub_cancel' hn]
  have hdiv : v % 2 ^ (m + 1) / 2 ^ (m - n) = (v.testBit m).toNat * 2 ^ n + v % 2 ^ m / 2 ^ (m - n) := by
    rw [mod_two_pow_succ_eq, Nat.add_comm, hpow, ← Nat.mul_assoc, Nat.add_mul_div_right _ _ (Nat.two_pow_pos _),
      Nat.add_comm]
  rw [Nat.add_sub_add_right, hdiv, Nat.pow_succ]
  ring

/-- `GetBits` with `m` bits left in the accumulator, of which it takes the `n` highest (40_stream_bitpacker R183, R184). -/
theorem getBits_of_le {onPull : Nat → Nat → Point} {onDone : Nat → State → Out} {s : State} {m n x : Nat} (hm : m ≤ 8)
    (hn : n ≤ m) (hmask : s.work.imask = 0x80#8 >>> (8 - m)) :
    getBits onPull onDone n x s = onDone (x * 2 ^ n + s.work.ibits.toNat % 2 ^ m / 2 ^ (m - n))
      { s with work := { s.work with imask := s.work.imask >>> n } } := by
  induction n generalizing m x s with
  | zero =>
    have hnone : s.work.ibits.toNat % 2 ^ m / 2 ^ m = 0 := Nat.div_eq_of_lt (Nat.mod_lt _ (Nat.two_pow_pos m))
    simp [getBits, hnone]
  | succ n ih =>
    obtain ⟨m, rfl⟩ : ∃ k, m = k + 1 := ⟨m - 1, by omega⟩
    have hleft : s.work.imask ≠ 0#8 := hmask ▸ imask_ne_zero hm
    have hone : 8 - (m + 1) + 1 = 8 - m := by omega
    have hdrop : s.dropBit.work.imask = 0x80#8 >>> (8 - m) := by
      simp only [dropBit_fields, hmask, ← BitVec.shiftRight_add, hone]
    rw [getBits, if_neg hleft, ih (m := m) (by omega) (by omega) hdrop, nextBit_eq_testBit (by omega) hmask]
    simp only [State.dropBit, highBits_succ _ _ _ _ (Nat.le_of_succ_le_succ hn), ← BitVec.shiftRight_add,
      Nat.add_comm]

/-- The code of a symbol read whole: four bits with `m` left (43_elias_gamma R291 to R293). -/
theorem egRead_of_le {s : State} {m : Nat} (hm : m ≤ 8) (hn : 4 ≤ m) (hmask : s.work.imask = 0x80#8 >>> (8 - m)) :
    egRead 4 0 s = egPutStep (gammaBits (s.work.ibits.toNat % 2 ^ m / 2 ^ (m - 4) + 1)) false
      { s with work := { s.work with imask := s.work.imask >>> 4 } } := by
  rw [egRead, getBits_of_le hm hn hmask, Nat.zero_mul, Nat.zero_add]

/-- Settles O37: a fresh byte has eight bits left, the next symbol four; the codes of the seventeen values are computed. -/
theorem gammaEncoderWritesTheTable : Obligations.GammaEncoderWritesTheTable := by
  unfold Obligations.GammaEncoderWritesTheTable
  refine ⟨by decide, fun s => ⟨fun v hv => ?_, fun hlow => ?_, fun hnone heoi => ?_, fun hend => ?_⟩⟩
  · have hfresh : advance (.egSym 4 0) s = egRead 4 0 (s.refill v) := by simp only [advance, egSymStep, hv]
    rw [hfresh, egRead_of_le (m := 8) le_rfl (by omega) rfl]
    have hbyte : v.toNat % 2 ^ 8 / 2 ^ (8 - 4) = v.toNat / 16 := by rw [Nat.mod_eq_of_lt v.isLt]; rfl
    simp only [refill_fields, hbyte]
    rfl
  · have hstep : advance .egMain s = egRead 4 0 s := rfl
    rw [hstep, egRead_of_le (m := 4) (by omega) le_rfl hlow, hlow]
    simp
  · have hstep : advance .egMain s = egRead 4 0 s := rfl
    rw [hstep, egRead, getBits, if_pos hnone, pull_of_not_eoi _ _ heoi]
  · have hterm : advance (.egSym 4 0) s = egPutStep (gammaBits gammaTerminal) true s := by
      simp only [advance, egSymStep, hend]
    rw [hterm]
    rfl

end Sys2Proof.Machine

/-! The atomic step: it stops at a port request or at the operation's end, and the machine's step runs it, or the command or
wire unit that it reads. -/

namespace Sys2Proof.Machine

/-! ## Where the engine stops -/

/-- A control state that is not RUN is the end of an operation or a port request (10_state R50). -/
theorem seq_of_not_run {s : State} (hq : ∀ p, s.seq ≠ .run p) :
    s.seq = .idle ∨ (∃ p, s.seq = .waitPull p) ∨ ∃ p v, s.seq = .waitPush p v := by
  cases h : s.seq with
  | idle => exact .inl rfl
  | run p => exact absurd h (hq p)
  | waitPull p => exact .inr (.inl ⟨p, rfl⟩)
  | waitPush p v => exact .inr (.inr ⟨p, v, rfl⟩)

/-- Outside RUN the engine is where an atomic step stops. -/
theorem settle_of_not_run {s : State} (n : Nat) (hq : ∀ p, s.seq ≠ .run p) : settle n s = .next s := by
  obtain h | ⟨p, h⟩ | ⟨p, v, h⟩ := seq_of_not_run hq
  · exact settle_idle h
  · exact settle_pull h
  · exact settle_push h

/-- The measure is at most 12 at every point: a byte's eight bits and a few points around them (log 8). -/
theorem mu_le (p : Point) (w : Work) : mu p w ≤ 12 := by
  have hbits := bitsLeft_le w.imask
  cases p with
  | fetch | egMain => simp only [mu]; omega
  | fetched | rleTop | rleCount | lzssFill | egSym | lzpByte => simp only [mu]; split <;> omega
  | _ => simp [mu]

/-- With more points allowed than the measure counts, the engine stops outside RUN: each point lowers the measure. -/
theorem settle_leaves_run {fuel : Nat} {s : State} (h : Inv s) (hmu : ∀ p, s.seq = .run p → mu p s.work < fuel) :
    ∃ t, settle fuel s = .next t ∧ ∀ p, t.seq ≠ .run p := by
  induction fuel generalizing s with
  | zero => exact ⟨s, rfl, fun p hq => absurd (hmu p hq) (Nat.not_lt_zero _)⟩
  | succ fuel ih =>
    by_cases hrun : ∃ p, s.seq = .run p
    · obtain ⟨p, hq⟩ := hrun
      obtain ⟨u, hu, hinv, hfall⟩ := reach_advance h hq
      rw [settle_run hq, hu]
      exact ih hinv fun q hq' => Nat.lt_of_lt_of_le (hfall q hq') (Nat.le_of_lt_succ (hmu p hq))
    · have hstop : ∀ p, s.seq ≠ .run p := not_exists.1 hrun
      exact ⟨s, settle_of_not_run _ hstop, hstop⟩

/-- Settles O60: the bound of the atomic step is above the measure of every point. -/
theorem atomicStepsComplete : Obligations.AtomicStepsComplete := by
  unfold Obligations.AtomicStepsComplete
  intro s h
  have hmu : ∀ p, s.seq = .run p → mu p s.work < settleFuel := fun p _ => Nat.lt_of_le_of_lt (mu_le p s.work) (by decide)
  obtain ⟨t, ht, hstop⟩ := settle_leaves_run h hmu
  exact ⟨t, ht, seq_of_not_run hstop⟩

/-! ## What a step runs -/

/-- A decoder's next bits, `bits`, in the state `s` at the point `p`: one bit of the input accumulator, which leaves `t`; the
first bit of a byte just pulled; or all bits of such a byte (40_stream_bitpacker R183, R186). -/
def TakesBits (d : Decoder) (bits : List Bool) (s t : State) : Prop :=
  s.seq = .run (.fetch d) ∧ (d = .lzss ∨ d = .eg) ∧ s.work.imask ≠ 0#8
      ∧ bits = [decide (s.work.ibits &&& s.work.imask ≠ 0#8)]
      ∧ t = { s with work := { s.work with imask := s.work.imask >>> 1 } }
    ∨ ∃ v : Byte, s.seq = .run (.fetched d) ∧ s.work.rv = some v
      ∧ ((d = .lzss ∨ d = .eg) ∧ bits = [v.getLsbD 7] ∧ t = { s with work := { s.work with ibits := v, imask := 0x40#8 } }
        ∨ (d = .rle ∨ d = .mtf ∨ d = .lzp) ∧ bits = bitsOf 8 v.toNat ∧ t = s)

theorem readsBits_iff (d : Decoder) : d.readsBits = true ↔ d = .lzss ∨ d = .eg := by
  cases d <;> decide

theorem readsBits_eq_false_iff (d : Decoder) : d.readsBits = false ↔ d = .rle ∨ d = .mtf ∨ d = .lzp := by
  cases d <;> decide

/-- The first bit of a byte just pulled is its highest. -/
theorem nextBit_refill (v : Byte) (s : State) : (s.refill v).nextBit = v.getLsbD 7 := by
  have hbit := nextBit_eq_testBit (s := s.refill v) (m := 7) (by decide) rfl
  rw [hbit, BitVec.testBit_toNat]
  rfl

theorem dropBit_refill (v : Byte) (s : State) :
    (s.refill v).dropBit = { s with work := { s.work with ibits := v, imask := 0x40#8 } } := by
  have hmask : (0x80#8 : Byte) >>> 1 = 0x40#8 := by decide
  simp only [State.dropBit, State.refill, hmask]

theorem fetchStep_of_bit {d : Decoder} {s : State} (hd : d.readsBits = true) (hm : s.work.imask ≠ 0#8) :
    fetchStep d s = takeUnitBits d [s.nextBit] s.dropBit := if_pos ⟨hd, hm⟩

theorem fetchStep_of_none {d : Decoder} {s : State} (h : d.readsBits = true → s.work.imask = 0#8) :
    fetchStep d s = .next (s.pull (.fetched d)) := if_neg fun ⟨hd, hm⟩ => hm (h hd)

/-- The point at which a decoder's next bits are there takes them. -/
theorem TakesBits.advance {d : Decoder} {bits : List Bool} {s t : State} (h : TakesBits d bits s t) :
    ∃ p, s.seq = .run p ∧ advance p s = takeUnitBits d bits t := by
  obtain ⟨hq, hd, hm, rfl, rfl⟩ | ⟨v, hq, hv, h⟩ := h
  · exact ⟨_, hq, fetchStep_of_bit ((readsBits_iff d).2 hd) hm⟩
  · refine ⟨_, hq, ?_⟩
    show fetchedStep d s = _
    rw [fetchedStep, hv]
    obtain ⟨hd, rfl, rfl⟩ | ⟨hd, rfl, rfl⟩ := h
    · have hbits := (readsBits_iff d).2 hd
      have hfresh : (s.refill v).work.imask ≠ 0#8 := by simp
      simp only [hbits, if_true]
      rw [fetchStep_of_bit hbits hfresh, nextBit_refill, dropBit_refill]
    · simp [(readsBits_eq_false_iff d).2 hd]

theorem takeUnitBits_of_ok {d : Decoder} {bits rest : List Bool} {i : Instr} {s : State}
    (h : decode d.family s.params.wire (s.work.unit ++ bits) = .ok (i, rest)) :
    takeUnitBits d bits s = exec i ({ s with work := { s.work with unit := [] } }.goto (.unit d)) := by
  rw [takeUnitBits, h]

theorem takeUnitBits_of_error {d : Decoder} {bits : List Bool} {e : DecodeError} {s : State}
    (h : decode d.family s.params.wire (s.work.unit ++ bits) = .error e) :
    takeUnitBits d bits s
      = .next (noteUnit d ({ s with work := { s.work with unit := s.work.unit ++ bits } }.goto (.fetch d))) := by
  rw [takeUnitBits, h]

/-- Taking bits changes neither the parameters nor what has been read of the unit before. -/
theorem TakesBits.unit {d : Decoder} {bits : List Bool} {s t : State} (h : TakesBits d bits s t) :
    t.params = s.params ∧ t.work.unit = s.work.unit := by
  obtain ⟨-, -, -, -, rfl⟩ | ⟨v, -, -, ⟨-, -, rfl⟩ | ⟨-, -, rfl⟩⟩ := h <;> exact ⟨rfl, rfl⟩

/-- With nothing in the script, a decoder whose next bits are there takes them and goes on with its atomic step. -/
theorem TakesBits.step {d : Decoder} {bits : List Bool} {s t : State} (h : TakesBits d bits s t) (hs : s.host.script = []) :
    step s = (takeUnitBits d bits t).andThen (settle (settleFuel - 1)) := by
  obtain ⟨p, hq, hadv⟩ := h.advance
  rw [step_of_empty_script hs hq, engineStep_run hq, hadv]

/-- Settles O50: the CMD write, the decoder's fetch in its three cases, and the unfolding of the atomic step. -/
theorem stepRunsTheDecodedInstruction : Obligations.StepRunsTheDecodedInstruction := by
  unfold Obligations.StepRunsTheDecodedInstruction
  refine ⟨fun s w rest hs => ?_, fun s d bits t hs ht => ?_, fun s d hs hq hm heoi => ?_, fun s p hq => ?_,
    fun s n hq => settle_of_not_run n hq, fun s rest hs => ?_⟩
  · rw [step_of_command hs, popped_of_script hs]
  · have htakes : TakesBits d bits s t := ht
    obtain ⟨hparams, hunit⟩ := htakes.unit
    rw [htakes.step hs, ← hparams, ← hunit]
    refine ⟨fun i rest hi => ?_, fun e he => ?_⟩
    · rw [takeUnitBits_of_ok hi]
      rfl
    · rw [takeUnitBits_of_error he]
      rfl
  · have hpull : advance (.fetch d) s = .next (s.pull (.fetched d)) :=
      fetchStep_of_none fun hd => hm ((readsBits_iff d).1 hd)
    rw [step_of_empty_script hs hq, engineStep_run hq, hpull, pull_of_not_eoi _ _ heoi]
    exact settle_pull rfl
  · exact ⟨engineStep_run hq, fun n => settle_run hq, fun hs => step_of_empty_script hs hq⟩
  · rw [← popped_of_script hs]
    exact step_of_script hs

end Sys2Proof.Machine

/-! The checks of a command and what its acceptance leaves, whatever comes of it. -/

namespace Sys2Proof.Machine

/-! ## The checks of a command -/

/-- A field of a word by its bounds is the field cut out of it (00_scope R7). -/
theorem field_eq_extract (w : Word) (hi lo : Nat) : Claims.field w hi lo = (w.extractLsb' lo (hi + 1 - lo)).toNat := by
  rw [Claims.field, BitVec.extractLsb'_toNat, Nat.shiftRight_eq_div_pow]

theorem legal_rle_iff (s : State) : legal .rle s = true ↔ Claims.RleLegal s.rleCfg := by
  simp only [legal, Bool.and_eq_true, decide_eq_true_eq, Claims.RleLegal, field_eq_extract]
  rfl

theorem legal_lzss_iff (s : State) : legal .lzss s = true ↔ Claims.LzssLegal s.lzssCfg := by
  simp only [legal, Bool.and_eq_true, decide_eq_true_eq, and_assoc, Claims.LzssLegal, field_eq_extract]
  rfl

theorem legal_lzp_iff (s : State) : legal .lzp s = true ↔ Claims.LzpLegal s.lzpCfg := by
  simp only [legal, Bool.and_eq_true, decide_eq_true_eq, and_assoc, Claims.LzpLegal, field_eq_extract]
  rfl

theorem fits_lzss_iff (s : State) : fits .lzss s = true ↔ Claims.field s.lzssCfg 3 0 ≤ s.build.eiMax := by
  rw [fits, decide_eq_true_eq, field_eq_extract]
  rfl

theorem fits_lzp_iff (s : State) : fits .lzp s = true ↔ Claims.field s.lzpCfg 4 0 ≤ s.build.hashOrderMax := by
  rw [fits, decide_eq_true_eq, field_eq_extract]
  rfl

/-- A command that has been accepted and ended at once (40_stream_bitpacker R160, R161; 60_exceptions R374). -/
theorem accept_raise (op : Op) (e : Result) (s : State) :
    (s.accept (commandWord op.command)).raise e = Claims.turnedAway op.codecField op.dirField e s := by
  cases op <;> rfl

/-- Check 2 of 40_stream_bitpacker R161. -/
theorem exec_of_not_legal {op : Op} {s : State} (hb : s.status.busy = false) (hl : ¬ legal op.codec s = true) :
    exec op.command s = .next (Claims.turnedAway op.codecField op.dirField .invalidParameters s) := by
  simp [exec_op_command, runCommand, hb, hl, accept_raise]

/-- Check 3 of 40_stream_bitpacker R161. -/
theorem exec_of_not_fits {op : Op} {s : State} (hb : s.status.busy = false) (hl : legal op.codec s = true)
    (hf : ¬ fits op.codec s = true) :
    exec op.command s = .next (Claims.turnedAway op.codecField op.dirField .bufferTooSmall s) := by
  simp [exec_op_command, runCommand, hb, hl, hf, accept_raise]

/-- A command whose parameters pass the checks makes its operation's first step (40_stream_bitpacker R161, R164). -/
theorem exec_of_legal_fits {op : Op} {s : State} (hb : s.status.busy = false) (hl : legal op.codec s = true)
    (hf : fits op.codec s = true) : exec op.command s = op.start (s.launched op) := by
  simp [exec_op_command, runCommand, hb, hl, hf, State.launched]

/-- Settles O9: the statement's bounds on the registers are the two checks. -/
theorem parametersAreCheckedInOrder : Obligations.ParametersAreCheckedInOrder := by
  unfold Obligations.ParametersAreCheckedInOrder
  intro s hb
  refine ⟨fun hrle => ?_, fun hlzss => ?_, fun hlzp => ?_, fun hlzss hbig => ?_, fun hlzp hbig => ?_⟩
  · have hl := mt (legal_rle_iff s).1 hrle
    exact ⟨exec_of_not_legal (op := .rleEnc) hb hl, exec_of_not_legal (op := .rleDec) hb hl⟩
  · have hl := mt (legal_lzss_iff s).1 hlzss
    exact ⟨exec_of_not_legal (op := .lzssEnc) hb hl, exec_of_not_legal (op := .lzssDec) hb hl⟩
  · have hl := mt (legal_lzp_iff s).1 hlzp
    exact ⟨exec_of_not_legal (op := .lzpEnc) hb hl, exec_of_not_legal (op := .lzpDec) hb hl⟩
  · have hl := (legal_lzss_iff s).2 hlzss
    have hf := mt (fits_lzss_iff s).1 (Nat.not_le.2 hbig)
    exact ⟨exec_of_not_fits (op := .lzssEnc) hb hl hf, exec_of_not_fits (op := .lzssDec) hb hl hf⟩
  · have hl := (legal_lzp_iff s).2 hlzp
    have hf := mt (fits_lzp_iff s).1 (Nat.not_le.2 hbig)
    exact ⟨exec_of_not_fits (op := .lzpEnc) hb hl hf, exec_of_not_fits (op := .lzpDec) hb hl hf⟩

/-! ## The writes of acceptance -/

/-- Both bit accumulators (10_state R42). -/
def Work.accumulators (w : Work) : Byte × Byte × Byte × Byte := (w.obits, w.omask, w.ibits, w.imask)

theorem pull_accumulators (s : State) (p : Point) : (s.pull p).work.accumulators = s.work.accumulators := by
  simp [Work.accumulators]

/-- The outcome waits for a byte, with the accumulators as they were in `s` (20_memory R84). -/
def Out.AsksForByte (o : Out) (s : State) : Prop :=
  ∃ t, o = .next t ∧ (∃ p, t.seq = .waitPull p) ∧ t.work.accumulators = s.work.accumulators

/-- While the end latch is clear a pull is a request (20_memory R84, R88). -/
theorem asks_of_pull {s u : State} (p : Point) (heoi : u.eoi = false) (hu : u.work.accumulators = s.work.accumulators) :
    Out.AsksForByte (.next (u.pull p)) s :=
  ⟨_, rfl, ⟨p, by rw [pull_seq, heoi]; rfl⟩, by rw [pull_accumulators, hu]⟩

/-- EVERY OPERATION'S FIRST STEP ends at its first pull request, with the accumulators as they are: EG.ENC finds the input
accumulator empty, LZSS.ENC room in the window and LZP.ENC room in its block (40_stream_bitpacker R164). -/
theorem start_asks {op : Op} {s : State} (heoi : s.eoi = false) (hempty : s.work.imask = 0#8)
    (hblock : op = .lzpEnc → 1 ≤ s.params.blockLength) : Out.AsksForByte (op.start s) s := by
  cases op with
  | rleEnc => exact asks_of_pull _ heoi rfl
  | rleDec => exact asks_of_pull _ heoi rfl
  | lzssEnc =>
    have hroom : s.params.windowSize - s.params.lookahead < 2 * s.params.windowSize := by
      have := windowSize_pos s.params
      omega
    show Out.AsksForByte (lzssEncStart s) s
    unfold lzssEncStart lzssFillHead
    dsimp only
    rw [if_pos (by exact hroom)]
    exact asks_of_pull _ heoi rfl
  | lzssDec => exact asks_of_pull _ heoi rfl
  | egEnc =>
    show Out.AsksForByte (getBits _ _ 4 0 s) s
    rw [getBits, if_pos hempty]
    exact asks_of_pull _ heoi rfl
  | egDec => exact asks_of_pull _ heoi rfl
  | mtfEnc => exact asks_of_pull _ heoi rfl
  | mtfDec => exact asks_of_pull _ heoi rfl
  | lzpEnc =>
    show Out.AsksForByte (.next (lzpNewBlock s.clearPredictor)) s
    unfold lzpNewBlock lzpBlockHead
    rw [if_pos (by exact hblock rfl)]
    exact asks_of_pull _ heoi rfl
  | lzpDec => exact asks_of_pull _ heoi rfl

/-- What R160 writes, for the CODEC and DIR given, and the two ends of the acceptance step: the operation waits for its first
byte, or has ended with an error (40_stream_bitpacker R160, R161). -/
def AcceptedAs (codec : BitVec 3) (dir : Bool) (t : State) : Prop :=
  t.status.eoi = false ∧ t.status.codec = codec ∧ t.status.dir = dir
    ∧ t.readCount = 0#32 ∧ t.writeCount = 0#32 ∧ t.opCodec = codec ∧ t.opDir = dir ∧ t.eoi = false
    ∧ t.work.obits = 0x00#8 ∧ t.work.omask = 0x80#8 ∧ t.work.ibits = 0x00#8 ∧ t.work.imask = 0x00#8
    ∧ ((t.status.busy = true ∧ t.status.done = false ∧ t.status.result = .ok ∧ ∃ p, t.seq = .waitPull p)
      ∨ (t.status.busy = false ∧ t.status.done = true ∧ t.status.result ≠ .ok ∧ t.seq = .idle))

theorem acceptedAs_turnedAway (codec : BitVec 3) (dir : Bool) {e : Result} (he : e ≠ .ok) (s : State) :
    AcceptedAs codec dir (Claims.turnedAway codec dir e s) :=
  ⟨rfl, rfl, rfl, rfl, rfl, rfl, rfl, rfl, rfl, rfl, rfl, rfl, .inr ⟨rfl, rfl, he, rfl⟩⟩

/-- What acceptance has written by the time of the operation's first step (40_stream_bitpacker R160). -/
theorem launched_writes (op : Op) (s : State) :
    (s.launched op).status = ⟨true, false, false, .ok, op.codecField, op.dirField⟩
    ∧ (s.launched op).opCodec = op.codecField ∧ (s.launched op).opDir = op.dirField ∧ (s.launched op).eoi = false
    ∧ (s.launched op).work = { s.work with obits := 0x00#8, omask := 0x80#8, ibits := 0x00#8, imask := 0x00#8 } := by
  obtain ⟨hcodec, hdir⟩ := commandWord_op op
  simp [State.launched, Status.accepted, hcodec, hdir]

/-- An operation's first step keeps what acceptance has written. -/
theorem acceptedAs_start {op : Op} {s : State} (hl : legal op.codec s = true) :
    ∃ t, op.start (s.launched op) = .next t ∧ AcceptedAs op.codecField op.dirField t := by
  obtain ⟨hstatus, hcodec, hdir, heoi, hwork⟩ := launched_writes op s
  obtain ⟨-, -, hrc, hwc⟩ := launched_frame op s
  have hblock : op = .lzpEnc → 1 ≤ (s.launched op).params.blockLength := by
    rintro rfl
    obtain ⟨-, hone, -⟩ := (legal_lzp_iff s).1 hl
    rw [field_eq_extract] at hone
    exact hone
  obtain ⟨t, ht, ⟨p, hp⟩, hacc⟩ := start_asks heoi (by rw [hwork]) hblock
  have hf := ensures_start op _ t ht
  have hkept : t.status = (s.launched op).status := hf.status.resolve_right fun ⟨hidle, _⟩ => by simp [hp] at hidle
  simp only [Work.accumulators, hwork, Prod.mk.injEq] at hacc
  refine ⟨t, ht, ?_⟩
  simp [AcceptedAs, hkept, hstatus, hf.readCount, hrc, hf.writeCount, hwc, hf.opCodec, hcodec, hf.opDir, hdir, hf.eoi, heoi,
    hacc, hp]

theorem exec_command_accepted {op : Op} {s : State} (hb : s.status.busy = false) :
    ∃ t, exec op.command s = .next t ∧ AcceptedAs op.codecField op.dirField t := by
  by_cases hl : legal op.codec s = true
  · by_cases hf : fits op.codec s = true
    · rw [exec_of_legal_fits hb hl hf]
      exact acceptedAs_start hl
    · exact ⟨_, exec_of_not_fits hb hl hf, acceptedAs_turnedAway _ _ (by decide) s⟩
  · exact ⟨_, exec_of_not_legal hb hl, acceptedAs_turnedAway _ _ (by decide) s⟩

/-- Settles O7: a word is a command, which starts or is turned away by a check, or it is reserved and turned away. -/
theorem acceptanceWrites : Obligations.AcceptanceWrites := by
  unfold Obligations.AcceptanceWrites
  intro s w hb
  show ∃ t, exec (decodeCommand w) s = .next t ∧ AcceptedAs (commandCodec w) (commandDir w) t
  by_cases hop : ∃ op : Op, decodeCommand w = op.command
  · obtain ⟨op, hop⟩ := hop
    have hword : w = commandWord op.command := by rw [← hop, commandWord_decodeCommand]
    obtain ⟨hcodec, hdir⟩ := commandWord_op op
    rw [hop, hword, hcodec, hdir]
    exact exec_command_accepted hb
  · rw [exec_reserved (decodeCommand_family w) (not_exists.1 hop), commandWord_decodeCommand, refuseCommand_of_not_busy hb]
    exact ⟨_, rfl, acceptedAs_turnedAway _ _ (by decide) s⟩

end Sys2Proof.Machine

/-! The bit packer: what PutBits holds and pushes, and how GetBits goes on over the end of a byte. -/

namespace Sys2Proof.Machine

open Claims (Holds byteOf)

/-! ## PutBits -/

/-- One more bit of a bit string is the lowest of its value. -/
theorem ofBits_concat (l : List Bool) (b : Bool) : ofBits 0 (l ++ [b]) = 2 * ofBits 0 l + b.toNat := by
  rw [ofBits_append]
  rfl

/-- `PutBit(b)` writes the bit just below those held (40_stream_bitpacker R180). -/
theorem putBit_value {held : List Bool} {obits omask : Byte} (h : Holds held obits omask) (b : Bool) :
    (if b then obits ||| omask else obits) = BitVec.ofNat 8 (ofBits 0 (held ++ [b]) * 2 ^ (7 - held.length)) := by
  obtain ⟨hlen, rfl, rfl⟩ := h
  have hsplit : 8 - held.length = 7 - held.length + 1 := by omega
  have hvalue : ofBits 0 (held ++ [b]) * 2 ^ (7 - held.length)
      = ofBits 0 held * 2 ^ (8 - held.length) + b.toNat * 2 ^ (7 - held.length) := by
    rw [ofBits_concat, hsplit, Nat.pow_succ]
    ring
  rw [hvalue]
  cases b with
  | false => simp
  | true =>
    have hmask : 0x80#8 >>> held.length = BitVec.ofNat 8 (2 ^ (7 - held.length)) := by
      generalize held.length = n at hlen
      interval_cases n <;> rfl
    have hlow : 2 ^ (7 - held.length) < 2 ^ (8 - held.length) := Nat.pow_lt_pow_right (by decide) (by omega)
    have hor := Nat.two_pow_add_eq_or_of_lt hlow (ofBits 0 held)
    rw [if_pos rfl, hmask, ← BitVec.ofNat_or, Bool.toNat_true, Nat.one_mul, Nat.mul_comm, hor]

/-- Fewer than seven bits and one more are held (40_stream_bitpacker R180). -/
theorem holds_putBit {held : List Bool} {obits omask : Byte} (h : Holds held obits omask) (b : Bool) (hlen : held.length < 7) :
    Holds (held ++ [b]) (if b then obits ||| omask else obits) (omask >>> 1) := by
  refine ⟨by simp; omega, ?_, ?_⟩
  · rw [h.2.1, ← BitVec.shiftRight_add, List.length_append, List.length_singleton]
  · rw [putBit_value h b, List.length_append, List.length_singleton]
    congr 3
    omega

/-- The mask leaves the byte with its eighth bit. -/
theorem omask_shift_eq_zero_iff {held : List Bool} {obits omask : Byte} (h : Holds held obits omask) :
    omask >>> 1 = 0#8 ↔ held.length = 7 := by
  obtain ⟨hlen, rfl, -⟩ := h
  generalize held.length = n at hlen
  interval_cases n <;> decide

/-- The eighth bit makes the byte of all eight. -/
theorem putBit_full {held : List Bool} {obits omask : Byte} (h : Holds held obits omask) (b : Bool) (hlen : held.length = 7) :
    (if b then obits ||| omask else obits) = byteOf (held ++ [b]) := by
  rw [putBit_value h b, hlen, byteOf]
  simp

/-- PutBits with fewer than eight bits in all holds them (40_stream_bitpacker R180, R181). -/
theorem packBits_holds {bits held : List Bool} {obits omask : Byte} (h : Holds held obits omask)
    (hlen : (held ++ bits).length < 8) :
    (packBits bits obits omask).pending = none
      ∧ Holds (held ++ bits) (packBits bits obits omask).obits (packBits bits obits omask).omask := by
  induction bits generalizing held obits omask with
  | nil => exact ⟨rfl, by rwa [List.append_nil]⟩
  | cons b rest ih =>
    have hshort : held.length < 7 := by simp at hlen; omega
    have hmask : omask >>> 1 ≠ 0#8 := mt (omask_shift_eq_zero_iff h).1 (by omega)
    have hrest : held ++ b :: rest = held ++ [b] ++ rest := by simp
    simp only [packBits, hmask, if_false]
    rw [hrest] at hlen ⊢
    exact ih (holds_putBit h b hshort) hlen

/-- PutBits with eight bits or more in all stops at the push of the first eight (40_stream_bitpacker R180, R181). -/
theorem packBits_full {bits held : List Bool} {obits omask : Byte} (h : Holds held obits omask)
    (hlen : 8 ≤ (held ++ bits).length) :
    packBits bits obits omask = ⟨byteOf ((held ++ bits).take 8), 0#8, some ((held ++ bits).drop 8)⟩ := by
  induction bits generalizing held obits omask with
  | nil =>
    have := h.1
    simp at hlen
    omega
  | cons b rest ih =>
    have hrest : held ++ b :: rest = held ++ [b] ++ rest := by simp
    rw [hrest] at hlen ⊢
    by_cases hfull : held.length = 7
    · have hmask : omask >>> 1 = 0#8 := (omask_shift_eq_zero_iff h).2 hfull
      have height : (held ++ [b]).length = 8 := by simp [hfull]
      simp only [packBits, hmask, if_true]
      rw [putBit_full h b hfull, List.take_left' height, List.drop_left' height]
    · have hshort : held.length < 7 := by have := h.1; omega
      have hmask : omask >>> 1 ≠ 0#8 := mt (omask_shift_eq_zero_iff h).1 hfull
      simp only [packBits, hmask, if_false]
      exact ih (holds_putBit h b hshort) hlen

/-- Settles O23: the byte is full exactly when eight bits are there; after the push each user puts the rest. -/
theorem putBitsPacksBytes : Obligations.PutBitsPacksBytes := by
  unfold Obligations.PutBitsPacksBytes
  refine ⟨fun held bits obits omask h => ⟨packBits_holds h, packBits_full h⟩, fun held bits onPush onDone s h => ⟨?_, ?_⟩,
    fun rest s => ⟨rfl, fun last => rfl, rfl⟩⟩
  · intro hlen
    obtain ⟨hnone, hholds⟩ := packBits_holds h hlen
    refine ⟨_, _, hholds, ?_⟩
    simp only [putBits, hnone]
  · intro hlen
    simp only [putBits, packBits_full h hlen]
    rfl

/-! ## GetBits -/

/-- `GetBits` for more bits than the `m` that are left takes these and asks for a byte at that place (40_stream_bitpacker
R183, R184). -/
theorem getBits_of_lt {onPull : Nat → Nat → Point} {onDone : Nat → State → Out} {s : State} {m n x : Nat} (hm : m ≤ 8)
    (hn : m < n) (hmask : s.work.imask = 0x80#8 >>> (8 - m)) :
    getBits onPull onDone n x s = .next (({ s with work := { s.work with imask := 0#8 } } : State).pull
      (onPull (n - m) (x * 2 ^ m + s.work.ibits.toNat % 2 ^ m))) := by
  induction m generalizing n x s with
  | zero =>
    obtain ⟨n, rfl⟩ : ∃ k, n = k + 1 := ⟨n - 1, by omega⟩
    have hnone : s.work.imask = 0#8 := hmask.trans (by decide)
    have hsame : ({ s with work := { s.work with imask := 0#8 } } : State) = s := by rw [← hnone]
    rw [getBits, if_pos hnone, hsame]
    simp only [Nat.pow_zero, Nat.mod_one, Nat.mul_one, Nat.sub_zero, Nat.add_zero]
  | succ m ih =>
    obtain ⟨n, rfl⟩ : ∃ k, n = k + 1 := ⟨n - 1, by omega⟩
    have hleft : s.work.imask ≠ 0#8 := hmask ▸ imask_ne_zero hm
    have hone : 8 - (m + 1) + 1 = 8 - m := by omega
    have hdrop : s.dropBit.work.imask = 0x80#8 >>> (8 - m) := by
      simp only [dropBit_fields, hmask, ← BitVec.shiftRight_add, hone]
    have hvalue : (2 * x + s.nextBit.toNat) * 2 ^ m + s.work.ibits.toNat % 2 ^ m
        = x * 2 ^ (m + 1) + s.work.ibits.toNat % 2 ^ (m + 1) := by
      rw [mod_two_pow_succ_eq, nextBit_eq_testBit (by omega) hmask, Nat.pow_succ]
      ring
    rw [getBits, if_neg hleft, ih (by omega) (by omega) hdrop]
    simp only [State.dropBit, hvalue, Nat.add_sub_add_right]

/-- Settles O24: the bits are all there, or the accumulator runs out on the way. -/
theorem getBitsTakesFromTheMaskDown : Obligations.GetBitsTakesFromTheMaskDown := by
  unfold Obligations.GetBitsTakesFromTheMaskDown
  intro onPull onDone s m n x hm _ hmask
  exact ⟨fun hn => getBits_of_le hm hn hmask, fun hn => getBits_of_lt hm hn hmask⟩

end Sys2Proof.Machine

/-! The LZSS match search: the length at a candidate is the longest run of equal bytes within the cap, and the scan keeps the
leftmost of the longest. -/

namespace Sys2Proof.Machine

/-! ## One candidate -/

/-- The first `l` bytes at the candidate `i` and at the cursor `r` are the same. -/
def AgreeUpTo (win : Nat → Byte) (i r l : Nat) : Prop := ∀ j, j < l → win (i + j) = win (r + j)

/-- From `j` on, the count reaches `l` when the cap allows it and no byte before it differs. -/
theorem le_extendMatch_iff {win : Nat → Byte} {i r left j l : Nat} :
    l ≤ extendMatch win i r left j ↔ l ≤ j + left ∧ ∀ k, j ≤ k → k < l → win (i + k) = win (r + k) := by
  induction left generalizing j with
  | zero => exact ⟨fun h => ⟨h, fun k hjk hkl => absurd (hjk.trans_lt hkl) (Nat.not_lt.2 h)⟩, fun h => h.1⟩
  | succ left ih =>
    unfold extendMatch
    split
    · rename_i hj
      rw [ih, Nat.add_right_comm, Nat.add_assoc]
      refine and_congr_right fun _ => ⟨fun h k hjk hkl => ?_, fun h k hjk hkl => h k (by omega) hkl⟩
      obtain rfl | hlt := hjk.eq_or_lt
      · exact hj
      · exact h k hlt hkl
    · rename_i hj
      refine ⟨fun h => ⟨by omega, fun k hjk hkl => by omega⟩, fun ⟨_, h⟩ => ?_⟩
      by_contra hlt
      exact hj (h j le_rfl (by omega))

/-- THE MATCH LENGTH is the length of the longest run of equal bytes within the cap (41_lzss R202). -/
theorem le_matchLength_iff {win : Nat → Byte} {i r f1 l : Nat} (hf : 1 ≤ f1) :
    l ≤ matchLength win i r f1 ↔ l ≤ f1 ∧ AgreeUpTo win i r l := by
  unfold matchLength
  split
  · rename_i hfirst
    rw [le_extendMatch_iff, Nat.add_sub_cancel' hf]
    refine and_congr_right fun _ => ⟨fun h j hj => ?_, fun h j _ hj => h j hj⟩
    cases j with
    | zero => exact hfirst
    | succ j => exact h (j + 1) (by omega) hj
  · rename_i hfirst
    refine ⟨fun h => ⟨by omega, fun j hj => by omega⟩, fun ⟨_, h⟩ => ?_⟩
    by_contra hlt
    exact hfirst (h 0 (by omega))

/-- A candidate below the cursor is compared on bytes below `r + f1` only (41_lzss R202). -/
theorem matchLength_congr {win win' : Nat → Byte} {i r f1 : Nat} (hf : 1 ≤ f1) (hi : i < r)
    (h : ∀ a, a < r + f1 → win' a = win a) : matchLength win' i r f1 = matchLength win i r f1 := by
  refine eq_of_forall_le_iff fun l => ?_
  rw [le_matchLength_iff hf, le_matchLength_iff hf]
  refine and_congr_right fun hl => forall₂_congr fun j hj => ?_
  rw [h (i + j) (by omega), h (r + j) (by omega)]

/-! ## The scan -/

/-- `best` is the leftmost of the longest matches among the candidates from `o` up to `i`, or `(0, 1)` when none is longer
than one byte (41_lzss R202; 90_conflicts C1). -/
structure BestBefore (win : Nat → Byte) (r f1 o i : Nat) (best : Nat × Nat) : Prop where
  longest : ∀ c, o ≤ c → c < i → matchLength win c r f1 ≤ best.2
  found : best = (0, 1) ∨ (2 ≤ best.2 ∧ o ≤ best.1 ∧ best.1 < i ∧ matchLength win best.1 r f1 = best.2
    ∧ ∀ c, o ≤ c → c < best.1 → matchLength win c r f1 < best.2)

theorem BestBefore.one_le {win : Nat → Byte} {r f1 o i : Nat} {best : Nat × Nat} (h : BestBefore win r f1 o i best) :
    1 ≤ best.2 := by
  obtain rfl | ⟨htwo, -⟩ := h.found
  · exact le_rfl
  · omega

theorem bestBefore_start (win : Nat → Byte) (r f1 o : Nat) : BestBefore win r f1 o o (0, 1) :=
  ⟨fun _ hlo hhi => absurd hlo (Nat.not_le.2 hhi), .inl rfl⟩

/-- One more candidate replaces the best so far when it is strictly longer. -/
theorem BestBefore.step {win : Nat → Byte} {r f1 o i : Nat} {best : Nat × Nat} (h : BestBefore win r f1 o i best)
    (hoi : o ≤ i) :
    BestBefore win r f1 o (i + 1) (if best.2 < matchLength win i r f1 then (i, matchLength win i r f1) else best) := by
  have hone := h.one_le
  split
  · rename_i hlonger
    have hbefore : ∀ c, o ≤ c → c < i → matchLength win c r f1 < matchLength win i r f1 := fun c hlo hhi =>
      (h.longest c hlo hhi).trans_lt hlonger
    refine ⟨fun c hlo hhi => ?_, .inr ⟨by dsimp only; omega, hoi, Nat.lt_succ_self i, rfl, hbefore⟩⟩
    obtain hlt | rfl := (Nat.le_of_lt_succ hhi).lt_or_eq
    · exact (hbefore c hlo hlt).le
    · exact le_rfl
  · rename_i hnot
    refine ⟨fun c hlo hhi => ?_, h.found.imp_right fun ⟨htwo, hlo, hhi, hrest⟩ => ⟨htwo, hlo, by omega, hrest⟩⟩
    obtain hlt | rfl := (Nat.le_of_lt_succ hhi).lt_or_eq
    · exact h.longest c hlo hlt
    · exact Nat.not_lt.1 hnot

/-- THE SCAN keeps the best of the candidates it has passed. -/
theorem bestBefore_scanMatches {win : Nat → Byte} {r f1 o left i : Nat} {best : Nat × Nat}
    (h : BestBefore win r f1 o i best) (hoi : o ≤ i) :
    BestBefore win r f1 o (i + left) (scanMatches win r f1 left i best) := by
  induction left generalizing i best with
  | zero => exact h
  | succ left ih =>
    have hnext := ih (h.step hoi) (hoi.trans (Nat.le_succ i))
    rwa [Nat.add_right_comm] at hnext

theorem bestBefore_bestMatch (win : Nat → Byte) (s r f1 : Nat) :
    BestBefore win r f1 s (s + (r - s)) (bestMatch win s r f1) :=
  bestBefore_scanMatches (bestBefore_start win r f1 s) le_rfl

/-- The scan depends on its candidates' match lengths alone. -/
theorem scanMatches_congr {win win' : Nat → Byte} {r f1 left i : Nat} (best : Nat × Nat)
    (h : ∀ c, i ≤ c → c < i + left → matchLength win' c r f1 = matchLength win c r f1) :
    scanMatches win' r f1 left i best = scanMatches win r f1 left i best := by
  induction left generalizing i best with
  | zero => rfl
  | succ left ih =>
    unfold scanMatches
    rw [h i le_rfl (by omega)]
    exact ih _ fun c hlo hhi => h c (by omega) (by omega)

/-- Settles O25: the scan's best candidate has the longest of the match lengths, each a longest run of equal bytes. -/
theorem matchSearchLongestLeftmost : Obligations.MatchSearchLongestLeftmost := by
  unfold Obligations.MatchSearchLongestLeftmost
  intro win s r f1 hf
  dsimp only
  have hbest := bestBefore_bestMatch win s r f1
  refine ⟨fun i hlo hhi l hl hagree => ?_, ?_, fun win' h => ?_⟩
  · exact ((le_matchLength_iff hf).2 ⟨hl, hagree⟩).trans (hbest.longest i hlo (by omega))
  · obtain hnone | ⟨htwo, hlo, hhi, hlen, hleft⟩ := hbest.found
    · exact .inl hnone
    · obtain ⟨hcap, hagree⟩ := (le_matchLength_iff hf).1 hlen.ge
      refine .inr ⟨htwo, hcap, hlo, by omega, hagree, fun i hi him => ?_⟩
      have hdiffer := mt (fun hagree => (le_matchLength_iff hf).2 ⟨hcap, hagree⟩) (Nat.not_le.2 (hleft i hi him))
      simpa only [AgreeUpTo, not_forall, exists_prop] using hdiffer
  · exact scanMatches_congr _ fun c hlo hhi => matchLength_congr hf (by omega) h

end Sys2Proof.Machine

/-! The two LZSS operations: their start, the encoder's window, units and end, the decoder's dictionary; and what End does in
every decoder. -/

namespace Sys2Proof.Machine

open Claims (started ended lzssParams field)

/-! ## Used addresses, accepted commands, atomic steps of one point -/

/-- An address of the used part is read (20_memory R81). -/
theorem memRead_of_lt {op : Op} {sp : Space} {a : Nat} {s : State} (k : Byte → Out) (h : a < usedPart op s.params sp) :
    memRead op sp a s k = k (s.peek sp a) := if_pos h

/-- An address of the used part is written (20_memory R81). -/
theorem memWrite_of_lt {op : Op} {sp : Space} {a : Nat} {v : Byte} {s : State} (k : State → Out)
    (h : a < usedPart op s.params sp) : memWrite op sp a v s k = k (s.poke sp a v) := if_pos h

/-- An accepted command is where it waits for its first byte but for the control state, parameters aside (40_stream_bitpacker
R160). -/
theorem launched_started (op : Op) (p : Point) (s : State) :
    s.launched op
      = { started op.codecField op.dirField (s.launched op).params s.work p s with seq := s.seq } := by
  cases op <;> rfl

/-- An atomic step that ends at the first point it passes. -/
theorem engineStep_of_advance {s t : State} {p : Point} (hq : s.seq = .run p) (ha : advance p s = .next t)
    (ht : ∀ p, t.seq ≠ .run p) : engineStep s = .next t := by
  rw [engineStep_run hq, ha]
  exact settle_of_not_run _ ht

/-! ## The start -/

/-- LZSS_CFG's fields are the latched parameters (10_state R33, R41). -/
theorem params_launched_lzss {op : Op} (hop : op.codec = .lzss) (s : State) : (s.launched op).params = lzssParams s := by
  have hfill : BitVec.ofNat 8 (field s.lzssCfg 23 16) = lzssFill s.lzssCfg := by
    rw [field_eq_extract]
    exact BitVec.ofNat_toNat _ _ |>.trans (BitVec.setWidth_eq _)
  have hlatch : ∀ u : State, (latch .lzss u).params = { u.params with
      ei := field u.lzssCfg 3 0, ej := field u.lzssCfg 7 4, p := field u.lzssCfg 15 8, fill := lzssFill u.lzssCfg } := by
    intro u
    simp only [field_eq_extract]
    rfl
  rw [State.launched, hop, hlatch, lzssParams, hfill]
  rfl

/-- The start of LZSS.ENC: the window below N - F is filled, the fill goes on there (41_lzss R201). -/
theorem lzssEncStart_eq {s : State} (heoi : s.eoi = false) :
    lzssEncStart s = .next { s.fillWindow with
      work := { s.work with bufferend := s.params.windowSize - s.params.lookahead }, seq := .waitPull (.lzssFill false) } := by
  have hroom : s.params.windowSize - s.params.lookahead < 2 * s.params.windowSize := by
    have := windowSize_pos s.params
    omega
  unfold lzssEncStart lzssFillHead
  exact congrArg _ ((if_pos hroom).trans (pull_of_not_eoi _ _ heoi))

/-- The start of LZSS.DEC: the dictionary below N - F is filled, the write cursor stands there (41_lzss R221). -/
theorem lzssDecStart_eq {s : State} (heoi : s.eoi = false) :
    lzssDecStart s = .next { s.fillWindow with
      work := { s.work with wr := s.params.windowSize - s.params.lookahead, unit := [] }
      seq := .waitPull (.fetched .lzss) } := by
  unfold lzssDecStart State.firstPull
  exact congrArg _ (pull_of_not_eoi _ _ heoi)

/-- The filled part of WIN reads as FILL (41_lzss R201, R221). -/
theorem peek_filled {s : State} {v : Byte} {n a : Nat} (hwin : s.win = Ram.filled v n 0) (ha : a < n) :
    s.peek .win a = v := by
  simp [peek_eq, Ram.look, hwin, find_filled, ha]

/-- Settles O11: both operations are accepted, latch and fill alike; each then makes its own first request. -/
theorem lzssCommandsStart : Obligations.LzssCommandsStart := by
  unfold Obligations.LzssCommandsStart
  intro s hb hlegal hfits
  have hl := (legal_lzss_iff s).2 hlegal
  have hf := (fits_lzss_iff s).2 hfits
  constructor
  · have hexec := exec_of_legal_fits (op := .lzssEnc) hb hl hf
    rw [launched_started .lzssEnc (.lzssFill false), params_launched_lzss rfl] at hexec
    exact ⟨_, hexec.trans (lzssEncStart_eq rfl), rfl, fun a ha => peek_filled rfl ha⟩
  · have hexec := exec_of_legal_fits (op := .lzssDec) hb hl hf
    rw [launched_started .lzssDec (.fetched .lzss), params_launched_lzss rfl] at hexec
    exact ⟨_, hexec.trans (lzssDecStart_eq rfl), rfl, fun a ha => peek_filled rfl ha⟩

/-! ## LZSS.ENC: the window -/

/-- The byte of a fill is stored at `bufferend`, which advances (41_lzss R201). -/
def State.buffered (v : Byte) (s : State) : State :=
  { s with win := Ram.store .win s.work.bufferend v s.win, work := { s.work with bufferend := s.work.bufferend + 1 } }

theorem peek_buffered {s : State} (v : Byte) (hwf : Ram.wf .win s.win) (a : Nat) :
    (s.buffered v).peek .win a = if a = s.work.bufferend then v else s.peek .win a :=
  peek_poke s .win s.work.bufferend a v hwf

/-- A byte of the fill is stored; then another is pulled below 2N, or the fill is done (41_lzss R201). -/
theorem lzssFillStep_of_byte {s : State} {v : Byte} (again : Bool) (hv : s.work.rv = some v)
    (hb : s.work.bufferend < 2 * s.params.windowSize) :
    lzssFillStep again s = if s.work.bufferend + 1 < 2 * s.params.windowSize
      then .next ((s.buffered v).pull (.lzssFill again)) else .next (lzssFillDone again (s.buffered v)) := by
  unfold lzssFillStep
  simp only [hv]
  rw [memWrite_of_lt _ hb]
  rfl

theorem lzssFillStep_of_end {s : State} (again : Bool) (hv : s.work.rv = none) :
    lzssFillStep again s = .next (lzssFillDone again s) := by
  simp only [lzssFillStep, hv]

/-- Settles O27: a byte is stored and the loop's bound is tested; End goes where the bound does. -/
theorem lzssWindowFills : Obligations.LzssWindowFills := by
  unfold Obligations.LzssWindowFills
  intro s again hwf hb
  refine ⟨fun v hv heoi => ?_, fun hv => ?_⟩
  · have hstep := lzssFillStep_of_byte again hv hb
    by_cases hmore : s.work.bufferend + 1 < 2 * 2 ^ s.params.ei
    · have hpull := (hstep.trans (if_pos hmore)).trans (congrArg _ (pull_of_not_eoi _ _ heoi))
      exact ⟨_, hpull, (if_pos hmore).symm, peek_buffered v hwf⟩
    · refine ⟨_, hstep.trans (if_neg hmore), .trans ?_ (if_neg hmore).symm, ?_⟩
      · cases again <;> rfl
      · cases again <;> exact peek_buffered v hwf
  · have hstep : advance (.lzssFill again) s = _ := lzssFillStep_of_end again hv
    rw [hstep]
    cases again <;> rfl

/-- A pull in one form, with and without the end latch (20_memory R84, R88). -/
theorem pull_eq (s : State) (p : Point) :
    s.pull p = { s with
      work := { s.work with rv := if s.eoi then none else s.work.rv }, seq := if s.eoi then .run p else .waitPull p } := by
  unfold State.pull
  split <;> rfl

/-- The slide ends at the head of the refill (41_lzss R204). -/
theorem lzssAfterUnit_of_le {s : State} (hend : s.work.bufferend ≤ 2 * s.params.windowSize)
    (hr : 2 * s.params.windowSize - s.params.lookahead ≤ s.work.r + s.work.mlen) :
    lzssAfterUnit s = .next (s.advanceCursor.slideWindow.pull (.lzssFill true)) := by
  have hroom : s.work.bufferend - s.params.windowSize < 2 * s.params.windowSize := by
    have := windowSize_pos s.params
    omega
  unfold lzssAfterUnit lzssFillHead
  exact (if_pos hr).trans (congrArg _ (if_pos hroom))

/-- A written byte of the upper half is read N below after the slide (41_lzss R204). -/
theorem peek_slideWindow {s : State} {a : Nat} (ha : a < s.params.windowSize)
    (hw : Ram.find (a + s.params.windowSize) s.win ≠ none) :
    s.slideWindow.peek .win a = s.peek .win (a + s.params.windowSize) := by
  obtain ⟨v, hv⟩ := Option.ne_none_iff_exists'.1 hw
  simp [peek_eq, Ram.look, find_slide, ha, hv]

/-- Settles O28: below the bound only the cursor moves; at it the window slides and the refill's pull follows. -/
theorem windowSlides : Obligations.WindowSlides := by
  unfold Obligations.WindowSlides
  intro s _ hend
  refine ⟨fun hr => if_neg (Nat.not_le.2 hr), fun hr => ?_⟩
  have hstep := (lzssAfterUnit_of_le hend hr).trans (congrArg _ (pull_eq _ _))
  exact ⟨_, hstep, rfl, fun a => peek_slideWindow (s := s.advanceCursor)⟩

/-! ## LZSS.ENC: units and end -/

/-- The guard of the main loop's search is met (41_lzss R202, R206). -/
theorem lzssMainStep_of_lt {s : State} (hr : s.work.r < s.work.bufferend)
    (hend : s.work.bufferend ≤ 2 * s.params.windowSize) :
    lzssMainStep s =
      let f1 := min s.params.lookahead (s.work.bufferend - s.work.r)
      let m := bestMatch (s.peek .win) s.work.s s.work.r f1
      lzssPutStep (lzssUnitBits s.params (s.peek .win s.work.r) m.1 m.2)
        { s with work := { s.work with f1 := f1, mpos := m.1, mlen := if m.2 ≤ s.params.p then 1 else m.2 } } := by
  unfold lzssMainStep
  rw [if_pos hr, if_pos (by exact hend)]

/-- A short match is sent as the cursor's byte (41_lzss R203; 30_encoding R125). -/
theorem lzssUnitBits_literal {q : Params} {mlen : Nat} (c : Byte) (mpos : Nat) (h : mlen ≤ q.p) :
    lzssUnitBits q c mpos mlen = encode q.wire (.lzssLiteral c) := if_pos h

/-- A long match is sent as its position modulo N and its length above P (41_lzss R203; 30_encoding R125, R126): both fields
hold their values. -/
theorem lzssUnitBits_reference {q : Params} {mlen : Nat} (c : Byte) (mpos : Nat) (hei : q.ei ≤ 15) (hej : q.ej ≤ 8)
    (h : q.p < mlen) (hlen : mlen - q.p < 2 ^ q.ej) :
    let u := Instr.lzssReference (BitVec.ofNat 15 (mpos % 2 ^ q.ei)) (BitVec.ofNat 8 (mlen - q.p))
    lzssUnitBits q c mpos mlen = encode q.wire u ∧ u.wf q.wire = true := by
  have hpos : mpos % 2 ^ q.ei < 2 ^ q.ei := Nat.mod_lt _ (Nat.two_pow_pos _)
  have hposnat : (BitVec.ofNat 15 (mpos % 2 ^ q.ei)).toNat = mpos % 2 ^ q.ei :=
    Nat.mod_eq_of_lt (hpos.trans_le (Nat.pow_le_pow_right (by decide) hei))
  have hlennat : (BitVec.ofNat 8 (mlen - q.p)).toNat = mlen - q.p :=
    Nat.mod_eq_of_lt (hlen.trans_le (Nat.pow_le_pow_right (by decide) hej))
  constructor
  · rw [lzssUnitBits, if_neg (Nat.not_le.2 h), Params.windowSize, and_mask]
    simp only [encode, Params.wire, hposnat, hlennat]
  · simp only [Instr.wf, Params.wire, hposnat, hlennat, hpos, hlen, decide_true, Bool.and_self]

/-- The best match is no longer than the cap (41_lzss R202). -/
theorem bestMatch_le (win : Nat → Byte) (s r : Nat) {f1 : Nat} (hf : 1 ≤ f1) : (bestMatch win s r f1).2 ≤ f1 :=
  (scanMatches_le win r f1 _ _ _ hf ⟨le_rfl, hf⟩).2

/-- Settles O26: the two lengths of a match, and the encoding of either unit. -/
theorem lzssEncoderEmitsTheUnit : Obligations.LzssEncoderEmitsTheUnit := by
  unfold Obligations.LzssEncoderEmitsTheUnit
  intro s hparams hr hend f1 m
  obtain ⟨-, hei, -, hejei, hsum, hp, -⟩ := hparams
  have hstep : advance .lzssMain s = putBits (lzssUnitBits s.params (s.peek .win s.work.r) m.1 m.2) Point.lzssPut
      lzssAfterUnit { s with work := { s.work with f1 := f1, mpos := m.1, mlen := if m.2 ≤ s.params.p then 1 else m.2 } } :=
    lzssMainStep_of_lt hr hend
  have hej := Nat.two_pow_pos s.params.ej
  have hmax : m.2 ≤ f1 := bestMatch_le _ _ _ (by omega)
  rw [hstep]
  by_cases hshort : m.2 ≤ s.params.p
  · simp only [hshort, decide_true, if_true, lzssUnitBits_literal _ _ hshort]
    exact ⟨trivial, rfl, nofun⟩
  · obtain ⟨hbits, hwf⟩ := lzssUnitBits_reference (q := s.params) (s.peek .win s.work.r) m.1 hei (by omega)
      (Nat.not_le.1 hshort) (by omega)
    simp only [hbits, hshort, decide_false, Bool.false_eq_true, if_false]
    exact ⟨trivial, hwf, fun _ => by omega⟩

/-- `Flush()` at an operation's end pushes the held bits, or finishes (40_stream_bitpacker R182). -/
theorem flushThenFinish_eq (p : Point) (s : State) :
    flushThenFinish p s
      = .next (if s.work.omask = 0x80#8 then ended .ok s else { s with seq := .waitPush p s.work.obits }) := by
  by_cases h : s.work.omask = 0x80#8
  · rw [flushThenFinish, if_neg (not_not.2 h), if_pos h]
    rfl
  · rw [flushThenFinish, if_pos h, if_neg h]
    rfl

/-- Settles O29: the flush stops at its push or at the end, and what follows its push is the end. -/
theorem lzssEncoderEnds : Obligations.LzssEncoderEnds := by
  unfold Obligations.LzssEncoderEnds
  refine fun s => ⟨fun hq hr => ?_, fun p => flushThenFinish_eq p s, fun p hp hq => ?_⟩
  · have hstep : advance .lzssMain s = flushThenFinish .lzssFlushed s := if_neg (Nat.not_lt.2 hr)
    refine engineStep_of_advance hq (hstep.trans (flushThenFinish_eq _ s)) fun p => ?_
    split <;> exact Seq.noConfusion
  · have hstep : advance p s = flushed s := by
      simp only [List.mem_cons, List.not_mem_nil, or_false] at hp
      obtain rfl | rfl | rfl := hp <;> rfl
    exact engineStep_of_advance hq hstep fun _ => Seq.noConfusion

/-! ## LZSS.DEC -/

/-- The byte is written at the write cursor, which advances modulo N (41_lzss R222, R223). -/
def State.appended (v : Byte) (s : State) : State :=
  { s with win := Ram.store .win s.work.wr v s.win, work := { s.work with wr := (s.work.wr + 1) % 2 ^ s.params.ei } }

theorem peek_appended {s : State} (v : Byte) (hwf : Ram.wf .win s.win) (a : Nat) :
    (s.appended v).peek .win a = if a = s.work.wr then v else s.peek .win a :=
  peek_poke s .win s.work.wr a v hwf

theorem lzssAppend_of_lt {s : State} (v : Byte) (k : State → Out) (hwr : s.work.wr < 2 ^ s.params.ei) :
    lzssAppend v s k = k (s.appended v) := by
  rw [lzssAppend, memWrite_of_lt _ hwr, State.appended, ← and_mask]
  rfl

/-- The source byte of copy step `k` (41_lzss R223). -/
def State.copySource (k : Nat) (s : State) : Byte := s.peek .win ((s.work.dpos + k) % 2 ^ s.params.ei)

/-- A copy goes on with the byte at its source, modulo N (41_lzss R223). -/
theorem lzssCopyHead_of_lt {s : State} {k : Nat} (h : k < s.work.dlen + s.params.p) :
    lzssCopyHead k s = .next (s.push (.lzssCopied k (s.copySource k)) (s.copySource k)) := by
  have hused : (s.work.dpos + k) % 2 ^ s.params.ei < usedPart .lzssDec s.params .win := Nat.mod_lt _ (windowSize_pos _)
  rw [lzssCopyHead, if_pos h, Params.windowSize, and_mask, memRead_of_lt _ hused]
  rfl

theorem lzssCopyHead_of_le {s : State} {k : Nat} (h : s.work.dlen + s.params.p ≤ k) :
    lzssCopyHead k s = .next (s.nextUnit .lzss) := if_neg (Nat.not_lt.2 h)

/-- Settles O30: the copy of a reference has P bytes at least, so its first step is a push. -/
theorem lzssUnitsExecute : Obligations.LzssUnitsExecute := by
  unfold Obligations.LzssUnitsExecute
  refine fun s hq => ⟨fun v => onUnit_of hq, fun pos len hp => ?_⟩
  exact (onUnit_of hq).trans (lzssCopyHead_of_lt (k := 0) (by simp only; omega))

/-- Settles O31: the byte is appended, then the next unit starts or the copy's head is met. -/
theorem lzssDictionaryFollowsTheOutput : Obligations.LzssDictionaryFollowsTheOutput := by
  unfold Obligations.LzssDictionaryFollowsTheOutput
  intro s v hwf hwr
  have hread := peek_appended v hwf
  have hliteral : advance (.lzssLitDone v) s = .next ((s.appended v).nextUnit .lzss) :=
    lzssAppend_of_lt v (fun u => .next (u.nextUnit .lzss)) hwr
  have hcopied (k : Nat) : advance (.lzssCopied k v) s = lzssCopyHead (k + 1) (s.appended v) :=
    lzssAppend_of_lt v (lzssCopyHead (k + 1)) hwr
  refine ⟨⟨_, hliteral, rfl, hread⟩, fun k => ⟨fun hk => ?_, fun hk => ?_⟩⟩
  · have hsource : (s.appended v).copySource (k + 1) = _ := hread ((s.work.dpos + (k + 1)) % 2 ^ s.params.ei)
    exact ⟨_, (hcopied k).trans (lzssCopyHead_of_lt hk), by rw [hsource]; rfl, hread⟩
  · exact ⟨_, (hcopied k).trans (lzssCopyHead_of_le hk), rfl, hread⟩

/-! ## End in the decoders -/

/-- Settles O49: no byte has been pulled, so the decoder meets End and the operation ends. -/
theorem decodersMeetTheEnd : Obligations.DecodersMeetTheEnd := by
  unfold Obligations.DecodersMeetTheEnd
  intro s d hq hv
  have hstep : advance (.fetched d) s = .next (fetchEnd d s) := by simp only [advance, fetchedStep, hv]
  have hidle : (fetchEnd d s).seq = .idle := by
    cases d with
    | rle => simp only [fetchEnd]; split <;> rfl
    | lzss | eg | mtf | lzp => rfl
  rw [engineStep_of_advance hq hstep fun p => by rw [hidle]; exact Seq.noConfusion]
  cases d <;> rfl

end Sys2Proof.Machine

/-! RLE: the commands' start, the encoder's literal buffer and runs, and the decoder's blocks. -/

namespace Sys2Proof.Machine

open Claims (rleParams)

/-! ## The start -/

/-- RLE_CFG's fields are the latched parameters (10_state R34, R41). -/
theorem params_launched_rle {op : Op} (hop : op.codec = .rle) (s : State) : (s.launched op).params = rleParams s := by
  simp only [State.launched, hop, rleParams, field_eq_extract]
  rfl

/-- Settles O10: both operations are accepted and latch alike; each then makes its own first request. -/
theorem rleCommandsStart : Obligations.RleCommandsStart := by
  unfold Obligations.RleCommandsStart
  intro s hb hlegal
  have hl := (legal_rle_iff s).2 hlegal
  constructor
  · have hexec := exec_of_legal_fits (op := .rleEnc) hb hl rfl
    rw [launched_started .rleEnc .rleTop, params_launched_rle rfl] at hexec
    exact hexec.trans (congrArg _ (pull_of_not_eoi _ _ rfl))
  · have hexec := exec_of_legal_fits (op := .rleDec) hb hl rfl
    rw [launched_started .rleDec (.fetched .rle), params_launched_rle rfl] at hexec
    exact hexec.trans (congrArg _ (pull_of_not_eoi _ _ rfl))

/-! ## RLE.ENC: the literal buffer -/

/-- The byte joins the literal buffer (42_rle R252). -/
def State.literalAdded (b : Byte) (s : State) : State :=
  { s with rleb := Ram.store .rleb s.work.j b s.rleb, work := { s.work with j := s.work.j + 1 } }

@[simp] theorem literalAdded_fields (b : Byte) (s : State) :
    (s.literalAdded b).work.j = s.work.j + 1 ∧ (s.literalAdded b).params = s.params := ⟨rfl, rfl⟩

theorem peek_literalAdded {s : State} (b : Byte) (hwf : Ram.wf .rleb s.rleb) (a : Nat) :
    (s.literalAdded b).peek .rleb a = if a = s.work.j then b else s.peek .rleb a :=
  peek_poke s .rleb s.work.j a b hwf

/-- While the buffer is not full, its next place is in the used part (20_memory R81; 42_rle R252). -/
theorem rleStore_of_le {s : State} (b : Byte) (k : State → Out) (hj : s.work.j + 2 ≤ s.params.rl) :
    rleStore b s k = k (s.literalAdded b) :=
  memWrite_of_lt _ (show s.work.j < s.params.rl - 1 by omega)

/-- `FlushLit()` begins with the literal block's command byte, if there is a literal (42_rle R252). -/
theorem rleFlush_eq (ret : FlushReturn) (s : State) :
    rleFlush ret s = if s.work.j = 0 then rleReturn ret s
      else .next { s with seq := .waitPush (.rleLits 0 ret) (BitVec.ofNat 8 (s.params.rl + s.work.j)) } := by
  unfold rleFlush
  by_cases hj : s.work.j = 0
  · rw [if_pos hj, if_neg (by omega)]
  · rw [if_neg hj, if_pos (by omega)]
    rfl

/-- A new byte at the loop test is buffered; the buffer that it fills is flushed (42_rle R252, R253). -/
theorem rleTopStep_of_ne {s : State} {b : Byte} (hv : s.work.rv = some b) (hp : s.work.prev ≠ some b)
    (heoi : s.eoi = false) (hj : s.work.j + 2 ≤ s.params.rl) :
    rleTopStep s = .next { ({ s with work := { s.work with prev := some b } } : State).literalAdded b with
      seq := if s.work.j + 2 = s.params.rl
        then .waitPush (.rleLits 0 .afterAppend) (BitVec.ofNat 8 (s.params.rl + (s.work.j + 1))) else .waitPull .rleTop } := by
  unfold rleTopStep
  split
  next hnone => exact absurd (hv.symm.trans hnone) (Option.some_ne_none b)
  next c hc =>
    obtain rfl : b = c := Option.some.inj (hv.symm.trans hc)
    rw [if_pos hp, rleStore_of_le b _ (by exact hj)]
    by_cases hfull : s.work.j + 2 = s.params.rl
    · rw [if_pos hfull]
      exact if_pos (show s.work.j + 1 = s.params.rl - 1 by omega)
    · rw [if_neg hfull]
      exact (if_neg (show ¬ s.work.j + 1 = s.params.rl - 1 by omega)).trans (congrArg _ (pull_of_not_eoi _ _ heoi))

/-! ## RLE.ENC: counting a run -/

/-- Below the full count the next byte is pulled (42_rle R254). -/
theorem rleCountHead_of_ne {s : State} (hk : s.work.k ≠ s.params.rl + s.params.rover) (heoi : s.eoi = false) :
    rleCountHead s = .next { s with seq := .waitPull .rleCount } :=
  (if_neg hk).trans (congrArg _ (pull_of_not_eoi _ _ heoi))

theorem rleCountHead_of_eq {s : State} (hk : s.work.k = s.params.rl + s.params.rover) :
    rleCountHead s = rleEmitRun { s with work := { s.work with full := true } } := if_pos hk

theorem rleCountStep_of_eq {s : State} (hp : s.work.prev ≠ none) (hv : s.work.rv = s.work.prev) :
    rleCountStep s = rleCountHead { s with work := { s.work with k := s.work.k + 1 } } := by
  obtain ⟨b, hb⟩ := Option.ne_none_iff_exists'.1 hp
  unfold rleCountStep
  simp only [hv.trans hb]
  exact if_pos hb

/-- Another byte and End both end the run (42_rle R254, R256). -/
theorem rleCountStep_of_ne {s : State} (hv : s.work.rv ≠ s.work.prev) : rleCountStep s = rleEmitRun s := by
  unfold rleCountStep
  cases hrv : s.work.rv with
  | none => rfl
  | some b => exact if_neg fun hb => hv (hrv.trans hb.symm)

/-! ## RLE.ENC: the end of a run -/

/-- A run block goes out: its command byte, or first that of the literal block before it (42_rle R254). -/
def State.runEmitted (s : State) : State :=
  if s.work.j = 0 then { s with seq := .waitPush .rleRunCmd (BitVec.ofNat 8 (s.work.k - 1 - s.params.rover)) }
  else { s with seq := .waitPush (.rleLits 0 .toRun) (BitVec.ofNat 8 (s.params.rl + s.work.j)) }

theorem runEmitted_seq_ne_run (s : State) (p : Point) : s.runEmitted.seq ≠ .run p := by
  unfold State.runEmitted
  split <;> exact Seq.noConfusion

theorem rleEmitRun_of_lt {s : State} (hk : s.params.rover < s.work.k) : rleEmitRun s = .next s.runEmitted := by
  rw [rleEmitRun, if_pos hk, rleFlush_eq, State.runEmitted, apply_ite Host.Outcome.next]
  rfl

theorem rleEmitRun_of_le {s : State} {b : Byte} (hb : s.work.prev = some b) (hk : s.work.k ≤ s.params.rover) :
    rleEmitRun s = rleRepeat b s.work.k s := by
  rw [rleEmitRun, if_neg (by omega), rlePrevByte, hb]
  rfl

/-- From `s` to `t`, `n` copies of `b` have joined the literal buffer, and the engine is at `q` (42_rle R254). -/
def CopiesAdded (b : Byte) (n : Nat) (q : Seq) (s t : State) : Prop :=
  t = { s with rleb := t.rleb, work := { s.work with j := s.work.j + n }, seq := q }
  ∧ ∀ a, t.peek .rleb a = if s.work.j ≤ a ∧ a < s.work.j + n then b else s.peek .rleb a

theorem copiesAdded_zero (b : Byte) (q : Seq) (s : State) : CopiesAdded b 0 q s { s with seq := q } :=
  ⟨rfl, fun _ => (if_neg (by omega)).symm⟩

/-- One copy, then the others. -/
theorem CopiesAdded.cons {b : Byte} {n : Nat} {q : Seq} {s t : State} (h : CopiesAdded b n q (s.literalAdded b) t)
    (hwf : Ram.wf .rleb s.rleb) : CopiesAdded b (n + 1) q s t := by
  obtain ⟨ht, hread⟩ := h
  have hj : s.work.j + 1 + n = s.work.j + (n + 1) := by omega
  refine ⟨?_, fun a => ?_⟩
  · rw [← hj]
    exact ht
  · rw [hread, peek_literalAdded b hwf]
    simp only [literalAdded_fields]
    by_cases ha : a = s.work.j
    · rw [if_pos ha, if_neg (by omega), if_pos (by omega)]
    · rw [if_neg ha]
      exact if_congr (by omega) rfl rfl

/-- A short run that leaves room is appended whole; the byte that ended it meets the loop test (42_rle R254). -/
theorem rleRepeat_of_lt {b : Byte} {n : Nat} {s : State} (hwf : Ram.wf .rleb s.rleb) (hfull : s.work.full = false)
    (hj : s.work.j + n + 1 < s.params.rl) :
    ∃ t, rleRepeat b n s = .next t ∧ CopiesAdded b n (.run .rleTop) s t := by
  induction n generalizing s with
  | zero =>
    refine ⟨_, ?_, copiesAdded_zero b _ s⟩
    rw [rleRepeat, rleAfterRun, hfull]
    rfl
  | succ n ih =>
    obtain ⟨t, ht, hcopies⟩ := ih (s := s.literalAdded b) (wf_store _ _ _ _ hwf) hfull (by simp; omega)
    refine ⟨t, ?_, hcopies.cons hwf⟩
    rw [rleRepeat, rleStore_of_le b _ (by omega)]
    exact (if_neg (show ¬ s.work.j + 1 = s.params.rl - 1 by omega)).trans ht

/-- A short run that fills the buffer is appended up to RL - 1 literals, which are flushed before the rest of it (42_rle
R252, R254). -/
theorem rleRepeat_of_le {b : Byte} {n : Nat} {s : State} (hwf : Ram.wf .rleb s.rleb) (hj : s.work.j + 2 ≤ s.params.rl)
    (hn : s.params.rl ≤ s.work.j + n + 1) :
    ∃ t, rleRepeat b n s = .next t
      ∧ CopiesAdded b (s.params.rl - 1 - s.work.j) (.waitPush (.rleLits 0 (.afterRepeat (s.work.j + n + 1 - s.params.rl)))
        (BitVec.ofNat 8 (s.params.rl + (s.params.rl - 1)))) s t := by
  induction n generalizing s with
  | zero => omega
  | succ n ih =>
    rw [rleRepeat, rleStore_of_le b _ hj]
    by_cases hlast : s.work.j + 1 = s.params.rl - 1
    · have hone : s.params.rl - 1 - s.work.j = 0 + 1 := by omega
      have hrest : s.work.j + (n + 1) + 1 - s.params.rl = n := by omega
      rw [hone, hrest, ← hlast]
      exact ⟨_, if_pos hlast, (copiesAdded_zero b _ (s.literalAdded b)).cons hwf⟩
    · have hleft : s.params.rl - 1 - s.work.j = s.params.rl - 1 - (s.work.j + 1) + 1 := by omega
      have hrest : s.work.j + (n + 1) + 1 = s.work.j + 1 + n + 1 := by omega
      obtain ⟨t, ht, hcopies⟩ := ih (s := s.literalAdded b) (wf_store _ _ _ _ hwf) (by simp; omega) (by simp; omega)
      rw [hleft, hrest]
      exact ⟨t, (if_neg hlast).trans ht, hcopies.cons hwf⟩

/-- The same in an atomic step, which the full buffer's command byte ends. -/
theorem engineStep_of_repeat {p : Point} {b : Byte} {n : Nat} {s u : State} (hq : s.seq = .run p)
    (ha : advance p s = rleRepeat b n u) (hwf : Ram.wf .rleb u.rleb) (hj : u.work.j + 2 ≤ u.params.rl)
    (hn : u.params.rl ≤ u.work.j + n + 1) :
    ∃ t, engineStep s = .next t
      ∧ t = { u with
          rleb := t.rleb, work := { u.work with j := u.params.rl - 1 }
          seq := .waitPush (.rleLits 0 (.afterRepeat (u.work.j + n + 1 - u.params.rl)))
            (BitVec.ofNat 8 (u.params.rl + (u.params.rl - 1))) }
      ∧ ∀ a, t.peek .rleb a = if u.work.j ≤ a ∧ a < u.params.rl - 1 then b else u.peek .rleb a := by
  obtain ⟨t, ht, hstate, hread⟩ := rleRepeat_of_le hwf hj hn
  have hend : u.work.j + (u.params.rl - 1 - u.work.j) = u.params.rl - 1 := by omega
  rw [hend] at hstate hread
  refine ⟨t, engineStep_of_advance hq (ha.trans ht) fun p => ?_, hstate, hread⟩
  rw [hstate]
  exact Seq.noConfusion

/-! ## RLE.ENC: the loop test and the count settled -/

/-- Settles O32: the loop test's three cases each end at a port request or at the operation's end. -/
theorem rleLiteralIsBuffered : Obligations.RleLiteralIsBuffered := by
  unfold Obligations.RleLiteralIsBuffered
  intro s hq hwf hj
  refine ⟨fun b hv hp heoi => ?_, fun b hv hp heoi => ?_, fun hv => ?_⟩
  · refine ⟨_, engineStep_of_advance hq (rleTopStep_of_ne hv hp heoi hj) fun p => ?_, rfl, fun a => ?_⟩
    · dsimp only
      split <;> exact Seq.noConfusion
    · exact peek_literalAdded (s := { s with work := { s.work with prev := some b } }) b hwf a
  · have htop : advance .rleTop s = rleCountHead { s with work := { s.work with k := 1, full := false } } := by
      simp [advance, rleTopStep, hv, hp]
    have hone : 1 ≠ s.params.rl + s.params.rover := by omega
    exact engineStep_of_advance hq (htop.trans (rleCountHead_of_ne hone heoi)) fun _ => Seq.noConfusion
  · have htop : advance .rleTop s = rleFlush .atEnd s := by simp [advance, rleTopStep, hv]
    rw [rleFlush_eq] at htop
    split_ifs at htop ⊢ <;> exact engineStep_of_advance hq htop fun _ => Seq.noConfusion

/-- Settles O34: the count's answer counts or ends the run, and the run's length against ROVER and the buffer's room tells
what follows. -/
theorem rleRunIsCountedAndEmitted : Obligations.RleRunIsCountedAndEmitted := by
  unfold Obligations.RleRunIsCountedAndEmitted
  rintro s hq hwf ⟨hrl, -, -⟩ ⟨hj, hp, -, -⟩
  obtain ⟨b, hb⟩ := Option.ne_none_iff_exists'.1 hp
  refine ⟨fun hv hk heoi => ?_, fun hv hk => ?_, fun hv hk => ?_, fun hv hk hfull hroom => ?_, fun hv hk hfills => ?_⟩
  · have hcount : advance .rleCount s = _ := rleCountStep_of_eq hp hv
    exact engineStep_of_advance hq (hcount.trans (rleCountHead_of_ne (Nat.ne_of_lt hk) heoi)) fun _ => Seq.noConfusion
  · have hcount : advance .rleCount s = _ := (rleCountStep_of_eq hp hv).trans (rleCountHead_of_eq hk)
    have hlong : s.params.rover < s.work.k + 1 := by omega
    exact engineStep_of_advance hq (hcount.trans (rleEmitRun_of_lt hlong)) (runEmitted_seq_ne_run _)
  · have hcount : advance .rleCount s = _ := (rleCountStep_of_ne hv).trans (rleEmitRun_of_lt hk)
    exact engineStep_of_advance hq hcount (runEmitted_seq_ne_run _)
  · have hcount : advance .rleCount s = _ := (rleCountStep_of_ne hv).trans (rleEmitRun_of_le hb hk)
    obtain ⟨t, ht, hstate, hread⟩ := rleRepeat_of_lt (b := b) hwf hfull hroom
    exact ⟨t, hcount.trans ht, hstate, fun a => by rw [hread, hb, apply_ite some]⟩
  · have hcount : advance .rleCount s = _ := (rleCountStep_of_ne hv).trans (rleEmitRun_of_le hb hk)
    obtain ⟨t, ht, hstate, hread⟩ := engineStep_of_repeat hq hcount hwf hj hfills
    exact ⟨t, ht, hstate, fun a => by rw [hread, hb, apply_ite some]⟩

/-! ## RLE.ENC: blocks on their way out -/

/-- A literal of the buffer is pushed (42_rle R252). -/
theorem rleLitsStep_of_lt {s : State} {t : Nat} (ret : FlushReturn) (ht : t < s.work.j) (hj : s.work.j + 1 ≤ s.params.rl) :
    rleLitsStep t ret s = .next (s.push (.rleLits (t + 1) ret) (s.peek .rleb t)) :=
  (if_pos ht).trans (memRead_of_lt _ (show t < s.params.rl - 1 by omega))

/-- After its last literal the buffer is empty, and the flush returns (42_rle R251, R252). -/
theorem rleLitsStep_last (ret : FlushReturn) (s : State) :
    rleLitsStep s.work.j ret s = rleReturn ret { s with work := { s.work with j := 0 } } := if_neg (Nat.lt_irrefl _)

/-- Settles O33: each point pushes, returns to where the flush was called, or pulls. -/
theorem rleBlocksArePushedInOrder : Obligations.RleBlocksArePushedInOrder := by
  unfold Obligations.RleBlocksArePushedInOrder
  intro s t ret
  have hlast (r : FlushReturn) : advance (.rleLits s.work.j r) s = _ := rleLitsStep_last r s
  refine ⟨fun hq ht hj => ?_, fun hq heoi => ?_, fun left b hb hwf hrl => ?_, fun hq => ?_, fun hq => ?_, fun b hq hb => ?_,
    fun hq hfull heoi => ?_, fun hfull => ?_⟩
  · exact engineStep_of_advance hq (rleLitsStep_of_lt ret ht hj) fun _ => Seq.noConfusion
  · have hpull := (hlast .afterAppend).trans (congrArg Host.Outcome.next (pull_of_not_eoi _ .rleTop heoi))
    exact engineStep_of_advance hq hpull fun _ => Seq.noConfusion
  · have hrepeat : advance (.rleLits s.work.j (.afterRepeat left)) s
        = rleRepeat b left { s with work := { s.work with j := 0 } } := by
      rw [hlast, rleReturn, rlePrevByte, hb]
      rfl
    refine ⟨fun hroom hfull => ?_, fun hfills hq => ?_⟩
    · obtain ⟨u, hu, hstate, hread⟩ := rleRepeat_of_lt (b := b) (n := left) (s := { s with work := { s.work with j := 0 } })
        hwf hfull (by simpa using hroom)
      simp only [Nat.zero_add, Nat.zero_le, true_and] at hstate hread
      exact ⟨u, hrepeat.trans hu, hstate, hread⟩
    · obtain ⟨u, hu, hstate, hread⟩ := engineStep_of_repeat hq hrepeat hwf hrl (by simpa using hfills)
      simp only [Nat.zero_add, Nat.zero_le, true_and] at hstate hread
      exact ⟨u, hu, hstate, hread⟩
  · exact engineStep_of_advance hq (hlast .toRun) fun _ => Seq.noConfusion
  · exact engineStep_of_advance hq (hlast .atEnd) fun _ => Seq.noConfusion
  · have hpush : advance .rleRunCmd s = .next (s.push .rleRunByte b) := by
      simp [advance, rleRunCmdStep, rlePrevByte, hb]
    exact engineStep_of_advance hq hpush fun _ => Seq.noConfusion
  · have hpull : advance .rleRunByte s = _ := (if_pos hfull).trans (congrArg _ (pull_of_not_eoi _ _ heoi))
    exact engineStep_of_advance hq hpull fun _ => Seq.noConfusion
  · exact if_neg (by simp [hfull])

/-! ## RLE.DEC -/

/-- A literal block with a byte to come pulls it (42_rle R261). -/
theorem rleLitHead_of_pos {left : Nat} {s : State} (hleft : 0 < left) (heoi : s.eoi = false) :
    rleLitHead left s = { s with seq := .waitPull (.rleLitByte left) } :=
  (if_neg (Nat.pos_iff_ne_zero.1 hleft)).trans (pull_of_not_eoi _ _ heoi)

/-- A run block with a copy to come pushes it (42_rle R262). -/
theorem rleRunHead_succ (left : Nat) (v : Byte) (s : State) :
    rleRunHead (left + 1) v s = s.push (.rleRunDone left v) v := if_neg (Nat.succ_ne_zero left)

/-- An atomic step that ends at the second point it passes. -/
theorem engineStep_of_advance_twice {s u t : State} {p q : Point} (hs : s.seq = .run p) (hp : advance p s = .next u)
    (hu : u.seq = .run q) (hq : advance q u = .next t) (ht : ∀ p, t.seq ≠ .run p) : engineStep s = .next t := by
  have hfuel : settleFuel - 1 = 30 + 1 := rfl
  rw [engineStep_run hs, hp, andThen_next, hfuel, settle_run hu, hq]
  exact settle_of_not_run _ ht

/-- A decoder that reads whole bytes asks for the first byte of its next unit in the same atomic step (40_stream_bitpacker
R165, R186). -/
theorem engineStep_of_nextUnit {d : Decoder} {p : Point} {s u : State} (hd : d.readsBits = false) (hq : s.seq = .run p)
    (ha : advance p s = .next (u.nextUnit d)) (heoi : u.eoi = false) :
    engineStep s = .next { u with work := u.work.newUnit d, seq := .waitPull (.fetched d) } := by
  have hfetch : advance (.fetch d) (u.nextUnit d) = _ :=
    (fetchStep_of_none (by simp [hd])).trans (congrArg _ (pull_of_not_eoi (u.nextUnit d) _ heoi))
  exact engineStep_of_advance_twice hq ha rfl hfetch fun _ => Seq.noConfusion

/-- Settles O35: the block's head finds a byte to pull or a copy to push. -/
theorem rleUnitsExecute : Obligations.RleUnitsExecute := by
  unfold Obligations.RleUnitsExecute
  refine fun s hq heoi => ⟨fun c hc => ?_, fun c b => ?_⟩
  · exact (onUnit_of hq).trans (congrArg _ (rleLitHead_of_pos (Nat.sub_pos_of_lt hc) heoi))
  · refine (onUnit_of hq).trans (congrArg _ ?_)
    rw [Nat.add_right_comm c.toNat 1]
    exact rleRunHead_succ _ _ _

/-- Settles O36: each point inside a block goes on with it, and the last one starts the next unit. -/
theorem rleBlocksRunOut : Obligations.RleBlocksRunOut := by
  unfold Obligations.RleBlocksRunOut
  refine fun s => ⟨fun left v hq hv => ?_, fun left hq hv => ?_, fun left hq heoi => ?_, fun left v hq => ?_,
    fun v hq heoi => ?_⟩
  · have hpush : advance (.rleLitByte left) s = .next (s.push (.rleLitDone (left - 1)) v) := by
      simp only [advance, rleLitByteStep, hv]
    exact engineStep_of_advance hq hpush fun _ => Seq.noConfusion
  · have hraise : advance (.rleLitByte left) s = .next (s.raise .corruptStream) := by
      simp only [advance, rleLitByteStep, hv]
    exact engineStep_of_advance hq hraise fun _ => Seq.noConfusion
  · exact engineStep_of_advance hq (congrArg Host.Outcome.next (rleLitHead_of_pos left.succ_pos heoi)) fun _ =>
      Seq.noConfusion
  · exact engineStep_of_advance hq (congrArg Host.Outcome.next (rleRunHead_succ left v s)) fun _ => Seq.noConfusion
  · obtain hq | hq := hq <;> exact engineStep_of_nextUnit (d := .rle) rfl hq rfl heoi

end Sys2Proof.Machine

/-! Elias-Gamma and MTF: the commands' start, and the effect of each gamma code. -/

namespace Sys2Proof.Machine

open Claims (Holds byteOf)

/-! ## The start -/

/-- Neither CODEC has a parameter to latch (10_state R41). -/
theorem params_launched_of_unparameterised {op : Op} (hop : op.codec = .eliasGamma ∨ op.codec = .mtf) (s : State) :
    (s.launched op).params = s.params := by
  obtain hop | hop := hop <;> simp only [State.launched, hop] <;> rfl

/-- EG.ENC finds the input accumulator empty and asks for a byte at once (43_elias_gamma R291). -/
theorem egEncStart_eq {s : State} (heoi : s.eoi = false) (hempty : s.work.imask = 0x00#8) :
    egEncStart s = .next { s with seq := .waitPull (.egSym 4 0) } := by
  rw [egEncStart, egRead, getBits, if_pos hempty, pull_of_not_eoi _ _ heoi]

/-- MTF.ENC sets up its table and asks for a byte (44_mtf R321). -/
theorem mtfEncStart_eq {s : State} (heoi : s.eoi = false) :
    mtfEncStart s = .next { s with mtft := [], seq := .waitPull .mtfByte } :=
  congrArg _ (pull_of_not_eoi s.identityTable _ heoi)

/-- MTF.DEC sets up its table and asks for a unit's byte (44_mtf R330). -/
theorem mtfDecStart_eq {s : State} (heoi : s.eoi = false) :
    mtfDecStart s = .next { s with mtft := [], work := { s.work with unit := [] }, seq := .waitPull (.fetched .mtf) } :=
  congrArg _ (pull_of_not_eoi { s.identityTable with work := s.work.newUnit .mtf } _ heoi)

/-- In an empty table each rank reads as itself (44_mtf R320). -/
theorem peek_of_mtft_nil {s : State} (h : s.mtft = []) (b : Byte) : s.peek .mtft b.toNat = b := by
  simp [peek_mtft, h, Ram.find]

/-- Settles O12: the four operations are accepted alike; each then makes its own first request. -/
theorem gammaAndMtfCommandsStart : Obligations.GammaAndMtfCommandsStart := by
  unfold Obligations.GammaAndMtfCommandsStart
  intro s hb
  refine ⟨?_, ?_, ?_, ?_⟩
  · have hexec := exec_of_legal_fits (op := .egEnc) hb rfl rfl
    rw [launched_started .egEnc (.egSym 4 0), params_launched_of_unparameterised (.inl rfl)] at hexec
    exact hexec.trans (egEncStart_eq rfl rfl)
  · have hexec := exec_of_legal_fits (op := .egDec) hb rfl rfl
    rw [launched_started .egDec (.fetched .eg), params_launched_of_unparameterised (.inl rfl)] at hexec
    exact hexec.trans (congrArg _ (pull_of_not_eoi _ _ rfl))
  · have hexec := exec_of_legal_fits (op := .mtfEnc) hb rfl rfl
    rw [launched_started .mtfEnc .mtfByte, params_launched_of_unparameterised (.inr rfl)] at hexec
    exact ⟨_, hexec.trans (mtfEncStart_eq rfl), rfl, peek_of_mtft_nil rfl⟩
  · have hexec := exec_of_legal_fits (op := .mtfDec) hb rfl rfl
    rw [launched_started .mtfDec (.fetched .mtf), params_launched_of_unparameterised (.inr rfl)] at hexec
    exact ⟨_, hexec.trans (mtfDecStart_eq rfl), rfl, peek_of_mtft_nil rfl⟩

/-! ## PutBits into any accumulator -/

/-- A field of `m + n` bits is sent as its `m` high bits and then its `n` low ones. -/
theorem bitsOf_add (m n v : Nat) : bitsOf (m + n) v = bitsOf m (v / 2 ^ n) ++ bitsOf n v := by
  induction m with
  | zero => simp [bitsOf]
  | succ m ih => rw [Nat.succ_add, bitsOf, ih, bitsOf, Nat.testBit_div_two_pow, List.cons_append]

/-- A field that holds its value has that value. -/
theorem ofBits_bitsOf_of_lt {n v : Nat} (h : v < 2 ^ n) : ofBits 0 (bitsOf n v) = v := by
  rw [ofBits_bitsOf, Nat.mod_eq_of_lt h, Nat.zero_mul, Nat.zero_add]

/-- Leading zero bits do not change a bit string's value. -/
theorem ofBits_zeros_append (m : Nat) (l : List Bool) : ofBits 0 (List.replicate m false ++ l) = ofBits 0 l := by
  induction m with
  | zero => rfl
  | succ m ih => exact ih

/-- `PutBit` only sets bits of `obits`: what stands there already stays, and does not matter to the rest
(40_stream_bitpacker R180). -/
theorem packBits_or (bits : List Bool) (old obits omask : Byte) :
    packBits bits (old ||| obits) omask
      = ⟨old ||| (packBits bits obits omask).obits, (packBits bits obits omask).omask,
        (packBits bits obits omask).pending⟩ := by
  induction bits generalizing obits omask with
  | nil => rfl
  | cons b rest ih =>
    have hbit : (if b then old ||| obits ||| omask else old ||| obits) = old ||| if b then obits ||| omask else obits := by
      cases b
      · rfl
      · exact BitVec.or_assoc ..
    simp only [packBits, hbit, ih]
    split <;> rfl

/-- With its mask at place `m` and no bit set, the accumulator holds `m` zeros (40_stream_bitpacker R180). -/
theorem holds_zeros {m : Nat} (hm : m < 8) : Holds (List.replicate m false) 0#8 (0x80#8 >>> m) := by
  have hvalue := ofBits_zeros_append m []
  rw [List.append_nil] at hvalue
  simp [Holds, hvalue, ofBits, hm]

/-- Bits that do not fill the byte stand from place `m` on, over whatever is there (40_stream_bitpacker R180, R181). -/
theorem packBits_of_room {bits : List Bool} {m : Nat} (obits : Byte) (hroom : m + bits.length < 8) :
    packBits bits obits (0x80#8 >>> m)
      = ⟨obits ||| BitVec.ofNat 8 (ofBits 0 bits * 2 ^ (8 - (m + bits.length))), 0x80#8 >>> (m + bits.length), none⟩ := by
  have hlen : (List.replicate m false ++ bits).length = m + bits.length := by simp
  obtain ⟨hpending, -, hmask, hbits⟩ := packBits_holds (holds_zeros (by omega)) (hlen.trans_lt hroom)
  rw [hlen] at hmask hbits
  rw [ofBits_zeros_append] at hbits
  have hor := packBits_or bits obits 0#8 (0x80#8 >>> m)
  rwa [BitVec.or_zero, hpending, hmask, hbits] at hor

/-- The bits `front` fill the byte from place `m` on, and `rest` is left for after its push (40_stream_bitpacker R180,
R181). -/
theorem packBits_of_fill {front : List Bool} {m : Nat} (rest : List Bool) (obits : Byte) (hm : m < 8)
    (hfill : m + front.length = 8) :
    packBits (front ++ rest) obits (0x80#8 >>> m) = ⟨obits ||| byteOf front, 0#8, some rest⟩ := by
  have hbyte : (List.replicate m false ++ front).length = 8 := by simpa using hfill
  have hfull := packBits_full (bits := front ++ rest) (holds_zeros hm) (by simp; omega)
  rw [← List.append_assoc, List.take_left' hbyte, List.drop_left' hbyte, byteOf, ofBits_zeros_append, ← byteOf] at hfull
  have hor := packBits_or (front ++ rest) obits 0#8 (0x80#8 >>> m)
  rwa [BitVec.or_zero, hfull] at hor

/-! ## EG.DEC: the codes -/

/-- A symbol that does not fill the byte is held, and the next code begins (43_elias_gamma R300, R304). -/
theorem egSymbol_of_room {s : State} {m sym : Nat} (hq : s.seq = .run (.unit .eg)) (hm : m < 4) (hsym : sym < 16)
    (hmask : s.work.omask = 0x80#8 >>> m) :
    egSymbol sym s = .next { s with
      work := { s.work with
        gcount := 0, gval := sym + 1, unit := []
        obits := s.work.obits ||| BitVec.ofNat 8 (sym * 2 ^ (4 - m)), omask := 0x80#8 >>> (m + 4) }
      seq := .run (.fetch .eg) } := by
  have hvalue : ofBits 0 (bitsOf 4 sym) = sym := ofBits_bitsOf_of_lt hsym
  have hplace : 8 - (m + 4) = 4 - m := by omega
  have hpack := packBits_of_room (bits := bitsOf 4 sym) (m := m) s.work.obits (by rw [length_bitsOf]; omega)
  rw [length_bitsOf, hvalue, hplace, ← hmask] at hpack
  rw [egSymbol, onUnit_of hq, egOutStep, putBits]
  simp only [codeRead_fields, hpack]
  rfl

/-- A symbol that fills the byte has it pushed, with the symbol's low bits left for the next one (43_elias_gamma R304). -/
theorem egSymbol_of_fill {s : State} {m sym : Nat} (hq : s.seq = .run (.unit .eg)) (hlow : 4 ≤ m) (hm : m < 8)
    (hsym : sym < 16) (hmask : s.work.omask = 0x80#8 >>> m) :
    egSymbol sym s = .next { s with
      work := { s.work with
        gcount := Nat.log2 (sym + 1), gval := sym + 1
        obits := s.work.obits ||| BitVec.ofNat 8 (sym / 2 ^ (m - 4)), omask := 0x00#8 }
      seq := .waitPush (.egOut (bitsOf (m - 4) sym)) (s.work.obits ||| BitVec.ofNat 8 (sym / 2 ^ (m - 4))) } := by
  have hsplit : bitsOf 4 sym = bitsOf (8 - m) (sym / 2 ^ (m - 4)) ++ bitsOf (m - 4) sym := by
    rw [← bitsOf_add]
    congr 1
    omega
  have hsize : sym / 2 ^ (m - 4) < 2 ^ (8 - m) := by
    have hfour : 2 ^ (8 - m) * 2 ^ (m - 4) = 16 := by
      rw [← Nat.pow_add, show 8 - m + (m - 4) = 4 by omega]
    exact Nat.div_lt_of_lt_mul (by rwa [Nat.mul_comm, hfour])
  have hbyte : byteOf (bitsOf (8 - m) (sym / 2 ^ (m - 4))) = BitVec.ofNat 8 (sym / 2 ^ (m - 4)) := by
    rw [byteOf, ofBits_bitsOf_of_lt hsize]
  have hpack := packBits_of_fill (front := bitsOf (8 - m) (sym / 2 ^ (m - 4))) (bitsOf (m - 4) sym) s.work.obits hm
    (by rw [length_bitsOf]; omega)
  rw [← hsplit, hbyte, ← hmask] at hpack
  rw [egSymbol, onUnit_of hq, egOutStep, putBits]
  simp only [codeRead_fields, hpack]
  rfl

/-- Settles O38: each code is its symbol's, which either leaves room in the byte or fills it. -/
theorem gammaSymbolsExecute : Obligations.GammaSymbolsExecute := by
  unfold Obligations.GammaSymbolsExecute
  intro s m hq hm hmask x hx
  have hcode : x.2 < 16 ∧ exec x.1 s = egSymbol x.2 s := by
    fin_cases hx <;> exact ⟨by decide, rfl⟩
  obtain ⟨hsym, hexec⟩ := hcode
  rw [hexec]
  by_cases hroom : m < 4
  · rw [egSymbol_of_room hq hroom hsym hmask, if_pos hroom]
  · rw [egSymbol_of_fill hq (Nat.not_lt.1 hroom) hm hsym hmask, if_neg hroom]

/-- A gamma value above 15 has the count 4 (43_elias_gamma R301). -/
theorem codeRead_of_high {x : Nat} (hx : x < 16) (s : State) :
    s.codeRead (16 + x) = { s with work := { s.work with gcount := 4, gval := 16 + x } } := by
  have hlog : (16 + x).log2 = 4 := (Nat.log2_eq_iff (by omega)).2 ⟨by omega, by omega⟩
  rw [State.codeRead, hlog]

/-- Settles O39: the terminal code's flush is `Flush()` at an operation's end; the invalid codes raise at once. -/
theorem gammaTerminalAndInvalidCodesExecute : Obligations.GammaTerminalAndInvalidCodesExecute := by
  unfold Obligations.GammaTerminalAndInvalidCodesExecute
  refine fun s hq => ⟨?_, fun x => ?_, onUnit_of hq⟩
  · have hflush : exec .egTerminal s = flushThenFinish .egOutFlushed (s.codeRead (16 + 1)) := onUnit_of hq
    rw [hflush, codeRead_of_high (by decide), flushThenFinish_eq]
  · have hraise : exec (.egInvalidValue x) s = .next ((s.codeRead (16 + x.toNat)).raise .corruptStream) := onUnit_of hq
    rw [hraise, codeRead_of_high x.isLt]
    rfl

end Sys2Proof.Machine

/-! MTF: what a promotion does to the table, the one rank of a byte, the points of both directions, and that they stay in
step. -/

namespace Sys2Proof.Machine

open Claims (ended)

/-! ## The table -/

/-- The moves of a promotion change MTFT alone. -/
theorem shiftRanks_eq (i : Nat) (s : State) : shiftRanks i s = { s with mtft := (shiftRanks i s).mtft } := by
  induction i generalizing s with
  | zero => rfl
  | succ i ih => exact ih (s.poke .mtft (i + 1) (s.peek .mtft i))

/-- A promotion changes MTFT alone (44_mtf R320). -/
theorem promote_eq (i : Nat) (b : Byte) (s : State) : promote i b s = { s with mtft := (promote i b s).mtft } := by
  unfold promote
  rw [shiftRanks_eq]
  rfl

/-- Settles O40: the table after a promotion is read rank by rank; the entry at rank 0 is already in front. -/
theorem promotionMovesToFront : Obligations.PromotionMovesToFront := by
  unfold Obligations.PromotionMovesToFront
  intro s i b hw hi hb
  have hread := peek_promote i b s hw
  refine ⟨hread 0, fun t ht hti => ?_, fun t hit => ?_, permutation_promote i b s hw hi hb, fun h0 t => ?_, promote_eq i b s⟩
  · rw [hread, if_neg (by omega), if_pos hti]
  · rw [hread, if_neg (by omega), if_neg (by omega)]
  · subst h0
    rw [hread]
    by_cases ht : t = 0
    · rw [if_pos ht, ht, hb]
    · rw [if_neg ht, if_neg (by omega)]

/-- In a permutation every byte has a rank, which is itself a byte. -/
theorem Permutation.surjective {s : State} (h : Permutation s) : Function.Surjective fun i : Byte => s.peek .mtft i.toNat :=
  fun b =>
    let ⟨i, hi, hb⟩ := h b
    ⟨BitVec.ofNatLT i hi, hb⟩

/-- No two ranks of a permutation hold the same byte, as there are as many ranks as bytes. -/
theorem Permutation.injective {s : State} (h : Permutation s) : Function.Injective fun i : Byte => s.peek .mtft i.toNat :=
  Finite.injective_iff_surjective.2 h.surjective

/-- The scan of a permutation finds the rank that holds the byte (44_mtf R322). -/
theorem rankOf_eq {s : State} {i b : Byte} (h : Permutation s) (hi : s.peek .mtft i.toNat = b) : s.rankOf b = i.toNat := by
  obtain ⟨hlt, hb⟩ := rankOf_spec s b h
  have hrank : BitVec.ofNatLT (s.rankOf b) hlt = i := h.injective (hb.trans hi.symm)
  rw [← hrank]
  rfl

/-! ## MTF.ENC -/

/-- A byte's rank is pushed (44_mtf R321, R322). -/
theorem engineStep_mtfByte {s : State} {i b : Byte} (h : Permutation s) (hq : s.seq = .run .mtfByte)
    (hv : s.work.rv = some b) (hi : s.peek .mtft i.toNat = b) :
    engineStep s = .next { s with work := { s.work with rank := i }, seq := .waitPush (.mtfRanked b) i } := by
  have hadvance : advance .mtfByte s
      = .next { s with work := { s.work with rank := i }, seq := .waitPush (.mtfRanked b) i } := by
    simp only [advance, mtfByteStep, hv]
    rw [rankOf_eq h hi, memRead_of_lt _ i.isLt, BitVec.ofNat_toNat, BitVec.setWidth_eq]
    rfl
  exact engineStep_of_advance hq hadvance fun _ => Seq.noConfusion

/-- After the push the byte is promoted and the next one pulled (44_mtf R321). -/
theorem engineStep_mtfRanked {s : State} {b : Byte} (hq : s.seq = .run (.mtfRanked b)) (heoi : s.eoi = false) :
    engineStep s = .next { promote s.work.rank.toNat b s with seq := .waitPull .mtfByte } := by
  have hpull := pull_of_not_eoi (promote s.work.rank.toNat b s) .mtfByte ((inside_promote _ b s).eoi.trans heoi)
  exact engineStep_of_advance hq (congrArg Host.Outcome.next hpull) fun _ => Seq.noConfusion

/-- Settles O41: the pushed rank is the only one of the byte, as the table is a permutation. -/
theorem mtfEncoderPushesTheRank : Obligations.MtfEncoderPushesTheRank := by
  unfold Obligations.MtfEncoderPushesTheRank
  refine fun s b h => ⟨fun hq hv => ?_, fun hq hv => ?_, engineStep_mtfRanked⟩
  · obtain ⟨i, hi⟩ := h.surjective b
    refine ⟨i, hi, fun k hk hkb => ?_, engineStep_mtfByte h hq hv hi⟩
    have hki : BitVec.ofNatLT k hk = i := h.injective (hkb.trans hi.symm)
    rw [← hki]
    rfl
  · have hfinish : advance .mtfByte s = .next (ended .ok s) := by
      simp only [advance, mtfByteStep, hv]
      rfl
    exact engineStep_of_advance hq hfinish fun _ => Seq.noConfusion

/-! ## MTF.DEC -/

/-- The byte at the rank is pushed (44_mtf R330). -/
theorem exec_mtfRank {s : State} (r : Byte) (hq : s.seq = .run (.unit .mtf)) :
    exec (.mtfRank r) s = .next { s with
      work := { s.work with rank := r }, seq := .waitPush (.mtfOut (s.peek .mtft r.toNat)) (s.peek .mtft r.toNat) } :=
  (onUnit_of hq).trans (memRead_of_lt _ r.isLt)

/-- After the push the byte is promoted and the next rank pulled (44_mtf R330). -/
theorem engineStep_mtfOut {s : State} {b : Byte} (hq : s.seq = .run (.mtfOut b)) (heoi : s.eoi = false) :
    engineStep s = .next
      { promote s.work.rank.toNat b s with work := { s.work with unit := [] }, seq := .waitPull (.fetched .mtf) } := by
  have hstep := engineStep_of_nextUnit (d := .mtf) (u := promote s.work.rank.toNat b s) rfl hq rfl
    ((inside_promote _ b s).eoi.trans heoi)
  rw [promote_work] at hstep
  exact hstep

/-- Settles O42: the unit's own step, and the step at the point after its push. -/
theorem mtfRankExecutes : Obligations.MtfRankExecutes := by
  unfold Obligations.MtfRankExecutes
  exact fun s => ⟨exec_mtfRank, fun b => engineStep_mtfOut⟩

/-- A rank pulled between units is a whole unit, so its byte is pushed in the same atomic step (40_stream_bitpacker R186;
44_mtf R330). -/
theorem engineStep_mtfFetched {s : State} {r b : Byte} (hq : s.seq = .run (.fetched .mtf)) (hv : s.work.rv = some r)
    (hunit : s.work.unit = []) (hb : s.peek .mtft r.toNat = b) :
    engineStep s = .next { s with work := { s.work with rank := r }, seq := .waitPush (.mtfOut b) b } := by
  have hdecode : decode Decoder.mtf.family s.params.wire (s.work.unit ++ bitsOf 8 r.toNat) = .ok (.mtfRank r, []) := by
    have hround := Laws.Encoding.mtfRank r s.params.wire [] rfl
    rw [List.append_nil] at hround
    rw [hunit]
    exact hround
  have hwork : { s.work with unit := [] } = s.work := by rw [← hunit]
  have htakes : TakesBits .mtf (bitsOf 8 r.toNat) s s := .inr ⟨r, hq, hv, .inr ⟨.inr (.inl rfl), rfl, rfl⟩⟩
  obtain ⟨p, hp, hadvance⟩ := htakes.advance
  rw [takeUnitBits_of_ok hdecode, hwork, exec_mtfRank r rfl] at hadvance
  subst hb
  exact engineStep_of_advance hp hadvance fun _ => Seq.noConfusion

/-! ## Both directions -/

/-- The same promotion keeps equal tables equal (44_mtf R331). -/
theorem peek_promote_congr {s t : State} {i : Nat} (b : Byte) (hs : ∀ sp, Ram.wf sp (s.ram sp))
    (ht : ∀ sp, Ram.wf sp (t.ram sp)) (heq : ∀ a, a < 256 → t.peek .mtft a = s.peek .mtft a) (a : Nat)
    (ha : a < 256) : (promote i b t).peek .mtft a = (promote i b s).peek .mtft a := by
  rw [peek_promote i b t ht, peek_promote i b s hs, heq a ha, heq (a - 1) (by omega)]

/-- Settles O43: both directions push at the byte's rank in the common table and then make the same promotion. -/
theorem mtfDirectionsStayInStep : Obligations.MtfDirectionsStayInStep := by
  unfold Obligations.MtfDirectionsStayInStep
  intro e d b he hd hperm heq hqe hve heoie hqd hunit heoid
  obtain ⟨i, hi⟩ := hperm.surjective b
  have hi' : d.peek .mtft i.toNat = b := (heq _ i.isLt).trans hi
  refine ⟨i, _, _, _, _, engineStep_mtfByte hperm hqe hve hi, rfl, engineStep_mtfRanked rfl heoie,
    engineStep_mtfFetched hqd rfl hunit hi', rfl, engineStep_mtfOut rfl heoid, rfl, rfl, ?_, ?_⟩
  · exact permutation_promote _ b _ he i.isLt hi hperm
  · exact peek_promote_congr b he hd heq

end Sys2Proof.Machine

/-! LZP: the hash, the commands' start, the encoder's blocks, the decoder's mask bits and literals, and that both directions
stay in step. -/

namespace Sys2Proof.Machine

open Claims (ended lzpParams)

/-! ## The hash -/

/-- `NextHash(b)` in arithmetic: four bits up, the byte joined, truncated (45_lzp R340). -/
def State.hashAfter (b : Byte) (s : State) : Nat := ((s.work.hash * 16) ^^^ b.toNat) % 2 ^ s.params.hashOrder

theorem hashAfter_lt (b : Byte) (s : State) : s.hashAfter b < 2 ^ s.params.hashOrder := Nat.mod_lt _ (Nat.two_pow_pos _)

theorem nextHash_eq (s : State) (b : Byte) : s.nextHash b = { s with work := { s.work with hash := s.hashAfter b } } := by
  rw [State.nextHash, and_mask, Nat.shiftLeft_eq]
  rfl

/-- An empty table predicts 0 everywhere (45_lzp R340). -/
theorem peek_of_lzpt_nil {s : State} (h : s.lzpt = []) (a : Nat) : s.peek .lzpt a = 0#8 := by
  simp [peek_lzpt, h, Ram.find]

/-- A table that predicts the byte reads as if the byte had just been written at the hash (45_lzp R342). -/
theorem peek_of_predicted {s : State} {b : Byte} (hb : s.peek .lzpt s.work.hash = b) (a : Nat) :
    s.peek .lzpt a = if a = s.work.hash then b else s.peek .lzpt a := by
  refine (ite_eq_right_iff.2 fun ha => ?_).symm
  rw [ha, hb]

/-- Settles O44: the table is emptied; the update's shift and mask are a product and a remainder. -/
theorem lzpHashRollsForward : Obligations.LzpHashRollsForward := by
  unfold Obligations.LzpHashRollsForward
  exact fun s => ⟨⟨fun a _ => peek_of_lzpt_nil rfl a, rfl⟩, nextHash_eq s⟩

/-! ## The start -/

/-- LZP_CFG's fields are the latched parameters (10_state R35, R41). -/
theorem params_launched_lzp {op : Op} (hop : op.codec = .lzp) (s : State) : (s.launched op).params = lzpParams s := by
  simp only [State.launched, hop, lzpParams, field_eq_extract]
  rfl

/-- A new block is empty and pulls its first byte (45_lzp R341). -/
theorem lzpNewBlock_eq {s : State} (hlen : 1 ≤ s.params.blockLength) (heoi : s.eoi = false) :
    lzpNewBlock s
      = { s with work := { s.work with lmask := 0x00#8, nlit := 0, bi := 0 }, seq := .waitPull .lzpByte } :=
  (if_pos hlen).trans (pull_of_not_eoi _ _ heoi)

/-- LZP.ENC clears its predictor and begins a block (45_lzp R340, R341). -/
theorem lzpEncStart_eq {s : State} (hlen : 1 ≤ s.params.blockLength) (heoi : s.eoi = false) :
    lzpEncStart s = .next { s with
      lzpt := [], work := { s.work with hash := 0, lmask := 0x00#8, nlit := 0, bi := 0 }, seq := .waitPull .lzpByte } :=
  congrArg _ (lzpNewBlock_eq (s := s.clearPredictor) hlen heoi)

/-- LZP.DEC clears its predictor and asks for a mask byte (45_lzp R340, R350). -/
theorem lzpDecStart_eq {s : State} (heoi : s.eoi = false) :
    lzpDecStart s = .next { s with
      lzpt := [], work := { s.work with hash := 0, unit := [] }, seq := .waitPull (.fetched .lzp) } :=
  congrArg _ (pull_of_not_eoi { s.clearPredictor with work := s.clearPredictor.work.newUnit .lzp } _ heoi)

/-- Settles O13: both operations are accepted, latch and clear alike; each then makes its own first request. -/
theorem lzpCommandsStart : Obligations.LzpCommandsStart := by
  unfold Obligations.LzpCommandsStart
  intro s hb hlegal hfits
  have hl := (legal_lzp_iff s).2 hlegal
  have hf := (fits_lzp_iff s).2 hfits
  obtain ⟨-, hlen, -⟩ := hlegal
  constructor
  · have hexec := exec_of_legal_fits (op := .lzpEnc) hb hl hf
    rw [launched_started .lzpEnc .lzpByte, params_launched_lzp rfl] at hexec
    exact ⟨_, hexec.trans (lzpEncStart_eq hlen rfl), rfl, fun a _ => peek_of_lzpt_nil rfl a⟩
  · have hexec := exec_of_legal_fits (op := .lzpDec) hb hl hf
    rw [launched_started .lzpDec (.fetched .lzp), params_launched_lzp rfl] at hexec
    exact ⟨_, hexec.trans (lzpDecStart_eq rfl), rfl, fun a _ => peek_of_lzpt_nil rfl a⟩

/-! ## LZP.ENC -/

/-- A block that is complete or cut by End: an empty one ends the operation, another goes out mask first (45_lzp R343,
R344). -/
theorem lzpEmit_eq (s : State) :
    lzpEmit s = if s.work.bi = 0 then ended .ok s else { s with seq := .waitPush (.lzpLits 0) s.work.lmask } := rfl

/-- After a byte the hash and the block index advance; the block goes on or is emitted (45_lzp R341, R342). -/
theorem lzpNextByte_eq {s : State} (b : Byte) (heoi : s.eoi = false) :
    lzpNextByte b s = { s with
      work := { s.work with hash := s.hashAfter b, bi := s.work.bi + 1 }
      seq := if s.work.bi + 1 < s.params.blockLength then .waitPull .lzpByte
        else .waitPush (.lzpLits 0) s.work.lmask } := by
  rw [lzpNextByte, nextHash_eq]
  by_cases hmore : s.work.bi + 1 < s.params.blockLength
  · rw [if_pos hmore]
    exact (if_pos hmore).trans (pull_of_not_eoi _ _ heoi)
  · rw [if_neg hmore]
    exact (if_neg hmore).trans (if_neg (Nat.succ_ne_zero _))

/-- An atomic step that comes to the end of a byte ends there, at the next pull or at the mask's push. -/
theorem engineStep_of_lzpNextByte {p : Point} {s u : State} {b : Byte} (hq : s.seq = .run p)
    (ha : advance p s = .next (lzpNextByte b u)) (heoi : u.eoi = false) :
    engineStep s = .next { u with
      work := { u.work with hash := u.hashAfter b, bi := u.work.bi + 1 }
      seq := if u.work.bi + 1 < u.params.blockLength then .waitPull .lzpByte
        else .waitPush (.lzpLits 0) u.work.lmask } := by
  rw [lzpNextByte_eq b heoi] at ha
  refine engineStep_of_advance hq ha fun p => ?_
  dsimp only
  split <;> exact Seq.noConfusion

/-- A byte that is not predicted is written to the table and joins the literals (45_lzp R342). -/
def State.lzpMissed (b : Byte) (s : State) : State :=
  { s with
    lzpt := Ram.store .lzpt s.work.hash b s.lzpt, litb := Ram.store .litb s.work.nlit b s.litb
    work := { s.work with nlit := s.work.nlit + 1 } }

/-- A hit goes on with the mask bit set (45_lzp R342). -/
theorem lzpByteStep_of_hit {s : State} {b : Byte} (hv : s.work.rv = some b) (hhash : s.work.hash < 2 ^ s.params.hashOrder)
    (hhit : s.peek .lzpt s.work.hash = b) : lzpByteStep s = .next (lzpNextByte b s.lzpHit) := by
  simp only [lzpByteStep, hv]
  rw [memRead_of_lt _ hhash]
  exact if_pos hhit

/-- A miss goes on with the byte written to both RAMs (45_lzp R342). -/
theorem lzpByteStep_of_miss {s : State} {b : Byte} (hv : s.work.rv = some b) (hhash : s.work.hash < 2 ^ s.params.hashOrder)
    (hlit : s.work.nlit < s.params.blockLength) (hmiss : s.peek .lzpt s.work.hash ≠ b) :
    lzpByteStep s = .next (lzpNextByte b (s.lzpMissed b)) := by
  simp only [lzpByteStep, hv]
  rw [memRead_of_lt _ hhash, if_neg hmiss, memWrite_of_lt _ hhash]
  exact memWrite_of_lt _ hlit

theorem peek_lzpMissed_lzpt {s : State} (b : Byte) (hwf : Ram.wf .lzpt s.lzpt) (a : Nat) :
    (s.lzpMissed b).peek .lzpt a = if a = s.work.hash then b else s.peek .lzpt a :=
  peek_poke s .lzpt s.work.hash a b hwf

theorem peek_lzpMissed_litb {s : State} (b : Byte) (hwf : Ram.wf .litb s.litb) (a : Nat) :
    (s.lzpMissed b).peek .litb a = if a = s.work.nlit then b else s.peek .litb a :=
  peek_poke s .litb s.work.nlit a b hwf

/-- Settles O45: the byte is the prediction or not; the block's next byte or its mask ends the step in both cases. -/
theorem lzpEncoderPredicts : Obligations.LzpEncoderPredicts := by
  unfold Obligations.LzpEncoderPredicts
  intro s b hq hv heoi hrunning hwf
  obtain ⟨hhash, hlits, hroom⟩ := hrunning.work
  by_cases hhit : s.peek .lzpt s.work.hash = b
  · have hstep := engineStep_of_lzpNextByte hq (lzpByteStep_of_hit hv hhash hhit) heoi
    simp only [hhit, decide_true]
    exact ⟨_, hstep, rfl, peek_of_predicted hhit, fun _ => rfl⟩
  · have hstep := engineStep_of_lzpNextByte hq (lzpByteStep_of_miss hv hhash (by omega) hhit) heoi
    simp only [hhit, decide_false, eq_self, true_and]
    exact ⟨_, hstep, rfl, peek_lzpMissed_lzpt b (hwf .lzpt), peek_lzpMissed_litb b (hwf .litb)⟩

/-- A literal of the block is pushed (45_lzp R343). -/
theorem lzpLitsStep_of_lt {s : State} {t : Nat} (ht : t < s.work.nlit) (hlit : s.work.nlit ≤ s.params.blockLength) :
    lzpLitsStep t s = .next { s with seq := .waitPush (.lzpLits (t + 1)) (s.peek .litb t) } :=
  (if_pos ht).trans (memRead_of_lt _ (Nat.lt_of_lt_of_le ht hlit))

/-- After the last literal the operation ends, or a new block begins (45_lzp R343, R344). -/
theorem lzpLitsStep_of_le {s : State} {t : Nat} (ht : s.work.nlit ≤ t) (hlen : 1 ≤ s.params.blockLength) :
    lzpLitsStep t s = .next (if s.eoi then ended .ok s
      else { s with work := { s.work with lmask := 0x00#8, nlit := 0, bi := 0 }, seq := .waitPull .lzpByte }) := by
  rw [lzpLitsStep, if_neg (Nat.not_lt.2 ht)]
  by_cases heoi : s.eoi = true
  · rw [if_pos heoi, if_pos heoi]
    rfl
  · rw [if_neg heoi, if_neg heoi, lzpNewBlock_eq hlen (Bool.eq_false_of_not_eq_true heoi)]

/-- Settles O46: End at a block's byte emits the block; its pushes go on to the literals and then out of the block. -/
theorem lzpBlockIsEmitted : Obligations.LzpBlockIsEmitted := by
  unfold Obligations.LzpBlockIsEmitted
  refine fun s hlen => ⟨fun hq hv => ?_, fun t hq ht hlit => ?_, fun t hq ht => ?_⟩
  · have hemit : advance .lzpByte s = .next (lzpEmit s) := by simp only [advance, lzpByteStep, hv]
    rw [lzpEmit_eq] at hemit
    exact engineStep_of_advance hq hemit fun p => by split <;> exact Seq.noConfusion
  · exact engineStep_of_advance hq (lzpLitsStep_of_lt ht hlit) fun _ => Seq.noConfusion
  · exact engineStep_of_advance hq (lzpLitsStep_of_le ht hlen) fun p => by split <;> exact Seq.noConfusion

/-! ## LZP.DEC -/

/-- A set mask bit pushes the prediction, a clear one asks for a literal (45_lzp R351). -/
theorem lzpBitHead_of_lt {s : State} (hbi : s.work.bi < s.params.blockLength)
    (hhash : s.work.hash < 2 ^ s.params.hashOrder) (heoi : s.eoi = false) :
    lzpBitHead s = .next (if s.work.lmask.getLsbD s.work.bi then
        { s with seq := .waitPush (.lzpOut (s.peek .lzpt s.work.hash)) (s.peek .lzpt s.work.hash) }
      else { s with seq := .waitPull .lzpLiteral }) := by
  rw [lzpBitHead, if_pos hbi, memRead_of_lt _ hhash, pull_of_not_eoi _ _ heoi, apply_ite Host.Outcome.next]
  rfl

/-- After BLOCK_LENGTH bits the next mask byte is read (45_lzp R350). -/
theorem lzpBitHead_of_le {s : State} (hbi : s.params.blockLength ≤ s.work.bi) :
    lzpBitHead s = .next (s.nextUnit .lzp) := if_neg (Nat.not_lt.2 hbi)

/-- From `s` to `t` the byte `b` has been predicted or learnt at the hash, and is being pushed (45_lzp R351). -/
def LzpGivesBack (b : Byte) (s t : State) : Prop :=
  t = { s with lzpt := t.lzpt, seq := .waitPush (.lzpOut b) b }
  ∧ ∀ a, t.peek .lzpt a = if a = s.work.hash then b else s.peek .lzpt a

/-- A literal is written to the table and pushed (45_lzp R351). -/
theorem engineStep_lzpLiteral {s : State} {b : Byte} (hq : s.seq = .run .lzpLiteral) (hv : s.work.rv = some b)
    (hhash : s.work.hash < 2 ^ s.params.hashOrder) (hwf : Ram.wf .lzpt s.lzpt) :
    ∃ t, engineStep s = .next t ∧ LzpGivesBack b s t := by
  have hwrite : advance .lzpLiteral s = .next ((s.poke .lzpt s.work.hash b).push (.lzpOut b) b) := by
    simp only [advance, lzpLiteralStep, hv]
    exact memWrite_of_lt _ hhash
  exact ⟨_, engineStep_of_advance hq hwrite fun _ => Seq.noConfusion, rfl, fun a => peek_poke s .lzpt _ a b hwf⟩

/-- After a byte has been accepted the hash and the bit index advance, and the next bit or the next unit is met (45_lzp
R350, R351). -/
theorem engineStep_lzpOut {s : State} {b : Byte} (hq : s.seq = .run (.lzpOut b)) (heoi : s.eoi = false) :
    engineStep s = .next
      (if s.work.bi + 1 < s.params.blockLength then
        if s.work.lmask.getLsbD (s.work.bi + 1) then
          { s with
            work := { s.work with hash := s.hashAfter b, bi := s.work.bi + 1 }
            seq := .waitPush (.lzpOut (s.peek .lzpt (s.hashAfter b))) (s.peek .lzpt (s.hashAfter b)) }
        else
          { s with work := { s.work with hash := s.hashAfter b, bi := s.work.bi + 1 }, seq := .waitPull .lzpLiteral }
      else
        { s with
          work := { s.work with hash := s.hashAfter b, bi := s.work.bi + 1, unit := [] }
          seq := .waitPull (.fetched .lzp) }) := by
  have hhead : advance (.lzpOut b) s
      = lzpBitHead { s with work := { s.work with hash := s.hashAfter b, bi := s.work.bi + 1 } } := by
    rw [advance, lzpOutStep, nextHash_eq]
  by_cases hbi : s.work.bi + 1 < s.params.blockLength
  · rw [if_pos hbi]
    refine engineStep_of_advance hq (hhead.trans (lzpBitHead_of_lt hbi (hashAfter_lt b s) heoi)) fun p => ?_
    split <;> exact Seq.noConfusion
  · rw [if_neg hbi]
    exact engineStep_of_nextUnit (d := .lzp) rfl hq (hhead.trans (lzpBitHead_of_le (Nat.not_lt.1 hbi))) heoi

/-- Settles O47: the mask byte meets bit 0, an accepted byte the bit after its own; a literal is written or the operation
ends. -/
theorem lzpBlockExecutes : Obligations.LzpBlockExecutes := by
  unfold Obligations.LzpBlockExecutes
  refine fun s b hwf hhash => ⟨fun m hq hlen heoi => (onUnit_of hq).trans (lzpBitHead_of_lt hlen hhash heoi),
    fun hq hv => engineStep_lzpLiteral hq hv hhash (hwf .lzpt), fun hq hv => ?_, engineStep_lzpOut⟩
  have hfinish : advance .lzpLiteral s = .next (ended .ok s) := by
    simp only [advance, lzpLiteralStep, hv]
    rfl
  exact engineStep_of_advance hq hfinish fun _ => Seq.noConfusion

/-! ## Both directions -/

/-- A bit head whose bit is set gives its prediction back: the table holds it at the hash already (45_lzp R351). -/
theorem lzpBitHead_givesBack {s : State} {b : Byte} (hbi : s.work.bi < s.params.blockLength)
    (hbit : s.work.lmask.getLsbD s.work.bi = true) (hhash : s.work.hash < 2 ^ s.params.hashOrder)
    (heoi : s.eoi = false) (hb : s.peek .lzpt s.work.hash = b) :
    ∃ t, lzpBitHead s = .next t ∧ LzpGivesBack b s t := by
  have hhead := lzpBitHead_of_lt hbi hhash heoi
  rw [if_pos hbit, hb] at hhead
  exact ⟨_, hhead, rfl, peek_of_predicted hb⟩

/-- Whatever comes after an accepted byte, the hash has advanced by it and the table is as before (45_lzp R350). -/
theorem engineStep_lzpOut_hash {s : State} {b : Byte} (hq : s.seq = .run (.lzpOut b)) (heoi : s.eoi = false) :
    ∃ t, engineStep s = .next t ∧ t.work.hash = s.hashAfter b ∧ ∀ a, t.peek .lzpt a = s.peek .lzpt a := by
  refine ⟨_, engineStep_lzpOut hq heoi, ?_, fun a => ?_⟩
  · split_ifs <;> rfl
  · split_ifs <;> rfl

/-- Settles O48: the decoder predicts or learns the byte where the encoder does, and both hashes advance by it. -/
theorem lzpDirectionsStayInStep : Obligations.LzpDirectionsStayInStep := by
  unfold Obligations.LzpDirectionsStayInStep
  intro e d b hwfe hwfd hrunning horder hhash hpeek hqe hve heoie heoid hit hset hliteral
  obtain ⟨hlt, -, -⟩ := hrunning.work
  have hltd : d.work.hash < 2 ^ d.params.hashOrder := by rwa [hhash, horder]
  have hsame : d.hashAfter b = e.hashAfter b := by rw [State.hashAfter, State.hashAfter, hhash, horder]
  obtain ⟨e1, he1, hstate1, hread1, -⟩ := lzpEncoderPredicts e b hqe hve heoie hrunning hwfe
  have hback : ∃ d1, (if hit then lzpBitHead d else engineStep d) = .next d1 ∧ LzpGivesBack b d d1 := by
    cases hhit : hit with
    | true =>
      obtain ⟨hbi, hbit⟩ := hset hhit
      have hpredicted : d.peek .lzpt d.work.hash = b := by
        rw [hpeek, hhash]
        exact of_decide_eq_true hhit
      exact lzpBitHead_givesBack hbi hbit hltd heoid hpredicted
    | false =>
      obtain ⟨hqd, hvd⟩ := hliteral hhit
      exact engineStep_lzpLiteral hqd hvd hltd (hwfd .lzpt)
  obtain ⟨d1, hd1, hstate, hread⟩ := hback
  have heoi1 : d1.eoi = false := by
    rw [hstate]
    exact heoid
  obtain ⟨d2, hd2, hhash2, hread2⟩ := engineStep_lzpOut_hash (s := { d1 with seq := .run (.lzpOut b) }) rfl heoi1
  refine ⟨e1, d1, d2, he1, hd1, by rw [hstate], hd2, ?_, fun a => ?_⟩
  · rw [hhash2, hstate, hstate1]
    exact hsame
  · rw [hread2, hread1, ← hhash, ← hpeek]
    exact hread a

end Sys2Proof.Machine

/-! How an operation ends (60_exceptions): BUSY falls with DONE in the engine's or a port's step, or by reset; and which ends
can be CorruptStream. -/

namespace Sys2Proof.Machine

/-! ## BUSY falls with DONE -/

theorem EngineFrame.busy_or_ended {s t : State} (h : EngineFrame s t) :
    t.status.busy = s.status.busy ∨ (t.seq = .idle ∧ ∃ res, t.status = s.status.ended res) :=
  h.status.imp_left (congrArg Status.busy)

theorem pullAnswered_busy_or_ended (s : State) (p : Point) (a : PullAnswer) :
    (s.pullAnswered p a).status.busy = s.status.busy
    ∨ ((s.pullAnswered p a).seq = .idle ∧ ∃ res, (s.pullAnswered p a).status = s.status.ended res) := by
  cases a with
  | byte | endOfInput => exact .inl rfl
  | error => exact .inr ⟨rfl, _, rfl⟩

theorem pushAnswered_busy_or_ended (s : State) (p : Point) (v : Byte) (a : PushAnswer) :
    (s.pushAnswered p v a).status.busy = s.status.busy
    ∨ ((s.pushAnswered p v a).seq = .idle ∧ ∃ res, (s.pushAnswered p v a).status = s.status.ended res) := by
  cases a with
  | ok => exact .inl rfl
  | full | error => exact .inr ⟨rfl, _, rfl⟩

/-- While an operation runs, a step keeps BUSY, or ends the operation, or is a reset (60_exceptions R373, R374). -/
theorem Move.busy_or_ended {s t : State} (h : Move s t) (hb : s.status.busy = true) :
    t.status.busy = s.status.busy ∨ (t.seq = .idle ∧ ∃ res, t.status = s.status.ended res)
    ∨ ∃ rest, s.host.script = .hardwareReset :: rest := by
  cases h with
  | hostOnly host hd => exact .inl rfl
  | engine host hd he => exact (ensures_engineStep _ t he).busy_or_ended.imp_right .inl
  | pullAnswered host p a hd hq => exact (pullAnswered_busy_or_ended _ p a).imp_right .inl
  | pushAnswered host p v a hd hq => exact (pushAnswered_busy_or_ended _ p v a).imp_right .inl
  | command v rest hs ho =>
    rw [ho.eq_of_busy hb]
    exact .inl rfl
  | register r v rest hs => cases r <;> exact .inl rfl
  | reset rest hs => exact .inr (.inr ⟨rest, hs⟩)

/-- A step that ends a running operation is neither a counted answer nor an accepted command, so it keeps the counters. -/
theorem Move.countsKept_of_idle {s t : State} (h : Move s t) (hb : s.status.busy = true) (hq : t.seq = .idle) :
    CountsKept s t ∨ ∃ rest, s.host.script = .hardwareReset :: rest := by
  obtain hk | ⟨p, v, -, hrun, -⟩ | ⟨p, v, -, hrun, -⟩ | ⟨-, -, -, ⟨hidle, -⟩ | hreset⟩ := h.counts
  · exact .inl hk
  · simp [hq] at hrun
  · simp [hq] at hrun
  · simp [hb] at hidle
  · exact .inr hreset

/-- Settles O21: a step that is no reset and lets BUSY fall writes STATUS as an end does, and keeps the counters. -/
theorem operationsEndWithDone : Obligations.OperationsEndWithDone := by
  unfold Obligations.OperationsEndWithDone
  intro s t hst hb hnb
  have hm := step_move hst
  obtain hsame | ⟨hq, res, hres⟩ | hreset := hm.busy_or_ended hb
  · simp [hsame, hb] at hnb
  · obtain hk | hreset := hm.countsKept_of_idle hb hq
    · exact .inr ⟨by simp [hres], hq, hk.readCount, hk.writeCount, by simp [hres], by simp [hres], by simp [hres],
        hk.delivered⟩
    · exact .inl hreset
  · exact .inl hreset

/-! ## CorruptStream

The step functions of the other eight operations end an operation by `finish` alone; all else they do is inside the engine
and leaves STATUS as it is. -/

/-- The result is not CorruptStream (60_exceptions R370). -/
def NotCorrupt (s : State) : Prop := s.status.result ≠ .corruptStream

/-- What leaves STATUS alone keeps the result. -/
theorem NotCorrupt.inside {s t : State} (h : NotCorrupt s) (hi : Inside s t) : NotCorrupt t := by
  unfold NotCorrupt
  rw [hi.status]
  exact h

theorem notCorrupt_finish (s : State) : NotCorrupt s.finish := by simp [NotCorrupt]

theorem notCorrupt_raise {e : Result} (he : e ≠ .corruptStream) (s : State) : NotCorrupt (s.raise e) := by
  simpa [NotCorrupt] using he

section
variable {s : State} (h : NotCorrupt s)
include h

theorem ensures_pull_notCorrupt (p : Point) : Out.ensures (.next (s.pull p)) NotCorrupt :=
  ensures_next (h.inside (inside_pull s p))

theorem ensures_push_notCorrupt (p : Point) (v : Byte) : Out.ensures (.next (s.push p v)) NotCorrupt :=
  ensures_next (h.inside (inside_push s p v))

theorem ensures_goto_notCorrupt (p : Point) : Out.ensures (.next (s.goto p)) NotCorrupt :=
  ensures_next (h.inside (inside_goto s p))

theorem ensures_nextUnit_notCorrupt (d : Decoder) : Out.ensures (.next (s.nextUnit d)) NotCorrupt :=
  ensures_next (h.inside (inside_nextUnit s d))

theorem ensures_firstPull_notCorrupt (d : Decoder) : Out.ensures (.next (s.firstPull d)) NotCorrupt :=
  ensures_next (h.inside (inside_firstPull s d))

/-! ### The bit packer -/

theorem putBits_notCorrupt {bits : List Bool} {onPush : List Bool → Point} {onDone : State → Out}
    (hdone : ∀ u, NotCorrupt u → (onDone u).ensures NotCorrupt) : (putBits bits onPush onDone s).ensures NotCorrupt := by
  have hu (w : Work) : NotCorrupt { s with work := w } := h.inside (inside_work s w)
  unfold putBits
  dsimp only
  split
  · exact ensures_push_notCorrupt (hu _) _ _
  · exact hdone _ (hu _)

theorem flushThenFinish_notCorrupt (p : Point) : (flushThenFinish p s).ensures NotCorrupt := by
  unfold flushThenFinish
  split
  · exact ensures_push_notCorrupt h p _
  · exact ensures_next (notCorrupt_finish s)

theorem getBits_notCorrupt {onPull : Nat → Nat → Point} {onDone : Nat → State → Out}
    (hdone : ∀ x u, NotCorrupt u → (onDone x u).ensures NotCorrupt) (n x : Nat) :
    (getBits onPull onDone n x s).ensures NotCorrupt := by
  induction n generalizing x s with
  | zero => exact hdone x s h
  | succ n ih =>
    unfold getBits
    split
    · exact ensures_pull_notCorrupt h _
    · exact ih (h.inside (inside_dropBit s)) _

/-! ### RLE.ENC -/

theorem rleAfterRun_notCorrupt : (rleAfterRun s).ensures NotCorrupt := by
  unfold rleAfterRun
  split
  · exact ensures_pull_notCorrupt h _
  · exact ensures_goto_notCorrupt h _

theorem rleStore_notCorrupt {b : Byte} {k : State → Out} (hk : ∀ u, NotCorrupt u → (k u).ensures NotCorrupt) :
    (rleStore b s k).ensures NotCorrupt :=
  ensures_memWrite (hk _ (h.inside ((inside_poke s _ _ _).trans (inside_work _ _))))

theorem rleRepeat_notCorrupt (b : Byte) (left : Nat) : (rleRepeat b left s).ensures NotCorrupt := by
  induction left generalizing s with
  | zero => exact rleAfterRun_notCorrupt h
  | succ left ih =>
    refine rleStore_notCorrupt h fun u hu => ?_
    split
    · exact ensures_push_notCorrupt hu _ _
    · exact ih hu

theorem rleReturn_notCorrupt (ret : FlushReturn) : (rleReturn ret s).ensures NotCorrupt := by
  cases ret with
  | afterAppend => exact ensures_pull_notCorrupt h _
  | afterRepeat left => exact rleRepeat_notCorrupt h _ left
  | toRun => exact ensures_push_notCorrupt h _ _
  | atEnd => exact ensures_next (notCorrupt_finish s)

theorem rleFlush_notCorrupt (ret : FlushReturn) : (rleFlush ret s).ensures NotCorrupt := by
  unfold rleFlush
  split
  · exact ensures_push_notCorrupt h _ _
  · exact rleReturn_notCorrupt h ret

theorem rleLitsStep_notCorrupt (t : Nat) (ret : FlushReturn) : (rleLitsStep t ret s).ensures NotCorrupt := by
  unfold rleLitsStep
  split
  · exact ensures_memRead fun v => ensures_push_notCorrupt h _ v
  · exact rleReturn_notCorrupt (h.inside (inside_work s _)) ret

theorem rleEmitRun_notCorrupt : (rleEmitRun s).ensures NotCorrupt := by
  unfold rleEmitRun
  split
  · exact rleFlush_notCorrupt h _
  · exact rleRepeat_notCorrupt h _ _

theorem rleCountHead_notCorrupt : (rleCountHead s).ensures NotCorrupt := by
  unfold rleCountHead
  split
  · exact rleEmitRun_notCorrupt (h.inside (inside_work s _))
  · exact ensures_pull_notCorrupt h _

theorem rleCountStep_notCorrupt : (rleCountStep s).ensures NotCorrupt := by
  unfold rleCountStep
  split
  · exact rleEmitRun_notCorrupt h
  · split
    · exact rleCountHead_notCorrupt (h.inside (inside_work s _))
    · exact rleEmitRun_notCorrupt h

theorem rleTopStep_notCorrupt : (rleTopStep s).ensures NotCorrupt := by
  unfold rleTopStep
  split
  · exact rleFlush_notCorrupt h _
  · split
    · refine rleStore_notCorrupt (h.inside (inside_work s _)) fun u hu => ?_
      split
      · exact ensures_push_notCorrupt hu _ _
      · exact ensures_pull_notCorrupt hu _
    · exact rleCountHead_notCorrupt (h.inside (inside_work s _))

/-! ### LZSS -/

theorem lzssFillStep_notCorrupt (again : Bool) : (lzssFillStep again s).ensures NotCorrupt := by
  unfold lzssFillStep
  split
  · exact ensures_next (h.inside (inside_lzssFillDone again s))
  · rename_i v _
    have hu (w : Work) : NotCorrupt { s.poke .win s.work.bufferend v with work := w } :=
      h.inside ((inside_poke s _ _ v).trans (inside_work _ w))
    refine ensures_memWrite ?_
    dsimp only
    split
    · exact ensures_pull_notCorrupt (hu _) _
    · exact ensures_next ((hu _).inside (inside_lzssFillDone again _))

theorem lzssAfterUnit_notCorrupt : (lzssAfterUnit s).ensures NotCorrupt := by
  have hu := h.inside (inside_advanceCursor s)
  unfold lzssAfterUnit
  dsimp only
  split
  · exact ensures_next (hu.inside ((inside_slideWindow _).trans (inside_lzssFillHead true _)))
  · exact ensures_goto_notCorrupt hu _

theorem lzssPutStep_notCorrupt (bits : List Bool) : (lzssPutStep bits s).ensures NotCorrupt :=
  putBits_notCorrupt h fun _ hu => lzssAfterUnit_notCorrupt hu

theorem lzssMainStep_notCorrupt : (lzssMainStep s).ensures NotCorrupt := by
  unfold lzssMainStep
  split
  · split
    · exact lzssPutStep_notCorrupt (h.inside (inside_work s _)) _
    · exact ensures_fault
  · exact flushThenFinish_notCorrupt h _

theorem lzssAppend_notCorrupt {v : Byte} {k : State → Out} (hk : ∀ u, NotCorrupt u → (k u).ensures NotCorrupt) :
    (lzssAppend v s k).ensures NotCorrupt :=
  ensures_memWrite (hk _ (h.inside ((inside_poke s _ _ _).trans (inside_work _ _))))

theorem lzssCopyHead_notCorrupt (k : Nat) : (lzssCopyHead k s).ensures NotCorrupt := by
  unfold lzssCopyHead
  split
  · exact ensures_memRead fun v => ensures_push_notCorrupt h _ v
  · exact ensures_nextUnit_notCorrupt h _

/-! ### EG.ENC and MTF.ENC -/

theorem egPutStep_notCorrupt (bits : List Bool) (last : Bool) : (egPutStep bits last s).ensures NotCorrupt := by
  refine putBits_notCorrupt h fun u hu => ?_
  split
  · exact flushThenFinish_notCorrupt hu _
  · exact ensures_goto_notCorrupt hu _

theorem egRead_notCorrupt (left x : Nat) : (egRead left x s).ensures NotCorrupt :=
  getBits_notCorrupt h (fun _ _ hu => egPutStep_notCorrupt hu _ _) left x

theorem egSymStep_notCorrupt (left x : Nat) : (egSymStep left x s).ensures NotCorrupt := by
  unfold egSymStep
  split
  · exact egPutStep_notCorrupt h _ _
  · exact egRead_notCorrupt (h.inside (inside_refill s _)) left x

theorem mtfByteStep_notCorrupt : (mtfByteStep s).ensures NotCorrupt := by
  unfold mtfByteStep
  split
  · exact ensures_next (notCorrupt_finish s)
  · exact ensures_memRead fun _ => ensures_push_notCorrupt (h.inside (inside_work s _)) _ _

/-! ### LZP -/

theorem notCorrupt_lzpEmit : NotCorrupt (lzpEmit s) := by
  unfold lzpEmit
  split
  · exact notCorrupt_finish s
  · exact h.inside (inside_push s _ _)

theorem notCorrupt_lzpBlockHead : NotCorrupt (lzpBlockHead s) := by
  unfold lzpBlockHead
  split
  · exact h.inside (inside_pull s _)
  · exact notCorrupt_lzpEmit h

theorem notCorrupt_lzpNewBlock : NotCorrupt (lzpNewBlock s) := notCorrupt_lzpBlockHead (h.inside (inside_work s _))

theorem notCorrupt_lzpNextByte (b : Byte) : NotCorrupt (lzpNextByte b s) :=
  notCorrupt_lzpBlockHead (h.inside ((inside_nextHash s b).trans (inside_work _ _)))

theorem lzpByteStep_notCorrupt : (lzpByteStep s).ensures NotCorrupt := by
  unfold lzpByteStep
  split
  · exact ensures_next (notCorrupt_lzpEmit h)
  · refine ensures_memRead fun _ => ?_
    split
    · exact ensures_next (notCorrupt_lzpNextByte (h.inside (inside_lzpHit s)) _)
    · refine ensures_memWrite (ensures_memWrite (ensures_next (notCorrupt_lzpNextByte ?_ _)))
      exact h.inside (((inside_poke s _ _ _).trans (inside_poke _ _ _ _)).trans (inside_work _ _))

theorem lzpLitsStep_notCorrupt (t : Nat) : (lzpLitsStep t s).ensures NotCorrupt := by
  unfold lzpLitsStep
  split
  · exact ensures_memRead fun v => ensures_push_notCorrupt h _ v
  · split
    · exact ensures_next (notCorrupt_finish s)
    · exact ensures_next (notCorrupt_lzpNewBlock h)

theorem lzpBitHead_notCorrupt : (lzpBitHead s).ensures NotCorrupt := by
  unfold lzpBitHead
  split
  · split
    · exact ensures_memRead fun b => ensures_push_notCorrupt h _ b
    · exact ensures_pull_notCorrupt h _
  · exact ensures_nextUnit_notCorrupt h _

theorem lzpLiteralStep_notCorrupt : (lzpLiteralStep s).ensures NotCorrupt := by
  unfold lzpLiteralStep
  split
  · exact ensures_next (notCorrupt_finish s)
  · exact ensures_memWrite (ensures_push_notCorrupt (h.inside (inside_poke s _ _ _)) _ _)

/-! ### The decoders but RLE.DEC and EG.DEC -/

/-- Every unit of LZSS, MTF and LZP has a meaning; the invalid codes are Elias-Gamma's (60_exceptions R371). -/
theorem exec_unit_notCorrupt {i : Instr} (hi : i.family = .lzss ∨ i.family = .mtf ∨ i.family = .lzp) :
    Out.ensures (exec i s) NotCorrupt := by
  cases i with
  | lzssLiteral v => exact ensures_onUnit (ensures_push_notCorrupt h _ v)
  | lzssReference pos len => exact ensures_onUnit (lzssCopyHead_notCorrupt (h.inside (inside_work s _)) 0)
  | mtfRank r =>
    exact ensures_onUnit (ensures_memRead fun b => ensures_push_notCorrupt (h.inside (inside_work s _)) _ b)
  | lzpBlock m => exact ensures_onUnit (lzpBitHead_notCorrupt (h.inside (inside_work s _)))
  | _ => simp [Instr.family] at hi

theorem takeUnitBits_notCorrupt {d : Decoder} (hd : d = .lzss ∨ d = .mtf ∨ d = .lzp) (bits : List Bool) :
    (takeUnitBits d bits s).ensures NotCorrupt := by
  unfold takeUnitBits
  split
  · rename_i i rest hdec
    refine exec_unit_notCorrupt (h.inside ((inside_work s _).trans (inside_goto _ _))) ?_
    rw [decode_family hdec]
    exact hd.imp (congrArg _) (.imp (congrArg _) (congrArg _))
  · exact ensures_next (h.inside (((inside_work s _).trans (inside_goto _ _)).trans (inside_noteUnit d _)))

theorem fetchStep_notCorrupt {d : Decoder} (hd : d = .lzss ∨ d = .mtf ∨ d = .lzp) :
    (fetchStep d s).ensures NotCorrupt := by
  unfold fetchStep
  split
  · exact takeUnitBits_notCorrupt (h.inside (inside_dropBit s)) hd _
  · exact ensures_pull_notCorrupt h _

/-- End is the normal end of these decoders (60_exceptions R371). -/
theorem fetchedStep_notCorrupt {d : Decoder} (hd : d = .lzss ∨ d = .mtf ∨ d = .lzp) :
    (fetchedStep d s).ensures NotCorrupt := by
  unfold fetchedStep
  split
  · obtain rfl | rfl | rfl := hd <;> exact ensures_next (notCorrupt_finish s)
  · split
    · exact fetchStep_notCorrupt (h.inside (inside_refill s _)) hd
    · exact takeUnitBits_notCorrupt h hd _

/-! ### One point, one command -/

/-- A point of an operation other than the two decoders. -/
theorem advance_notCorrupt {p : Point} (hrle : p.op ≠ .rleDec) (heg : p.op ≠ .egDec) :
    (advance p s).ensures NotCorrupt := by
  cases p with
  | fetch d =>
    have hd : d = .lzss ∨ d = .mtf ∨ d = .lzp := by cases d <;> simp [Point.op] at hrle heg ⊢
    exact fetchStep_notCorrupt h hd
  | fetched d =>
    have hd : d = .lzss ∨ d = .mtf ∨ d = .lzp := by cases d <;> simp [Point.op] at hrle heg ⊢
    exact fetchedStep_notCorrupt h hd
  | unit d => exact ensures_nextUnit_notCorrupt h d
  | rleTop => exact rleTopStep_notCorrupt h
  | rleCount => exact rleCountStep_notCorrupt h
  | rleLits t ret => exact rleLitsStep_notCorrupt h t ret
  | rleRunCmd => exact ensures_push_notCorrupt h _ _
  | rleRunByte => exact rleAfterRun_notCorrupt h
  | lzssFill again => exact lzssFillStep_notCorrupt h again
  | lzssMain => exact lzssMainStep_notCorrupt h
  | lzssPut bits => exact lzssPutStep_notCorrupt (h.inside (inside_emptyOut s)) bits
  | lzssLitDone v => exact lzssAppend_notCorrupt h fun _ hu => ensures_nextUnit_notCorrupt hu _
  | lzssCopied k v => exact lzssAppend_notCorrupt h fun _ hu => lzssCopyHead_notCorrupt hu (k + 1)
  | egMain => exact egRead_notCorrupt h 4 0
  | egSym left x => exact egSymStep_notCorrupt h left x
  | egPut bits last => exact egPutStep_notCorrupt (h.inside (inside_emptyOut s)) bits last
  | lzssFlushed | egFlushed => exact ensures_next (notCorrupt_finish _)
  | mtfByte => exact mtfByteStep_notCorrupt h
  | mtfRanked b => exact ensures_pull_notCorrupt (h.inside (inside_promote _ b s)) _
  | mtfOut b => exact ensures_nextUnit_notCorrupt (h.inside (inside_promote _ b s)) _
  | lzpByte => exact lzpByteStep_notCorrupt h
  | lzpLits t => exact lzpLitsStep_notCorrupt h t
  | lzpLiteral => exact lzpLiteralStep_notCorrupt h
  | lzpOut b => exact lzpBitHead_notCorrupt (h.inside ((inside_nextHash s b).trans (inside_work _ _)))
  | rleLitByte | rleLitDone | rleRunDone => exact absurd rfl hrle
  | egOut | egOutFlushed => exact absurd rfl heg

/-- Every operation's first step, those of RLE.DEC and EG.DEC too. -/
theorem start_notCorrupt (op : Op) : (op.start s).ensures NotCorrupt := by
  cases op with
  | rleEnc => exact ensures_pull_notCorrupt (h.inside (inside_work s _)) _
  | rleDec | egDec => exact ensures_firstPull_notCorrupt h _
  | lzssEnc =>
    exact ensures_next
      (h.inside (((inside_fillWindow s).trans (inside_work _ _)).trans (inside_lzssFillHead false _)))
  | lzssDec => exact ensures_firstPull_notCorrupt (h.inside ((inside_fillWindow s).trans (inside_work _ _))) _
  | egEnc => exact egRead_notCorrupt h 4 0
  | mtfEnc => exact ensures_pull_notCorrupt (h.inside (inside_identityTable s)) _
  | mtfDec => exact ensures_firstPull_notCorrupt (h.inside (inside_identityTable s)) _
  | lzpEnc => exact ensures_next (notCorrupt_lzpNewBlock (h.inside (inside_clearPredictor s)))
  | lzpDec => exact ensures_firstPull_notCorrupt (h.inside (inside_clearPredictor s)) _

/-- A command is ignored, turned away with InvalidParameters or BufferTooSmall, or started (40_stream_bitpacker R161). -/
theorem exec_command_notCorrupt {i : Instr} (hi : i.family = .command) : Out.ensures (exec i s) NotCorrupt := by
  obtain ⟨op, rfl⟩ | ⟨w, hw⟩ := exec_command_cases hi
  · have hlaunched : NotCorrupt (s.launched op) := by simp [NotCorrupt, State.launched]
    rw [exec_op_command]
    unfold runCommand
    split_ifs
    · exact ensures_next h
    · exact ensures_next (notCorrupt_raise (by decide) _)
    · exact ensures_next (notCorrupt_raise (by decide) _)
    · exact start_notCorrupt hlaunched op
  · rw [hw]
    unfold refuseCommand
    split_ifs
    · exact ensures_next h
    · exact ensures_next (notCorrupt_raise (by decide) _)

theorem notCorrupt_pullAnswered (p : Point) (a : PullAnswer) : NotCorrupt (s.pullAnswered p a) := by
  cases a with
  | byte | endOfInput => exact h
  | error => exact notCorrupt_raise (by decide) s

theorem notCorrupt_pushAnswered (p : Point) (v : Byte) (a : PushAnswer) : NotCorrupt (s.pushAnswered p v a) := by
  cases a with
  | ok => exact h
  | full | error => exact notCorrupt_raise (by decide) s

end

/-! ### The step -/

/-- The operation is RLE.DEC or EG.DEC, by its DIR and CODEC (30_encoding R121). -/
def State.RaisesCorrupt (s : State) : Prop := s.opDir = true ∧ (s.opCodec = 0#3 ∨ s.opCodec = 2#3)

/-- The point's operation is the one that DIR and CODEC name. -/
theorem op_ne_of_not_raisesCorrupt {s : State} {p : Point} (hinv : Inv s) (hq : s.seq = .run p)
    (hop : ¬ s.RaisesCorrupt) : p.op ≠ .rleDec ∧ p.op ≠ .egDec := by
  have hrun := hinv.running p (by rw [hq]; rfl)
  refine ⟨fun hp => hop ⟨?_, .inl ?_⟩, fun hp => hop ⟨?_, .inr ?_⟩⟩
  · rw [hrun.dir, hp]; rfl
  · rw [hrun.codec, hp]; rfl
  · rw [hrun.dir, hp]; rfl
  · rw [hrun.codec, hp]; rfl

/-- The atomic step: the operation stays the same from point to point. -/
theorem settle_notCorrupt (fuel : Nat) {s : State} (hinv : Inv s) (hop : ¬ s.RaisesCorrupt) (h : NotCorrupt s) :
    (settle fuel s).ensures NotCorrupt := by
  induction fuel generalizing s with
  | zero => exact ensures_next h
  | succ fuel ih =>
    by_cases hrun : ∃ p, s.seq = .run p
    · obtain ⟨p, hq⟩ := hrun
      obtain ⟨hrle, heg⟩ := op_ne_of_not_raisesCorrupt hinv hq hop
      obtain ⟨u, hu, hinvu, -⟩ := reach_advance hinv hq
      have hframe := ensures_advance p s u hu
      have hopu : ¬ u.RaisesCorrupt := by
        unfold State.RaisesCorrupt
        rw [hframe.opDir, hframe.opCodec]
        exact hop
      rw [settle_run hq, hu]
      exact ih hinvu hopu (advance_notCorrupt h hrle heg u hu)
    · rw [settle_of_not_run _ (not_exists.1 hrun)]
      exact ensures_next h

/-- No kind of step gives CorruptStream but the atomic step of the two decoders. -/
theorem step_notCorrupt {s t : State} (hinv : Inv s) (hop : ¬ s.RaisesCorrupt) (h : NotCorrupt s) (hst : step s = .next t) :
    NotCorrupt t := by
  have hhost (host : HostSide) : NotCorrupt { s with host := host } := h
  cases step_move hst with
  | hostOnly host hd => exact h
  | engine host hd he => exact settle_notCorrupt settleFuel (inv_host hinv host) hop (hhost host) t he
  | pullAnswered host p a hd hq => exact notCorrupt_pullAnswered (hhost host) p a
  | pushAnswered host p v a hd hq => exact notCorrupt_pushAnswered (hhost host) p v a
  | command v rest hs ho =>
    exact exec_command_notCorrupt (s := s.popped) h (decodeCommand_family v) t (step_of_command hs ▸ hst)
  | register r v rest hs => cases r <;> exact h
  | reset rest hs => exact (by decide : Result.ok ≠ .corruptStream)

/-- Settles O22: a step of any other operation keeps the result from CorruptStream. -/
theorem corruptStreamOnlyFromTwoDecoders : Obligations.CorruptStreamOnlyFromTwoDecoders := by
  unfold Obligations.CorruptStreamOnlyFromTwoDecoders
  intro s t hinv hst ht hs
  by_contra hop
  exact step_notCorrupt hinv hop hs hst ht

end Sys2Proof.Machine

/-! Reset and hazards: the registers after a reset, answers to a port that has no outstanding request, and a CMD write while
BUSY. -/

namespace Sys2Proof.Machine

/-! ## Reset -/

/-- After a reset at any moment a register reads as after power-on, but for CAPS, which is the build's (70_reset R400). -/
theorem readReg_hardwareReset (s : State) {r : Reg} (hr : r ≠ .caps) :
    s.hardwareReset.readReg r = State.reset.readReg r := by
  cases r with
  | caps => exact absurd rfl hr
  | _ => rfl

theorem readReg_caps_hardwareReset (s : State) : s.hardwareReset.readReg .caps = s.readReg .caps := rfl

/-- The table of 70_reset R400. -/
theorem readReg_reset :
    State.reset.readReg .cmd = 0#32 ∧ State.reset.readReg .status = 0#32 ∧ State.reset.readReg .lzssCfg = 0x0020024B#32
    ∧ State.reset.readReg .rleCfg = 0x00000180#32 ∧ State.reset.readReg .lzpCfg = 0x00000810#32
    ∧ State.reset.readReg .readCount = 0#32 ∧ State.reset.readReg .writeCount = 0#32
    ∧ State.reset.readReg .caps = 0x0000100F#32 := by decide

/-- Settles O1: after power-on and after a reset the registers read alike, and as the table says. -/
theorem resetRegisterValues : Obligations.ResetRegisterValues := by
  unfold Obligations.ResetRegisterValues
  refine ⟨by simp [readReg_reset], rfl, rfl, fun s t ht => ?_⟩
  have hsame : t.seq = .idle ∧ ∀ r, r ≠ .caps → t.readReg r = State.reset.readReg r := by
    simp only [List.mem_cons, List.not_mem_nil, or_false] at ht
    obtain rfl | rfl := ht
    · exact ⟨rfl, fun _ _ => rfl⟩
    · exact ⟨rfl, fun _ hr => readReg_hardwareReset s hr⟩
  obtain ⟨hidle, hreg⟩ := hsame
  simp [hidle, hreg, readReg_reset, readReg_caps_hardwareReset]

/-- The step of a hardware reset. -/
theorem step_of_hardwareReset {s : State} {rest : List HostAction} (h : s.host.script = .hardwareReset :: rest) :
    step s = .next (Claims.after rest s).hardwareReset := by
  rw [← popped_of_script h]
  exact step_of_script h

/-! ## Answers to a port without a request -/

theorem unrequestedAnswer_of_late {k : PortKind} {s : State} (h : k ∈ s.host.withdrawn) :
    unrequestedAnswer k s = .next { s with host := { s.host with withdrawn := s.host.withdrawn.erase k } } :=
  if_pos ((awaitsLate_iff k s).2 h)

theorem unrequestedAnswer_of_not_late {k : PortKind} {s : State} (h : k ∉ s.host.withdrawn) :
    unrequestedAnswer k s = .refused .answerWithoutRequest :=
  if_neg (mt (awaitsLate_iff k s).1 h)

/-- Without a pull request an answer to the input port is an unrequested one. -/
theorem hostAnswersPull_of_not_waitPull {s : State} (a : PullAnswer) (hq : ∀ p, s.seq ≠ .waitPull p) :
    hostAnswersPull a s = unrequestedAnswer .pull s := by
  cases h : s.seq with
  | waitPull p => exact absurd h (hq p)
  | _ => simp only [hostAnswersPull, h]

/-- Without a push request an answer to the output port is an unrequested one. -/
theorem hostAnswersPush_of_not_waitPush {s : State} (a : PushAnswer) (hq : ∀ p v, s.seq ≠ .waitPush p v) :
    hostAnswersPush a s = unrequestedAnswer .push s := by
  cases h : s.seq with
  | waitPush p v => exact absurd h (hq p v)
  | _ => simp only [hostAnswersPush, h]

/-- A late answer is performed at once, in RUN too (70_reset R402). -/
theorem afterRequest_of_late {late : Bool} (act : State → Out) (s : State) (hl : late = true) :
    afterRequest late act s = act s.popped := by
  unfold afterRequest
  rw [hl]
  cases s.seq <;> rfl

/-- In RUN the engine steps before an action that is not late (log 6). -/
theorem afterRequest_of_run {late : Bool} {act : State → Out} {s : State} {p : Point} (hq : s.seq = .run p)
    (hl : late ≠ true) : afterRequest late act s = engineStep s := by
  simp [afterRequest, hq, hl]

/-- A late answer is taken off the list of the withdrawn requests and does nothing else (70_reset R402). -/
theorem afterRequest_late_answer {k : PortKind} {act : State → Out} {s : State} {a : HostAction} {rest : List HostAction}
    (hs : s.host.script = a :: rest) (hact : act s.popped = unrequestedAnswer k s.popped) (hk : k ∈ s.host.withdrawn) :
    afterRequest (s.awaitsLate k) act s
      = .next { s with host := { s.host with script := rest, withdrawn := s.host.withdrawn.erase k } } := by
  rw [afterRequest_of_late act s ((awaitsLate_iff k s).2 hk), hact, popped_of_script hs]
  exact unrequestedAnswer_of_late (s := Claims.after rest s) hk

/-- Outside RUN an answer that no request awaits is refused (70_reset R414, I4). -/
theorem afterRequest_stray_answer {k : PortKind} {act : State → Out} {s : State} (hq : ∀ p, s.seq ≠ .run p)
    (hact : act s.popped = unrequestedAnswer k s.popped) (hk : k ∉ s.host.withdrawn) :
    afterRequest (s.awaitsLate k) act s = .refused .answerWithoutRequest := by
  rw [afterRequest_of_not_run hq, hact]
  exact unrequestedAnswer_of_not_late (s := s.popped) hk

/-- Settles O2: the step is `hardwareReset`; a late answer finds its port without a request, and is performed in RUN too. -/
theorem hardwareResetWithdrawsTheRequest : Obligations.HardwareResetWithdrawsTheRequest := by
  unfold Obligations.HardwareResetWithdrawsTheRequest
  refine ⟨fun s rest hs => ?_, fun s a rest hs hq hk => ?_, fun s a rest hs hq hk => ?_⟩
  · exact ⟨_, step_of_hardwareReset hs, rfl, rfl, rfl, rfl, rfl, rfl, rfl, rfl, rfl⟩
  · have hnot : ∀ p, s.seq ≠ .waitPull p := fun p hp => by simp [hp] at hq
    have hact := hostAnswersPull_of_not_waitPull (s := s.popped) a hnot
    exact (step_of_script hs).trans (afterRequest_late_answer hs hact hk)
  · have hnot : ∀ p v, s.seq ≠ .waitPush p v := fun p v hp => by simp [hp] at hq
    have hact := hostAnswersPush_of_not_waitPush (s := s.popped) a hnot
    exact (step_of_script hs).trans (afterRequest_late_answer hs hact hk)

/-- Settles O17: outside RUN the answer is performed at once and is unrequested; in RUN it is not late, so the engine steps. -/
theorem strayAnswersRefused : Obligations.StrayAnswersRefused := by
  unfold Obligations.StrayAnswersRefused
  refine fun s rest => ⟨fun a hs => ⟨fun hq hk => ?_, fun p hq hk => ?_⟩, fun a hs => ⟨fun hq hk => ?_, fun p hq hk => ?_⟩⟩
  · have hrun : ∀ p, s.seq ≠ .run p := fun p hp => by simp [hp] at hq
    have hnot : ∀ p, s.seq ≠ .waitPull p := fun p hp => by simp [hp] at hq
    have hact := hostAnswersPull_of_not_waitPull (s := s.popped) a hnot
    exact (step_of_script hs).trans (afterRequest_stray_answer hrun hact hk)
  · exact (step_of_script hs).trans (afterRequest_of_run hq (mt (awaitsLate_iff _ _).1 hk))
  · have hrun : ∀ p, s.seq ≠ .run p := fun p hp => by simp [hp] at hq
    have hnot : ∀ p v, s.seq ≠ .waitPush p v := fun p v hp => by simp [hp] at hq
    have hact := hostAnswersPush_of_not_waitPush (s := s.popped) a hnot
    exact (step_of_script hs).trans (afterRequest_stray_answer hrun hact hk)
  · exact (step_of_script hs).trans (afterRequest_of_run hq (mt (awaitsLate_iff _ _).1 hk))

/-! ## A CMD write while BUSY -/

/-- While BUSY every command and reserved word is ignored (70_reset R410). -/
theorem exec_command_of_busy {i : Instr} (hi : i.family = .command) {s : State} (hb : s.status.busy = true) :
    exec i s = .next s := by
  obtain ⟨op, rfl⟩ | ⟨w, hw⟩ := exec_command_cases hi
  · rw [exec_op_command, runCommand, if_pos hb]
  · rw [hw, refuseCommand, if_pos hb]

/-- Settles O6: every word written to CMD decodes into the command grammar. -/
theorem commandWhileBusyIgnored : Obligations.CommandWhileBusyIgnored := by
  unfold Obligations.CommandWhileBusyIgnored
  refine fun s hb => ⟨fun i hi => exec_command_of_busy hi hb, fun w rest hs => ?_⟩
  rw [step_of_command hs, popped_of_script hs]
  exact exec_command_of_busy (decodeCommand_family w) hb

end Sys2Proof.Machine
